-- ==== Sys2Proof/Word.lean ====
section
/-! DEFINITION. The word types of TXFBC (spec/00_scope.md R6, R10). -/

namespace Sys2Proof

/-- A control register, a symbol word or a length tag: 32 bits (R6). -/
abbrev Word := BitVec 32

/-- A byte of a message: 8 bits (R6). -/
abbrev Byte := BitVec 8

end Sys2Proof
end

