-- ==== Sys2Proof/Syntax.lean ====
section
/-! DEFINITION. The operations of TXFBC: one constructor for each mnemonic of
spec/opcode_table.json (spec/30_encoding.md R96). -/

namespace Sys2Proof

inductive Instr where
  /-- RD (R100): `a` is the word index. -/
  | rd (a : BitVec 4)
  /-- WR.STATUS (R102). -/
  | wrStatus (v : Word)
  /-- WR.IEN (R103). -/
  | wrIen (v : Word)
  /-- WR.CFG (R104). -/
  | wrCfg (v : Word)
  /-- WR.PRE (R105). -/
  | wrPre (v : Word)
  /-- WR.SYNCLEN (R106). -/
  | wrSyncLen (v : Word)
  /-- WR.SYNC0 (R107). -/
  | wrSync0 (v : Word)
  /-- WR.SYNC1 (R108). -/
  | wrSync1 (v : Word)
  /-- WR.AMP0 (R109). -/
  | wrAmp0 (v : Word)
  /-- WR.AMP1 (R110). -/
  | wrAmp1 (v : Word)
  /-- WR.RO (R111): `a` is 0, 11 or 12. -/
  | wrRo (a : BitVec 4) (v : Word)
  /-- WR.UNMAPPED (R112): `a` is 13, 14 or 15. -/
  | wrUnmapped (a : BitVec 4) (v : Word)
  /-- COMMIT (R114). -/
  | commit
  /-- STOP (R115). -/
  | stop
  /-- ABORT (R116). -/
  | abort
  /-- SRST (R117). -/
  | srst
  /-- CMD.RSVD (R118): `code` is 0 or 5 to 15. -/
  | cmdRsvd (code : BitVec 4)
  /-- HEAD (R131): `n` is the declared length. -/
  | head (n : BitVec 16)
  /-- DATA (R132). -/
  | data (b : Byte)
  /-- END (R133). -/
  | msgEnd
  /-- RSVD (R134). -/
  | rsvd
  /-- DROP (R151). -/
  | drop
  /-- START (R152). -/
  | start
  /-- EMIT_PRE (R153). -/
  | emitPre
  /-- EMIT_SYNC (R154). -/
  | emitSync
  /-- EMIT_PAY (R155). -/
  | emitPay
  /-- DRAIN_DONE (R157). -/
  | drainDone
  /-- LOAD (R170). -/
  | load
  /-- SHIFT (R171). -/
  | shift
  /-- MAP (R180), evaluated on its own: `bit` is its operand (log 6). -/
  | map (bit : Bool)
  /-- POP (R181). -/
  | pop
  deriving DecidableEq, Repr

/-- The kind of an ingress beat (R82). -/
inductive BeatKind where
  | head
  | data
  | msgEnd
  | rsvd
  deriving DecidableEq, Repr

/-- The mnemonic of an operation, as spec/opcode_table.json spells it. -/
def Instr.mnemonic : Instr → String
  | .rd _ => "RD"
  | .wrStatus _ => "WR.STATUS"
  | .wrIen _ => "WR.IEN"
  | .wrCfg _ => "WR.CFG"
  | .wrPre _ => "WR.PRE"
  | .wrSyncLen _ => "WR.SYNCLEN"
  | .wrSync0 _ => "WR.SYNC0"
  | .wrSync1 _ => "WR.SYNC1"
  | .wrAmp0 _ => "WR.AMP0"
  | .wrAmp1 _ => "WR.AMP1"
  | .wrRo _ _ => "WR.RO"
  | .wrUnmapped _ _ => "WR.UNMAPPED"
  | .commit => "COMMIT"
  | .stop => "STOP"
  | .abort => "ABORT"
  | .srst => "SRST"
  | .cmdRsvd _ => "CMD.RSVD"
  | .head _ => "HEAD"
  | .data _ => "DATA"
  | .msgEnd => "END"
  | .rsvd => "RSVD"
  | .drop => "DROP"
  | .start => "START"
  | .emitPre => "EMIT_PRE"
  | .emitSync => "EMIT_SYNC"
  | .emitPay => "EMIT_PAY"
  | .drainDone => "DRAIN_DONE"
  | .load => "LOAD"
  | .shift => "SHIFT"
  | .map _ => "MAP"
  | .pop => "POP"

end Sys2Proof
end

