-- ==== Sys2Proof/WellFormed.lean ====
section
/-! DEFINITION. Which operands an operation may have, and which operations a port word selects. -/

namespace Sys2Proof

/-- The read-only slots `ID`, `FERRCNT`, `FRAMECNT` (spec/20_memory.md R61; R111). -/
def roSlot (a : BitVec 4) : Bool :=
  a == 0#4 || a == 11#4 || a == 12#4

/-- The unmapped slots (R61; R112). -/
def unmappedSlot (a : BitVec 4) : Bool :=
  a == 13#4 || a == 14#4 || a == 15#4

/-- The command codes that are one of the four commands (R86). -/
def commandCode (c : BitVec 4) : Bool :=
  c == 1#4 || c == 2#4 || c == 3#4 || c == 4#4

/-- The operand ranges of the opcode table (R96). -/
def Instr.wf : Instr → Bool
  | .rd _ => true
  | .wrStatus _ => true
  | .wrIen _ => true
  | .wrCfg _ => true
  | .wrPre _ => true
  | .wrSyncLen _ => true
  | .wrSync0 _ => true
  | .wrSync1 _ => true
  | .wrAmp0 _ => true
  | .wrAmp1 _ => true
  | .wrRo a _ => roSlot a
  | .wrUnmapped a _ => unmappedSlot a
  | .commit => true
  | .stop => true
  | .abort => true
  | .srst => true
  | .cmdRsvd c => !commandCode c
  | .head _ => true
  | .data _ => true
  | .msgEnd => true
  | .rsvd => true
  | .drop => true
  | .start => true
  | .emitPre => true
  | .emitSync => true
  | .emitPay => true
  | .drainDone => true
  | .load => true
  | .shift => true
  | .map _ => true
  | .pop => true

/-- Is the operation selected by a word at a port (Format C or Format I)? The other ten are selected
by the state (R96). -/
def Instr.portSelected : Instr → Bool
  | .rd _ => true
  | .wrStatus _ => true
  | .wrIen _ => true
  | .wrCfg _ => true
  | .wrPre _ => true
  | .wrSyncLen _ => true
  | .wrSync0 _ => true
  | .wrSync1 _ => true
  | .wrAmp0 _ => true
  | .wrAmp1 _ => true
  | .wrRo _ _ => true
  | .wrUnmapped _ _ => true
  | .commit => true
  | .stop => true
  | .abort => true
  | .srst => true
  | .cmdRsvd _ => true
  | .head _ => true
  | .data _ => true
  | .msgEnd => true
  | .rsvd => true
  | .drop => false
  | .start => false
  | .emitPre => false
  | .emitSync => false
  | .emitPay => false
  | .drainDone => false
  | .load => false
  | .shift => false
  | .map _ => false
  | .pop => false

end Sys2Proof
end

