-- ==== Sys2Proof/Decode.lean ====
section
/-! DEFINITION. Port words to operations and back (spec/30_encoding.md R80 to R96). -/

namespace Sys2Proof

/-- A word at one of the two input ports: Format C or Format I (R80). -/
inductive PortWord where
  | ctl (w : BitVec 37)
  | beat (w : BitVec 18)
  deriving DecidableEq, Repr

/-- Why some bits are no port word. -/
inductive DecodeError where
  /-- No input format has this many bits. -/
  | noFormat (nbits : Nat)
  /-- A bit above the format's own bits is set. -/
  | tooWide (nbits w : Nat)
  /-- No bits at all: the operation is selected by the state (R96). -/
  | stateSelected
  /-- Format S is what POP returns and selects nothing (R84). -/
  | egressItem
  deriving DecidableEq, Repr

/-! ### Format C (R81) -/

def ctlWe (w : BitVec 37) : Bool := w.getLsbD 36

def ctlIndex (w : BitVec 37) : BitVec 4 := w.extractLsb' 32 4

def ctlData (w : BitVec 37) : Word := w.extractLsb' 0 32

/-- The command code, `wdata[3:0]`; `wdata[31:4]` is ignored (R86, R113). -/
def cmdCode (v : Word) : BitVec 4 := v.extractLsb' 0 4

/-- A write to `CMD` (R113, R118). -/
def decodeCmd (v : Word) : Instr :=
  match (cmdCode v).toNat with
  | 1 => .commit
  | 2 => .stop
  | 3 => .abort
  | 4 => .srst
  | _ => .cmdRsvd (cmdCode v)

/-- A write dispatches on the word index (R101). -/
def decodeWrite (a : BitVec 4) (v : Word) : Instr :=
  match a.toNat with
  | 0 => .wrRo a v
  | 1 => decodeCmd v
  | 2 => .wrStatus v
  | 3 => .wrIen v
  | 4 => .wrCfg v
  | 5 => .wrPre v
  | 6 => .wrSyncLen v
  | 7 => .wrSync0 v
  | 8 => .wrSync1 v
  | 9 => .wrAmp0 v
  | 10 => .wrAmp1 v
  | 11 => .wrRo a v
  | 12 => .wrRo a v
  | _ => .wrUnmapped a v

/-- The operation of a Format C word (R81, R96). -/
def decodeCtl (w : BitVec 37) : Instr :=
  if ctlWe w then decodeWrite (ctlIndex w) (ctlData w) else .rd (ctlIndex w)

/-! ### Format I (R82) -/

def beatKindBits (w : BitVec 18) : BitVec 2 := w.extractLsb' 16 2

def beatLen (w : BitVec 18) : BitVec 16 := w.extractLsb' 0 16

def beatByte (w : BitVec 18) : Byte := w.extractLsb' 0 8

/-- The kind of a Format I word (R82). -/
def beatKind (w : BitVec 18) : BeatKind :=
  match (beatKindBits w).toNat with
  | 0 => .data
  | 1 => .msgEnd
  | 2 => .head
  | _ => .rsvd

/-- The operation of a Format I word (R82, R96). -/
def decodeBeat (w : BitVec 18) : Instr :=
  match beatKind w with
  | .data => .data (beatByte w)
  | .msgEnd => .msgEnd
  | .head => .head (beatLen w)
  | .rsvd => .rsvd

def decode : PortWord → Instr
  | .ctl w => decodeCtl w
  | .beat w => decodeBeat w

/-! ### Any number of any bits -/

/-- The port word that `nbits` bits of value `w` are: 37 bits (40 in whole bytes) are Format C, 18 bits
(24 in whole bytes) are Format I (log 13). -/
def portWord (nbits w : Nat) : Except DecodeError PortWord :=
  match nbits with
  | 0 => .error .stateSelected
  | 37 | 40 => if w < 2 ^ 37 then .ok (.ctl (BitVec.ofNat 37 w)) else .error (.tooWide nbits w)
  | 18 | 24 => if w < 2 ^ 18 then .ok (.beat (BitVec.ofNat 18 w)) else .error (.tooWide nbits w)
  | 65 | 72 => .error .egressItem
  | _ => .error (.noFormat nbits)

/-- Total on any bits, rejecting by name. -/
def decodeBits (nbits w : Nat) : Except DecodeError Instr :=
  match portWord nbits w with
  | .ok p => .ok (decode p)
  | .error e => .error e

def decodeTableWord (nbits w : Nat) : Option Instr :=
  match decodeBits nbits w with
  | .ok i => some i
  | .error _ => none

/-! ### Encoder: the same formats, written the other way; ignored bits are 0 -/

/-- A field of a `w`-bit word, its least significant bit at bit `lo`; the other bits 0. -/
def fieldAt (w lo : Nat) {n : Nat} (x : BitVec n) : BitVec w := x.setWidth w <<< lo

/-- Format C: we 36, a 35:32, wdata 31:0 (R81). -/
def ctlBits (we : Bool) (a : BitVec 4) (v : Word) : BitVec 37 :=
  fieldAt 37 36 (BitVec.ofBool we) ||| fieldAt 37 32 a ||| fieldAt 37 0 v

def ctlWord (we : Bool) (a : BitVec 4) (v : Word) : PortWord := .ctl (ctlBits we a v)

/-- A write to `CMD`: CODE 3:0 (R85, R86). -/
def cmdWord (c : BitVec 4) : PortWord := ctlWord true 1#4 (fieldAt 32 0 c)

/-- Format I: kind 17:16, pl 15:0 (R82). -/
def beatBits (kind : BitVec 2) (pl : BitVec 16) : BitVec 18 :=
  fieldAt 18 16 kind ||| fieldAt 18 0 pl

def beatWord (kind : BitVec 2) (pl : BitVec 16) : PortWord := .beat (beatBits kind pl)

/-- The word of an operation that a port word selects (R81, R82, R96). -/
def encode : Instr → Option PortWord
  | .rd a => some (ctlWord false a 0#32)
  | .wrStatus v => some (ctlWord true 2#4 v)
  | .wrIen v => some (ctlWord true 3#4 v)
  | .wrCfg v => some (ctlWord true 4#4 v)
  | .wrPre v => some (ctlWord true 5#4 v)
  | .wrSyncLen v => some (ctlWord true 6#4 v)
  | .wrSync0 v => some (ctlWord true 7#4 v)
  | .wrSync1 v => some (ctlWord true 8#4 v)
  | .wrAmp0 v => some (ctlWord true 9#4 v)
  | .wrAmp1 v => some (ctlWord true 10#4 v)
  | .wrRo a v => some (ctlWord true a v)
  | .wrUnmapped a v => some (ctlWord true a v)
  | .commit => some (cmdWord 1#4)
  | .stop => some (cmdWord 2#4)
  | .abort => some (cmdWord 3#4)
  | .srst => some (cmdWord 4#4)
  | .cmdRsvd c => some (cmdWord c)
  | .head n => some (beatWord 2#2 n)
  | .data b => some (beatWord 0#2 (fieldAt 16 0 b))
  | .msgEnd => some (beatWord 1#2 0#16)
  | .rsvd => some (beatWord 3#2 0#16)
  | .drop => none
  | .start => none
  | .emitPre => none
  | .emitSync => none
  | .emitPay => none
  | .drainDone => none
  | .load => none
  | .shift => none
  | .map _ => none
  | .pop => none

/-! ### The rows of spec/opcode_table.json that have a match and a mask -/

/-- One row: `(word & mask) = pat` selects it (R96). -/
structure TableRow where
  mnemonic : String
  pat : Nat
  mask : Nat
  deriving DecidableEq, Repr

/-- The rows with one value of `we` and `a` each. -/
def ctlRegisterRows : List TableRow :=
  [⟨"RD", 0x0000000000, 0x1000000000⟩] ++
  [⟨"WR.STATUS", 0x1200000000, 0x1F00000000⟩, ⟨"WR.IEN", 0x1300000000, 0x1F00000000⟩] ++
  [⟨"WR.CFG", 0x1400000000, 0x1F00000000⟩, ⟨"WR.PRE", 0x1500000000, 0x1F00000000⟩,
   ⟨"WR.SYNCLEN", 0x1600000000, 0x1F00000000⟩, ⟨"WR.SYNC0", 0x1700000000, 0x1F00000000⟩,
   ⟨"WR.SYNC1", 0x1800000000, 0x1F00000000⟩, ⟨"WR.AMP0", 0x1900000000, 0x1F00000000⟩,
   ⟨"WR.AMP1", 0x1A00000000, 0x1F00000000⟩] ++
  [⟨"WR.RO", 0x1000000000, 0x1F00000000⟩, ⟨"WR.RO", 0x1B00000000, 0x1F00000000⟩,
   ⟨"WR.RO", 0x1C00000000, 0x1F00000000⟩] ++
  [⟨"WR.UNMAPPED", 0x1D00000000, 0x1F00000000⟩, ⟨"WR.UNMAPPED", 0x1E00000000, 0x1F00000000⟩,
   ⟨"WR.UNMAPPED", 0x1F00000000, 0x1F00000000⟩]

/-- The rows of a write to `CMD`, one for each value of `wdata[3:0]`. -/
def ctlCommandRows : List TableRow :=
  [⟨"COMMIT", 0x1100000001, 0x1F0000000F⟩, ⟨"STOP", 0x1100000002, 0x1F0000000F⟩,
   ⟨"ABORT", 0x1100000003, 0x1F0000000F⟩, ⟨"SRST", 0x1100000004, 0x1F0000000F⟩] ++
  ([0, 5, 6, 7, 8, 9, 10, 11, 12, 13, 14, 15].map fun c =>
    (⟨"CMD.RSVD", 0x1100000000 + c, 0x1F0000000F⟩ : TableRow))

/-- The 32 Format C rows. -/
def ctlRows : List TableRow := ctlRegisterRows ++ ctlCommandRows

/-- The 4 Format I rows. -/
def beatRows : List TableRow :=
  [⟨"HEAD", 0x20000, 0x30000⟩, ⟨"DATA", 0x00000, 0x30000⟩,
   ⟨"END", 0x10000, 0x30000⟩, ⟨"RSVD", 0x30000, 0x30000⟩]

/-- The row selects the word. -/
def TableRow.selects (r : TableRow) (w : Nat) : Bool := w &&& r.mask == r.pat

end Sys2Proof
end

