-- ==== Sys2Proof/Config.lean ====
section
/-! DEFINITION. What is fixed for one TXFBC: the size parameters, the constants, the names of the
agents, and the free values of the model. -/

namespace Sys2Proof

/-- The four buffer capacities, "parameters the model takes as arguments" (spec/00_scope.md R5). A
state carries them as plain data and no step writes them (log 3). -/
structure Params where
  qmsgs  : Nat
  qbytes : Nat
  bcap   : Nat
  ocap   : Nat
  deriving DecidableEq, Repr

/-- The defaults R5 gives. -/
def Params.default : Params := { qmsgs := 4, qbytes := 65536, bcap := 2, ocap := 2 }

/-- The lower bounds R5 gives. -/
def Params.legal (p : Params) : Bool :=
  decide (1 ≤ p.qmsgs) && decide (65535 ≤ p.qbytes) && decide (1 ≤ p.bcap) && decide (1 ≤ p.ocap)

/-- Who moves next: one of the five agents (R7), or the reset pin asserted for this step (R230). -/
inductive Turn where
  | host
  | producer
  | fbc
  | brp
  | consumer
  | rst
  deriving DecidableEq, Repr, Inhabited

/-- FREE VALUE (log 1): whose turn it is where the schedule of a state has run out. "The order
between agents is free" (R8; spec/93_implementation_defined.md U10). -/
opaque Config.freeTurn : Nat → Turn

/-- FREE VALUE (log 9): what the 65 egress pins (Format S) show while `out_valid` is 0
(spec/10_state.md R40, U6). -/
opaque Config.freeOutWord : Nat → BitVec 65

/-- The constant `ID` reads (spec/10_state.md R31). -/
def Config.idWord : Word := 0x46424331#32

/-- The longest legal syncword, in bytes (R6). -/
def Config.syncMax : Nat := 8

/-- Where a record's DATA count saturates (spec/10_state.md R34). -/
def Config.cntMax : Nat := 65536

end Sys2Proof
end

