-- ==== Sys2Proof/Machine/State.lean ====
section
/-! DEFINITION. The state of TXFBC as plain data, the reasons a step may stop, and reset
(spec/10_state.md). Every field of the device has a named update here; Sys2Proof/Laws/State.lean
says of each update what it leaves alone. -/

namespace Sys2Proof.Machine

open Sys2Proof

/-- The lifecycle register `LC` (R21). -/
inductive LC where
  | unconf
  | run
  | drain
  | halt
  deriving DecidableEq, Repr

/-- `FB_PHASE` (R35). -/
inductive Phase where
  | idle
  | pre
  | sync
  | pay
  deriving DecidableEq, Repr

/-- The six sticky error flags, `STATUS[13:8]` (R22). -/
structure Flags where
  cfgErr     : Bool
  unsupErr   : Bool
  framingErr : Bool
  alignErr   : Bool
  protoErr   : Bool
  accErr     : Bool
  deriving DecidableEq, Repr

/-- The fields of the seven configuration registers `CFG`, `PRE`, `SYNCLEN`, `SYNC0`, `SYNC1`, `AMP0`,
`AMP1` (R24 to R28). `bitord` is false for MSB-first and true for LSB-first. -/
structure Conf where
  mode     : BitVec 4
  scr      : BitVec 2
  bitord   : Bool
  verbose  : Bool
  preByte  : Byte
  preCount : BitVec 16
  syncLen  : BitVec 4
  sync0    : Word
  sync1    : Word
  amp0     : Word
  amp1     : Word
  deriving DecidableEq, Repr

/-- A message record of `MQ` (R34); `data` oldest byte first. -/
structure Msg where
  decl   : BitVec 16
  data   : List Byte
  cnt    : BitVec 17
  closed : Bool
  deriving DecidableEq, Repr

/-- An item of `BCH` (R36). `width` is how many data bits the item carries: 8 in every item FBC pushes;
it is here so that the cause of R173 and R204, an item that is not a whole byte, can be written down
(log 7). -/
structure BItem where
  byte  : Byte
  sof   : Bool
  tag   : Word
  width : Nat
  deriving DecidableEq, Repr

/-- An item of `OQ` (R38). -/
structure SItem where
  sym : Word
  sof : Bool
  tag : Word
  deriving DecidableEq, Repr

/-- FBC's working registers (R35). -/
structure Fbc where
  phase : Phase
  cnt   : BitVec 16
  sof   : Bool
  tag   : Word
  deriving DecidableEq, Repr

/-- BRP's working registers (R37). -/
structure Brp where
  byte : Byte
  cnt  : BitVec 4
  sof  : Bool
  tag  : Word
  deriving DecidableEq, Repr

/-- The whole state of TXFBC (R20). The three queues hold the oldest item first. -/
structure Dev where
  lc       : LC
  flags    : Flags
  ien      : BitVec 6
  conf     : Conf
  ferrcnt  : Word
  framecnt : Word
  mq       : List Msg
  fbc      : Fbc
  bch      : List BItem
  brp      : Brp
  oq       : List SItem
  deriving DecidableEq, Repr

/-- What stands around the device (log 2, 5, 6): R44's parameters of the step relation (the sizes, whose
turn it is, what HOST and PRODUCER will send) and R9's observations (the values read, the items
delivered). -/
structure Env where
  params    : Params
  schedule  : List Turn
  turnNo    : Nat
  hostQ     : List (BitVec 37)
  beatQ     : List (BitVec 18)
  reads     : List Word
  delivered : List SItem
  mapResult : Option Word
  deriving DecidableEq, Repr

structure State where
  dev : Dev
  env : Env
  deriving DecidableEq, Repr

/-- A stop. Each stands where the pseudocode of a rule has no meaning, in states that no run from reset
reaches; SAFE, since the machine stops where the spec says nothing (log 8). -/
inductive Fault where
  /-- Raised by START, EMIT_PRE, EMIT_SYNC and EMIT_PAY where they read or pop the head of an empty `MQ`,
  and by EMIT_PAY where the head record has no byte left; R43 (b), (c) say neither arises. Safe. -/
  | popEmpty
  /-- Raised by EMIT_SYNC where `S - FB_CNT` is not in 0..7; R154 says it always is. Safe. -/
  | syncIndex
  /-- Raised by SHIFT where `8 - BR_CNT` is not in 0..7; R43 (e) says it always is. Safe. -/
  | bitIndex
  deriving DecidableEq, Repr

inductive Refusal where
  /-- Raised by `exec` alone, for an operation with no meaning yet; no arm uses it. Safe. -/
  | notModelled (mnemonic : String)
  deriving DecidableEq, Repr

/-- What a meaning answers. -/
abbrev Res := Host.Outcome State Fault Refusal

/-! ### Named updates -/

def Dev.setLc (d : Dev) (x : LC) : Dev := { d with lc := x }
def Dev.setFlags (d : Dev) (x : Flags) : Dev := { d with flags := x }
def Dev.setIen (d : Dev) (x : BitVec 6) : Dev := { d with ien := x }
def Dev.setConf (d : Dev) (x : Conf) : Dev := { d with conf := x }
def Dev.setFerrcnt (d : Dev) (x : Word) : Dev := { d with ferrcnt := x }
def Dev.setFramecnt (d : Dev) (x : Word) : Dev := { d with framecnt := x }
def Dev.setMq (d : Dev) (x : List Msg) : Dev := { d with mq := x }
def Dev.setFbc (d : Dev) (x : Fbc) : Dev := { d with fbc := x }
def Dev.setBch (d : Dev) (x : List BItem) : Dev := { d with bch := x }
def Dev.setBrp (d : Dev) (x : Brp) : Dev := { d with brp := x }
def Dev.setOq (d : Dev) (x : List SItem) : Dev := { d with oq := x }

def State.setDev (s : State) (x : Dev) : State := { s with dev := x }

/-- One turn is used: the schedule moves on and the turn counter counts (log 1). -/
def State.takeTurn (s : State) : State :=
  { s with env := { s.env with schedule := s.env.schedule.tail, turnNo := s.env.turnNo + 1 } }

/-- HOST's transactions still to come. -/
def State.setHostQ (s : State) (ws : List (BitVec 37)) : State :=
  { s with env := { s.env with hostQ := ws } }

/-- PRODUCER's beats still to come. -/
def State.setBeatQ (s : State) (ws : List (BitVec 18)) : State :=
  { s with env := { s.env with beatQ := ws } }

/-- HOST receives the value of a read (R81, R9 (b)). -/
def State.returnRead (s : State) (v : Word) : State :=
  { s with env := { s.env with reads := s.env.reads ++ [v] } }

/-- CONSUMER receives an item (R181, R9 (a)). -/
def State.deliver (s : State) (x : SItem) : State :=
  { s with env := { s.env with delivered := s.env.delivered ++ [x] } }

/-- The word a MAP on its own returns (R180). -/
def State.returnMap (s : State) (v : Word) : State :=
  { s with env := { s.env with mapResult := some v } }

/-! ### Reset (R42) -/

def Flags.reset : Flags :=
  { cfgErr := false, unsupErr := false, framingErr := false, alignErr := false, protoErr := false,
    accErr := false }

def Conf.reset : Conf :=
  { mode := 1#4, scr := 0#2, bitord := false, verbose := false, preByte := 0xAA#8, preCount := 50#16,
    syncLen := 4#4, sync0 := 0x930B51DE#32, sync1 := 0x00000000#32, amp0 := 0xBF800000#32,
    amp1 := 0x3F800000#32 }

def Fbc.reset : Fbc := { phase := .idle, cnt := 0#16, sof := false, tag := 0#32 }

def Brp.reset : Brp := { byte := 0#8, cnt := 0#4, sof := false, tag := 0#32 }

/-- The device after hardware reset and after SRST (R42, R230). -/
def Dev.reset : Dev :=
  { lc := .unconf, flags := Flags.reset, ien := 0#6, conf := Conf.reset, ferrcnt := 0#32,
    framecnt := 0#32, mq := [], fbc := Fbc.reset, bch := [], brp := Brp.reset, oq := [] }

/-- Around a device that has just been reset: the default sizes of R5, nothing scheduled, nothing
offered, nothing observed yet (log 1, 2, 3, 5, 6). -/
def Env.reset : Env :=
  { params := Params.default, schedule := [], turnNo := 0, hostQ := [], beatQ := [], reads := [],
    delivered := [], mapResult := none }

def State.reset : State := { dev := Dev.reset, env := Env.reset }

end Sys2Proof.Machine
end

