-- ==== Sys2Proof/Machine/Operands.lean ====
section
/-! DEFINITION. Every operand form: the slices a write stores (spec/30_encoding.md R85, R90), the
syncword bytes (spec/10_state.md R27), the bit selector (spec/43_brp_ops.md R172), the symbol map
(spec/44_smp_ops.md R180) and the unsigned arithmetic of spec/00_scope.md R13. -/

namespace Sys2Proof.Machine

open Sys2Proof

/-! ### What a write to a configuration register stores (R104 to R110) -/

/-- `CFG`: MODE 3:0, SCR 5:4, BITORD 8, VERBOSE 9. -/
def Conf.writeCfg (c : Conf) (v : Word) : Conf :=
  { c with mode := v.extractLsb' 0 4, scr := v.extractLsb' 4 2, bitord := v.getLsbD 8,
           verbose := v.getLsbD 9 }

/-- `PRE`: BYTE 7:0, COUNT 31:16. -/
def Conf.writePre (c : Conf) (v : Word) : Conf :=
  { c with preByte := v.extractLsb' 0 8, preCount := v.extractLsb' 16 16 }

/-- `SYNCLEN`: LEN 3:0. -/
def Conf.writeSyncLen (c : Conf) (v : Word) : Conf :=
  { c with syncLen := v.extractLsb' 0 4 }

def Conf.writeSync0 (c : Conf) (v : Word) : Conf := { c with sync0 := v }

def Conf.writeSync1 (c : Conf) (v : Word) : Conf := { c with sync1 := v }

def Conf.writeAmp0 (c : Conf) (v : Word) : Conf := { c with amp0 := v }

def Conf.writeAmp1 (c : Conf) (v : Word) : Conf := { c with amp1 := v }

/-- Bits 13:8, the flags' positions in `STATUS` and `IEN` (R85). -/
def flagSlice (v : Word) : BitVec 6 := v.extractLsb' 8 6

/-! ### Lengths (R41) -/

/-- `P`, the preamble length in bytes. -/
def Conf.preLen (c : Conf) : Nat := c.preCount.toNat

/-- `S`, the syncword length in bytes. -/
def Conf.syncLenNat (c : Conf) : Nat := c.syncLen.toNat

/-- `P + S + L`, the length tag (R35, R152). -/
def Conf.tagFor (c : Conf) (decl : BitVec 16) : Word :=
  BitVec.ofNat 32 (c.preLen + c.syncLenNat + decl.toNat)

/-! ### Syncword bytes (R27) -/

/-- `syncbyte(i)` for `i` in 0..7: first-sent byte in the most significant byte of `SYNC0`. -/
def Conf.syncbyte (c : Conf) (i : Nat) : Byte :=
  if i < 4 then c.sync0.extractLsb' (24 - 8 * i) 8
  else c.sync1.extractLsb' (24 - 8 * (i - 4)) 8

/-! ### Bit order and symbol (R172, R180) -/

/-- `bitsel(B, i, BITORD)`. -/
def bitsel (b : Byte) (i : Nat) (lsbFirst : Bool) : Bool :=
  if lsbFirst then b.getLsbD i else b.getLsbD (7 - i)

/-- `MAP(bit)`. -/
def Conf.mapBit (c : Conf) (bit : Bool) : Word :=
  if bit then c.amp1 else c.amp0

/-! ### Saturating and guarded counting (R13) -/

/-- `sat32(v + 1)`. -/
def satInc32 (v : Word) : Word := BitVec.ofNat 32 (min (v.toNat + 1) 0xFFFFFFFF)

/-- `min(cnt + 1, 65536)`. -/
def satIncCnt (v : BitVec 17) : BitVec 17 := BitVec.ofNat 17 (min (v.toNat + 1) Config.cntMax)

/-- A decrement "performed only when the value is at least 1" (R13 (d), R156). -/
def decCnt {n : Nat} (v : BitVec n) : BitVec n := BitVec.ofNat n (v.toNat - 1)

end Sys2Proof.Machine
end

