-- ==== Sys2Proof/Machine/Flags.lean ====
section
/-! DEFINITION. Every flag computation: the flags as the bits 13:8 of `STATUS`, write-1-to-clear, the
construction checks of COMMIT, and the interrupt line. -/

namespace Sys2Proof.Machine

open Sys2Proof

/-- `STATUS[13:8]` (spec/30_encoding.md R85): bit 0 here is bit 8 of `STATUS`. -/
def Flags.bits (f : Flags) : BitVec 6 :=
  fieldAt 6 0 (BitVec.ofBool f.cfgErr) ||| fieldAt 6 1 (BitVec.ofBool f.unsupErr) |||
    fieldAt 6 2 (BitVec.ofBool f.framingErr) ||| fieldAt 6 3 (BitVec.ofBool f.alignErr) |||
    fieldAt 6 4 (BitVec.ofBool f.protoErr) ||| fieldAt 6 5 (BitVec.ofBool f.accErr)

/-- Write-1-to-clear: each flag whose bit of `m` is 1 is cleared (spec/40_control_ops.md R102). -/
def Flags.clear (f : Flags) (m : BitVec 6) : Flags :=
  { cfgErr := f.cfgErr && !m.getLsbD 0
    unsupErr := f.unsupErr && !m.getLsbD 1
    framingErr := f.framingErr && !m.getLsbD 2
    alignErr := f.alignErr && !m.getLsbD 3
    protoErr := f.protoErr && !m.getLsbD 4
    accErr := f.accErr && !m.getLsbD 5 }

/-- `irq`: a flag that is set and enabled (spec/60_exceptions.md R207). -/
def Dev.irq (d : Dev) : Bool := (d.flags.bits &&& d.ien) != 0#6

/-! ### The checks of COMMIT (R114) -/

def Conf.modeOk (c : Conf) : Bool := c.mode == 1#4

def Conf.modeRs (c : Conf) : Bool := c.mode == 2#4

def Conf.modeBad (c : Conf) : Bool := !c.modeOk && !c.modeRs

def Conf.scrBad (c : Conf) : Bool := c.scr == 2#2 || c.scr == 3#2

def Conf.syncBad (c : Conf) : Bool := decide (Config.syncMax < c.syncLenNat)

/-- The configuration COMMIT accepts. -/
def Conf.legal (c : Conf) : Bool := c.modeOk && !c.scrBad && !c.syncBad

end Sys2Proof.Machine
end

