-- ==== Sys2Proof/Machine/Ops.lean ====
section
/-! DEFINITION. The shared operations: errors (taking one and acknowledging one), reading a control
register, the queues and their capacities, when an operation is enabled, and resets. -/

namespace Sys2Proof.Machine

open Sys2Proof

/-! ### Errors (spec/60_exceptions.md R200 to R211) -/

/-- The six errors (R200). -/
inductive Err where
  | configuration
  | unsupportedMode
  | framing
  | alignment
  | protocol
  | access
  deriving DecidableEq, Repr

/-- `raise E`: the effects R200 lists for the error and nothing else. Nothing is saved and control goes
nowhere (R209). -/
def raise (e : Err) (d : Dev) : Dev :=
  match e with
  | .configuration => d.setFlags { d.flags with cfgErr := true }
  | .unsupportedMode => d.setFlags { d.flags with unsupErr := true }
  | .framing => (d.setFlags { d.flags with framingErr := true }).setFerrcnt (satInc32 d.ferrcnt)
  | .alignment => (d.setFlags { d.flags with alignErr := true }).setLc .halt
  | .protocol => d.setFlags { d.flags with protoErr := true }
  | .access => d.setFlags { d.flags with accErr := true }

/-- The return from an error: HOST acknowledges by writing 1s to `STATUS`; only the flags change (R102,
R210). -/
def acknowledge (d : Dev) (v : Word) : Dev := d.setFlags (d.flags.clear (flagSlice v))

/-! ### The control register space (spec/20_memory.md R60, R61) -/

/-- The code of `LC` (R21). -/
def LC.code : LC → BitVec 2
  | .unconf => 0#2
  | .run => 1#2
  | .drain => 2#2
  | .halt => 3#2

/-- `STATUS.EMITTING` (R32). -/
def Dev.emitting (d : Dev) : Bool := d.fbc.phase != .idle

/-- `MemRead(a, 4)` (R100). -/
def memRead (d : Dev) (a : BitVec 4) : Word :=
  match a.toNat with
  | 0 => Config.idWord
  | 1 => 0#32
  | 2 => fieldAt 32 8 d.flags.bits ||| fieldAt 32 2 (BitVec.ofBool d.emitting) |||
           fieldAt 32 0 d.lc.code
  | 3 => fieldAt 32 8 d.ien
  | 4 => fieldAt 32 9 (BitVec.ofBool d.conf.verbose) ||| fieldAt 32 8 (BitVec.ofBool d.conf.bitord) |||
           fieldAt 32 4 d.conf.scr ||| fieldAt 32 0 d.conf.mode
  | 5 => fieldAt 32 16 d.conf.preCount ||| fieldAt 32 0 d.conf.preByte
  | 6 => fieldAt 32 0 d.conf.syncLen
  | 7 => d.conf.sync0
  | 8 => d.conf.sync1
  | 9 => d.conf.amp0
  | 10 => d.conf.amp1
  | 11 => d.ferrcnt
  | 12 => d.framecnt
  | _ => 0#32

/-! ### Queues (spec/20_memory.md R68, R69) -/

/-- The newest record of `MQ`, if it is open: `open` of R130. -/
def openMsg (q : List Msg) : Option Msg :=
  match q.getLast? with
  | some r => if r.closed then none else some r
  | none => none

/-- The newest record replaced. -/
def setLast (q : List Msg) (r : Msg) : List Msg := q.dropLast ++ [r]

/-- `used(MQ)` (R34). -/
def usedBytes (q : List Msg) : Nat := (q.map fun r => r.data.length).sum

/-- A record with `cnt = decl` (R34). -/
def Msg.good (r : Msg) : Bool := r.cnt.toNat == r.decl.toNat

/-- A fresh record (R131). -/
def Msg.fresh (n : BitVec 16) : Msg := { decl := n, data := [], cnt := 0#17, closed := false }

/-- A DATA beat counted, and stored when `cnt < decl` (R132). -/
def Msg.addByte (r : Msg) (b : Byte) : Msg :=
  { r with data := if r.cnt.toNat < r.decl.toNat then r.data ++ [b] else r.data
           cnt := satIncCnt r.cnt }

/-- `in_ready(w)`, for a beat of a kind (R130). -/
def inReady (p : Params) (d : Dev) (k : BeatKind) : Bool :=
  if d.lc = .run then
    match k with
    | .head => (openMsg d.mq).isSome || decide (d.mq.length < p.qmsgs)
    | .data =>
      match openMsg d.mq with
      | some r => if r.cnt.toNat < r.decl.toNat then decide (usedBytes d.mq < p.qbytes) else true
      | none => true
    | .msgEnd => true
    | .rsvd => true
  else false

/-! ### When an operation of FBC, BRP or CONSUMER is enabled -/

/-- `LC` is RUN or DRAIN (R150, R170, R171). -/
def Dev.moving (d : Dev) : Bool := d.lc == .run || d.lc == .drain

/-- The head record, if it is closed. -/
def closedHead (q : List Msg) : Option Msg :=
  match q with
  | [] => none
  | r :: _ => if r.closed then some r else none

/-- The guard of DROP (R151). -/
def dropEnabled (d : Dev) : Bool :=
  d.moving && d.fbc.phase == .idle &&
    match closedHead d.mq with
    | some r => !r.good
    | none => false

/-- The guard of START (R152). -/
def startEnabled (d : Dev) : Bool :=
  d.moving && d.fbc.phase == .idle &&
    match closedHead d.mq with
    | some r => r.good
    | none => false

/-- The guard of the EMIT operation of a phase (R153, R154, R155). -/
def emitEnabled (p : Params) (ph : Phase) (d : Dev) : Bool :=
  d.moving && d.fbc.phase == ph && decide (d.bch.length < p.bcap)

/-- The guard of DRAIN_DONE (R157). -/
def drainDoneEnabled (d : Dev) : Bool :=
  d.lc == .drain && d.mq.isEmpty && d.fbc.phase == .idle && d.bch.isEmpty && d.brp.cnt == 0#4 &&
    d.oq.isEmpty

/-- The guard of LOAD (R170). -/
def loadEnabled (d : Dev) : Bool := d.moving && d.brp.cnt == 0#4 && !d.bch.isEmpty

/-- The guard of SHIFT (R171). -/
def shiftEnabled (p : Params) (d : Dev) : Bool :=
  d.moving && d.brp.cnt != 0#4 && decide (d.oq.length < p.ocap)

/-! ### Outcomes -/

/-- A step that changes the device alone. -/
def toDev (s : State) (d : Dev) : Res := .next (s.setDev d)

/-- An operation that is not enabled: its agent has no step and waits; the state is unchanged and no
error is raised (R8; spec/93_implementation_defined.md U11; log 4). -/
def wait (s : State) : Res := .next s

/-- The outcome of a device operation that may meet a pseudocode step with no meaning (log 8). -/
def ofDev (s : State) (r : Except Fault Dev) : Res :=
  match r with
  | .ok d => .next (s.setDev d)
  | .error f => .fault f

/-- A refused write or command: nothing but `ACC_ERR` changes (R206). -/
def refuseAccess (s : State) : Res := toDev s (raise .access s.dev)

/-- A write to a configuration register, under the lock (R119). -/
def writeConf (s : State) (c : Conf) : Res :=
  if s.dev.lc = .unconf then toDev s (s.dev.setConf c) else refuseAccess s

/-- Hardware reset and SRST: the device at its reset values, whatever it was (R117, R230). What stands
around the device is no part of it and stays (log 10). -/
def resetDev (s : State) : State := s.setDev Dev.reset

end Sys2Proof.Machine
end

