-- ==== Sys2Proof/Machine/Control.lean ====
section
/-! DEFINITION. The operations of HOST (spec/40_control_ops.md). -/

namespace Sys2Proof.Machine

open Sys2Proof

/-- RD (R100). -/
def execRd (a : BitVec 4) (s : State) : Res := .next (s.returnRead (memRead s.dev a))

/-- WR.STATUS (R102). -/
def execWrStatus (v : Word) (s : State) : Res := toDev s (acknowledge s.dev v)

/-- WR.IEN (R103). -/
def execWrIen (v : Word) (s : State) : Res := toDev s (s.dev.setIen (flagSlice v))

/-- WR.CFG (R104). -/
def execWrCfg (v : Word) (s : State) : Res := writeConf s (s.dev.conf.writeCfg v)

/-- WR.PRE (R105). -/
def execWrPre (v : Word) (s : State) : Res := writeConf s (s.dev.conf.writePre v)

/-- WR.SYNCLEN (R106). -/
def execWrSyncLen (v : Word) (s : State) : Res := writeConf s (s.dev.conf.writeSyncLen v)

/-- WR.SYNC0 (R107). -/
def execWrSync0 (v : Word) (s : State) : Res := writeConf s (s.dev.conf.writeSync0 v)

/-- WR.SYNC1 (R108). -/
def execWrSync1 (v : Word) (s : State) : Res := writeConf s (s.dev.conf.writeSync1 v)

/-- WR.AMP0 (R109). -/
def execWrAmp0 (v : Word) (s : State) : Res := writeConf s (s.dev.conf.writeAmp0 v)

/-- WR.AMP1 (R110). -/
def execWrAmp1 (v : Word) (s : State) : Res := writeConf s (s.dev.conf.writeAmp1 v)

/-- WR.RO (R111): refused whatever the slot and the value. -/
def execWrRo (_a : BitVec 4) (_v : Word) (s : State) : Res := refuseAccess s

/-- WR.UNMAPPED (R112): refused whatever the slot and the value. -/
def execWrUnmapped (_a : BitVec 4) (_v : Word) (s : State) : Res := refuseAccess s

/-- COMMIT in UNCONF (R114): each failed check raises its error, and `LC` moves only when none fails. -/
def commitDev (d : Dev) : Dev :=
  let d1 := if d.conf.modeBad || d.conf.scrBad || d.conf.syncBad then raise .configuration d else d
  let d2 := if d.conf.modeRs then raise .unsupportedMode d1 else d1
  if d.conf.legal then d2.setLc .run else d2

/-- COMMIT (R114). -/
def execCommit (s : State) : Res :=
  if s.dev.lc = .unconf then toDev s (commitDev s.dev) else refuseAccess s

/-- STOP in RUN (R115): an open newest record goes, then `LC` is DRAIN. -/
def stopDev (d : Dev) : Dev :=
  let q := match openMsg d.mq with
    | some _ => d.mq.dropLast
    | none => d.mq
  (d.setMq q).setLc .drain

/-- STOP (R115). -/
def execStop (s : State) : Res :=
  if s.dev.lc = .run then toDev s (stopDev s.dev) else refuseAccess s

/-- ABORT in RUN or DRAIN (R116). -/
def abortDev (d : Dev) : Dev :=
  (((((d.setMq []).setBch []).setOq []).setFbc Fbc.reset).setBrp Brp.reset).setLc .halt

/-- ABORT (R116). -/
def execAbort (s : State) : Res :=
  if s.dev.moving then toDev s (abortDev s.dev) else refuseAccess s

/-- SRST (R117): never refused. -/
def execSrst (s : State) : Res := .next (resetDev s)

/-- CMD.RSVD (R118): refused whatever the code. -/
def execCmdRsvd (_code : BitVec 4) (s : State) : Res := refuseAccess s

end Sys2Proof.Machine
end

