-- ==== Sys2Proof/Machine/Framer.lean ====
section
/-! DEFINITION. The operations of FBC (spec/42_fbc_ops.md). -/

namespace Sys2Proof.Machine

open Sys2Proof

/-! ### The helpers of R156 -/

/-- Enter a phase with its byte count. -/
def enterPhase (ph : Phase) (n : BitVec 16) (d : Dev) : Dev :=
  d.setFbc { d.fbc with phase := ph, cnt := n }

/-- A finished message, `rest` the records behind it: the message is counted and FBC is idle; `FB_TAG`
keeps its value. -/
def finished (rest : List Msg) (d : Dev) : Dev :=
  ((d.setMq rest).setFramecnt (satInc32 d.framecnt)).setFbc
    { d.fbc with phase := .idle, cnt := 0#16, sof := false }

/-- `finish`: the head record leaves. -/
def finish (d : Dev) : Except Fault Dev :=
  match d.mq with
  | [] => .error .popEmpty
  | _ :: rest => .ok (finished rest d)

/-- `advance(p)`: the next phase that has a byte, or `finish`. -/
def advance (p : Phase) (d : Dev) : Except Fault Dev :=
  if p = .pre ∧ 0 < d.conf.syncLenNat then
    .ok (enterPhase .sync (BitVec.ofNat 16 d.conf.syncLenNat) d)
  else
    match d.mq with
    | [] => .error .popEmpty
    | r :: _ => if p ≠ .pay ∧ 0 < r.decl.toNat then .ok (enterPhase .pay r.decl d) else finish d

/-- The Format B item `emit(b)` pushes. -/
def emitItem (f : Fbc) (b : Byte) : BItem :=
  { byte := b, sof := f.sof, tag := if f.sof then f.tag else 0#32, width := 8 }

/-- The first lines of `emit(b)`: push, clear `FB_SOF`, count. -/
def pushByte (b : Byte) (d : Dev) : Dev :=
  (d.setBch (d.bch ++ [emitItem d.fbc b])).setFbc { d.fbc with sof := false, cnt := decCnt d.fbc.cnt }

/-- `emit(b)`: push and count, then advance when the phase has no byte left. -/
def emit (b : Byte) (d : Dev) : Except Fault Dev :=
  if (pushByte b d).fbc.cnt = 0#16 then advance d.fbc.phase (pushByte b d) else .ok (pushByte b d)

/-! ### The operations -/

/-- DROP, enabled (R151). -/
def dropDev (d : Dev) : Dev := raise .framing (d.setMq d.mq.tail)

/-- DROP (R151). -/
def execDrop (s : State) : Res :=
  if dropEnabled s.dev then toDev s (dropDev s.dev) else wait s

/-- START of the message `r` (R152). -/
def startDev (r : Msg) (d : Dev) : Except Fault Dev :=
  let d1 := d.setFbc { d.fbc with sof := true, tag := d.conf.tagFor r.decl }
  if 0 < d.conf.preLen then .ok (enterPhase .pre d.conf.preCount d1) else advance .pre d1

/-- START (R152). -/
def execStart (s : State) : Res :=
  if startEnabled s.dev then
    match s.dev.mq with
    | [] => .fault .popEmpty
    | r :: _ => ofDev s (startDev r s.dev)
  else wait s

/-- EMIT_PRE (R153). -/
def execEmitPre (s : State) : Res :=
  if emitEnabled s.env.params .pre s.dev then ofDev s (emit s.dev.conf.preByte s.dev) else wait s

/-- EMIT_SYNC, enabled (R154): the byte of index `S - FB_CNT`. -/
def emitSyncDev (d : Dev) : Except Fault Dev :=
  if d.fbc.cnt.toNat ≤ d.conf.syncLenNat ∧ d.conf.syncLenNat - d.fbc.cnt.toNat < Config.syncMax then
    emit (d.conf.syncbyte (d.conf.syncLenNat - d.fbc.cnt.toNat)) d
  else .error .syncIndex

/-- EMIT_SYNC (R154). -/
def execEmitSync (s : State) : Res :=
  if emitEnabled s.env.params .sync s.dev then ofDev s (emitSyncDev s.dev) else wait s

/-- EMIT_PAY, enabled (R155): the oldest stored byte of the head record is popped and emitted. -/
def emitPayDev (d : Dev) : Except Fault Dev :=
  match d.mq with
  | [] => .error .popEmpty
  | r :: rest =>
    match r.data with
    | [] => .error .popEmpty
    | b :: bs => emit b (d.setMq ({ r with data := bs } :: rest))

/-- EMIT_PAY (R155). -/
def execEmitPay (s : State) : Res :=
  if emitEnabled s.env.params .pay s.dev then ofDev s (emitPayDev s.dev) else wait s

/-- DRAIN_DONE (R157). -/
def execDrainDone (s : State) : Res :=
  if drainDoneEnabled s.dev then toDev s (s.dev.setLc .halt) else wait s

end Sys2Proof.Machine
end

