-- ==== Sys2Proof/Machine/Ingress.lean ====
section
/-! DEFINITION. The operations of PRODUCER (spec/41_ingress_ops.md): each is a step only while
`in_ready` of its kind is 1 (R130). -/

namespace Sys2Proof.Machine

open Sys2Proof

/-- An accepted HEAD (R131). -/
def headDev (n : BitVec 16) (d : Dev) : Dev :=
  match openMsg d.mq with
  | some _ => raise .protocol d
  | none => d.setMq (d.mq ++ [Msg.fresh n])

/-- HEAD (R131). -/
def execHead (n : BitVec 16) (s : State) : Res :=
  if inReady s.env.params s.dev .head then toDev s (headDev n s.dev) else wait s

/-- An accepted DATA (R132). -/
def dataDev (b : Byte) (d : Dev) : Dev :=
  match openMsg d.mq with
  | some r => d.setMq (setLast d.mq (r.addByte b))
  | none => raise .protocol d

/-- DATA (R132). -/
def execData (b : Byte) (s : State) : Res :=
  if inReady s.env.params s.dev .data then toDev s (dataDev b s.dev) else wait s

/-- An accepted END (R133): the message arrives. -/
def endDev (d : Dev) : Dev :=
  match openMsg d.mq with
  | some r => d.setMq (setLast d.mq { r with closed := true })
  | none => raise .protocol d

/-- END (R133). -/
def execMsgEnd (s : State) : Res :=
  if inReady s.env.params s.dev .msgEnd then toDev s (endDev s.dev) else wait s

/-- RSVD (R134). -/
def execRsvd (s : State) : Res :=
  if inReady s.env.params s.dev .rsvd then toDev s (raise .protocol s.dev) else wait s

end Sys2Proof.Machine
end

