-- ==== Sys2Proof/Machine/Repacker.lean ====
section
/-! DEFINITION. The operations of BRP (spec/43_brp_ops.md) and of SMP and CONSUMER
(spec/44_smp_ops.md). -/

namespace Sys2Proof.Machine

open Sys2Proof

/-- LOAD, enabled (R170): the oldest item is taken if it is a whole byte; an item that is not stays
where it is and raises AlignmentError (R173, R204). -/
def loadDev (d : Dev) : Dev :=
  match d.bch with
  | [] => d
  | x :: rest =>
    if x.width = 8 then
      (d.setBch rest).setBrp { byte := x.byte, cnt := 8#4, sof := x.sof, tag := x.tag }
    else raise .alignment d

/-- LOAD (R170). -/
def execLoad (s : State) : Res :=
  if loadEnabled s.dev then toDev s (loadDev s.dev) else wait s

/-- The Format S item of the bit of index `i` (R171). -/
def shiftItem (d : Dev) (i : Nat) : SItem :=
  { sym := d.conf.mapBit (bitsel d.brp.byte i d.conf.bitord), sof := d.brp.sof,
    tag := if d.brp.sof then d.brp.tag else 0#32 }

/-- SHIFT, enabled (R171): the bit of index `8 - BR_CNT`. -/
def shiftDev (d : Dev) : Except Fault Dev :=
  if d.brp.cnt.toNat ≤ 8 then
    .ok ((d.setOq (d.oq ++ [shiftItem d (8 - d.brp.cnt.toNat)])).setBrp
      { d.brp with sof := false, cnt := decCnt d.brp.cnt })
  else .error .bitIndex

/-- SHIFT (R171). -/
def execShift (s : State) : Res :=
  if shiftEnabled s.env.params s.dev then ofDev s (shiftDev s.dev) else wait s

/-- MAP on its own (R180; log 6): it returns a word and changes nothing of the device. -/
def execMap (bit : Bool) (s : State) : Res := .next (s.returnMap (s.dev.conf.mapBit bit))

/-- POP (R181): the oldest item goes to CONSUMER, in every lifecycle state. -/
def execPop (s : State) : Res :=
  match s.dev.oq with
  | [] => wait s
  | x :: rest => .next ((s.setDev (s.dev.setOq rest)).deliver x)

end Sys2Proof.Machine
end

