-- ==== Sys2Proof/Machine/Dispatch.lean ====
section
/-! DEFINITION. One arm for each operation. -/

namespace Sys2Proof.Machine

open Sys2Proof

def exec (i : Instr) (s : State) : Host.Outcome State Fault Refusal :=
  match i with
  | .rd a => Sys2Proof.Machine.execRd a s
  | .wrStatus v => Sys2Proof.Machine.execWrStatus v s
  | .wrIen v => Sys2Proof.Machine.execWrIen v s
  | .wrCfg v => Sys2Proof.Machine.execWrCfg v s
  | .wrPre v => Sys2Proof.Machine.execWrPre v s
  | .wrSyncLen v => Sys2Proof.Machine.execWrSyncLen v s
  | .wrSync0 v => Sys2Proof.Machine.execWrSync0 v s
  | .wrSync1 v => Sys2Proof.Machine.execWrSync1 v s
  | .wrAmp0 v => Sys2Proof.Machine.execWrAmp0 v s
  | .wrAmp1 v => Sys2Proof.Machine.execWrAmp1 v s
  | .wrRo a v => Sys2Proof.Machine.execWrRo a v s
  | .wrUnmapped a v => Sys2Proof.Machine.execWrUnmapped a v s
  | .commit => Sys2Proof.Machine.execCommit s
  | .stop => Sys2Proof.Machine.execStop s
  | .abort => Sys2Proof.Machine.execAbort s
  | .srst => Sys2Proof.Machine.execSrst s
  | .cmdRsvd code => Sys2Proof.Machine.execCmdRsvd code s
  | .head n => Sys2Proof.Machine.execHead n s
  | .data b => Sys2Proof.Machine.execData b s
  | .msgEnd => Sys2Proof.Machine.execMsgEnd s
  | .rsvd => Sys2Proof.Machine.execRsvd s
  | .drop => Sys2Proof.Machine.execDrop s
  | .start => Sys2Proof.Machine.execStart s
  | .emitPre => Sys2Proof.Machine.execEmitPre s
  | .emitSync => Sys2Proof.Machine.execEmitSync s
  | .emitPay => Sys2Proof.Machine.execEmitPay s
  | .drainDone => Sys2Proof.Machine.execDrainDone s
  | .load => Sys2Proof.Machine.execLoad s
  | .shift => Sys2Proof.Machine.execShift s
  | .map bit => Sys2Proof.Machine.execMap bit s
  | .pop => Sys2Proof.Machine.execPop s

end Sys2Proof.Machine
end

