-- ==== Sys2Proof/Machine/Fetch.lean ====
section
/-! DEFINITION. What comes next: whose turn it is, and the operation that agent performs
(spec/00_scope.md R7, R8; spec/10_state.md R39). -/

namespace Sys2Proof.Machine

open Sys2Proof

/-- The next turn: the schedule's, or a free value where the schedule has run out (log 1). -/
def State.nextTurn (s : State) : Turn :=
  match s.env.schedule with
  | t :: _ => t
  | [] => Config.freeTurn s.env.turnNo

/-- FBC's enabled operation, if it has one (R150). -/
def fbcOp (p : Params) (d : Dev) : Option Instr :=
  if dropEnabled d then some .drop
  else if startEnabled d then some .start
  else if emitEnabled p .pre d then some .emitPre
  else if emitEnabled p .sync d then some .emitSync
  else if emitEnabled p .pay d then some .emitPay
  else if drainDoneEnabled d then some .drainDone
  else none

/-- BRP's enabled operation, if it has one (R170). -/
def brpOp (p : Params) (d : Dev) : Option Instr :=
  if loadEnabled d then some .load
  else if shiftEnabled p d then some .shift
  else none

/-- CONSUMER's: POP while `out_valid` is 1 (R181). -/
def consumerOp (d : Dev) : Option Instr :=
  if d.oq.isEmpty then none else some .pop

/-- What a turn comes to. -/
inductive Fetched where
  /-- The agent has no enabled operation and waits. -/
  | wait
  /-- The reset pin is asserted. -/
  | reset
  /-- The agent performs `i`, from the state `s` (its port word taken off the queue). -/
  | run (i : Instr) (s : State)
  deriving DecidableEq, Repr

/-- HOST performs its next transaction; it waits only when it has none (R101, R246). -/
def fetchHost (s : State) : Fetched :=
  match s.env.hostQ with
  | [] => .wait
  | w :: ws => .run (decodeCtl w) (s.setHostQ ws)

/-- PRODUCER's next beat is accepted exactly when `in_ready` of it is 1; otherwise it stays at the head
of the queue, neither lost nor changed (R130). -/
def fetchProducer (s : State) : Fetched :=
  match s.env.beatQ with
  | [] => .wait
  | w :: ws =>
    if inReady s.env.params s.dev (beatKind w) then .run (decodeBeat w) (s.setBeatQ ws) else .wait

/-- An operation that no word selects. -/
def fetchSelected (o : Option Instr) (s : State) : Fetched :=
  match o with
  | some i => .run i s
  | none => .wait

def fetch (t : Turn) (s : State) : Fetched :=
  match t with
  | .host => fetchHost s
  | .producer => fetchProducer s
  | .fbc => fetchSelected (fbcOp s.env.params s.dev) s
  | .brp => fetchSelected (brpOp s.env.params s.dev) s
  | .consumer => fetchSelected (consumerOp s.dev) s
  | .rst => .reset

/-- A device that accepts a beat of the kind: as it is if it does, else constructed under the stored
configuration with an empty `MQ` and an idle FBC (log 2). -/
def openedFor (p : Params) (k : BeatKind) (d : Dev) : Dev :=
  if inReady p d k then d else ((d.setLc .run).setMq []).setFbc Fbc.reset

/-- The turn `t` put before the schedule. -/
def State.giveTurn (s : State) (t : Turn) : State :=
  { s with env := { s.env with schedule := t :: s.env.schedule } }

/-- A port word placed where the next step takes it from: its port's queue, with the turn given to that
port's agent; a beat also finds the ingress ready for it (log 2). -/
def State.placeWord (s : State) (w : PortWord) : State :=
  match w with
  | .ctl w => (s.setHostQ (w :: s.env.hostQ)).giveTurn .host
  | .beat w =>
    ((s.setDev (openedFor s.env.params (beatKind w) s.dev)).setBeatQ (w :: s.env.beatQ)).giveTurn
      .producer

end Sys2Proof.Machine
end

