-- ==== Sys2Proof/Machine/Step.lean ====
section
/-! DEFINITION. One step: one turn of one agent (spec/00_scope.md R8; spec/20_memory.md R70). -/

namespace Sys2Proof.Machine

open Sys2Proof

/-- The next turn is taken: the reset pin resets the device, an agent with no enabled operation waits,
and any other agent performs its operation. -/
def step (s : State) : Host.Outcome State Fault Refusal :=
  match fetch s.nextTurn s.takeTurn with
  | .wait => wait s.takeTurn
  | .reset => .next (resetDev s.takeTurn)
  | .run i t => exec i t

/-- The state with the word placed so that the next step performs its operation (log 2); bits that are no
port word place nothing. -/
def State.withFetchWord (s : State) (nbits w : Nat) : State :=
  match portWord nbits w with
  | .ok p => s.placeWord p
  | .error _ => s

end Sys2Proof.Machine
end

