-- ==== Sys2Proof/Machine/Run.lean ====
section
/-! DEFINITION. Runs without end, whatever the order of the agents and whatever HOST and PRODUCER send,
and weak fairness (spec/00_scope.md R8; spec/70_reset_and_hazards.md R241). A run is a sequence of states
and no part of State (log 18). -/

namespace Sys2Proof.Machine

open Sys2Proof

/-- HOST and PRODUCER have more to send: new words go behind those still waiting (spec/10_state.md R44;
spec/70_reset_and_hazards.md R246). -/
def State.offer (s : State) (ws : List (BitVec 37)) (bs : List (BitVec 18)) : State :=
  (s.setHostQ (s.env.hostQ ++ ws)).setBeatQ (s.env.beatQ ++ bs)

/-- The step of the agent `t`, or of the reset pin: any of them may be the next to step (R8). -/
def stepOf (t : Turn) (s : State) : Res := step (s.giveTurn t)

/-- The operation an agent has enabled, if it has one (R8); the reset pin has none. -/
def State.enabledOp (t : Turn) (s : State) : Option Instr :=
  match fetch t s with
  | .run i _ => some i
  | .wait => none
  | .reset => none

/-- The states `σ 0`, `σ 1`, ... are a run in which the step from `σ n` is that of `turns n`; between two
steps HOST and PRODUCER may have more to send. -/
def IsRun (turns : Nat → Turn) (σ : Nat → State) : Prop :=
  ∀ n, ∃ u ws bs, stepOf (turns n) (σ n) = .next u ∧ σ (n + 1) = u.offer ws bs

/-- Weak fairness to an agent: "an operation that stays enabled is eventually taken" (R241). An agent has
at most one enabled operation, so its turn takes it. -/
def WeaklyFair (turns : Nat → Turn) (σ : Nat → State) (t : Turn) : Prop :=
  ∀ n i, (∀ m, n ≤ m → (σ m).enabledOp t = some i) → ∃ m, n ≤ m ∧ turns m = t

/-- The step of `t` cuts the egress short: an ABORT, an SRST or the reset pin (R116, R117, R230). -/
def State.cutBy (t : Turn) (s : State) : Prop :=
  t = .rst ∨ s.enabledOp t = some .abort ∨ s.enabledOp t = some .srst

/-- FBC takes up the head record of `MQ`: it drops it or starts to emit it (R151, R152). -/
def State.takesUp (t : Turn) (s : State) : Bool :=
  t == .fbc && (s.enabledOp t == some .drop || s.enabledOp t == some .start)

/-- How many records FBC takes up from `σ n` on and before `σ m`. -/
def takenUp (turns : Nat → Turn) (σ : Nat → State) (n m : Nat) : Nat :=
  (List.range' n (m - n)).countP fun k => (σ k).takesUp (turns k)

end Sys2Proof.Machine
end

