-- ==== Sys2Proof/Machine/Pins.lean ====
section
/-! DEFINITION. The output pins, pure functions of the state (spec/10_state.md R40; the selectors of
the external codec, spec/40_control_ops.md R120). `irq` is Dev.irq, `in_ready` is inReady. -/

namespace Sys2Proof.Machine

open Sys2Proof

/-- `out_valid`. -/
def Dev.outValid (d : Dev) : Bool := !d.oq.isEmpty

/-- A Format S word as an item: `sof` 64, `tag` 63:32, `sym` 31:0 (R84). -/
def SItem.ofWord (w : BitVec 65) : SItem :=
  { sym := w.extractLsb' 0 32, sof := w.getLsbD 64, tag := w.extractLsb' 32 32 }

/-- An item as a Format S word (R84). -/
def SItem.word (x : SItem) : BitVec 65 :=
  fieldAt 65 64 (BitVec.ofBool x.sof) ||| fieldAt 65 32 x.tag ||| fieldAt 65 0 x.sym

/-- A BCH item as a Format B word: `sof` 40, `tag` 39:8, `byte` 7:0 (R83). -/
def BItem.word (x : BItem) : BitVec 41 :=
  fieldAt 41 40 (BitVec.ofBool x.sof) ||| fieldAt 41 8 x.tag ||| fieldAt 41 0 x.byte

/-- `out_sym`, `out_sof`, `out_tag`: the oldest item, and a free value while there is none (log 9). -/
def State.outItem (s : State) : SItem :=
  match s.dev.oq with
  | x :: _ => x
  | [] => SItem.ofWord (Config.freeOutWord s.env.turnNo)

/-- `fec_en`. -/
def Dev.fecEn (d : Dev) : Bool := d.lc == .run

/-- `fec_mode`. -/
def Dev.fecMode (d : Dev) : BitVec 4 := d.conf.mode

/-- `fec_scr`. -/
def Dev.fecScr (d : Dev) : BitVec 2 := d.conf.scr

/-- `fec_verbose`. -/
def Dev.fecVerbose (d : Dev) : Bool := d.conf.verbose

end Sys2Proof.Machine
end

