-- ==== Sys2Proof/Safety.lean ====
section
/-! DEFINITION. The terms claims are stated in: the invariant of spec/10_state.md R43, the symbol
stream of spec/44_smp_ops.md R182, quiescence (spec/70_reset_and_hazards.md R244) and the work left. -/

namespace Sys2Proof

/-- The turns of the agents that move data towards the egress. -/
def Turn.internal : Turn → Bool
  | .fbc => true
  | .brp => true
  | .consumer => true
  | .host => false
  | .producer => false
  | .rst => false

end Sys2Proof

namespace Sys2Proof.Machine

open Sys2Proof

/-! ### The bytes and symbols of a message -/

/-- `syncbyte(0)` to `syncbyte(S - 1)` (R27). -/
def Conf.syncBytes (c : Conf) : List Byte := (List.range c.syncLenNat).map c.syncbyte

/-- The Framed Message of a payload: preamble, syncword, payload (spec/42_fbc_ops.md R159). -/
def Conf.frameBytes (c : Conf) (payload : List Byte) : List Byte :=
  (List.replicate c.preLen c.preByte ++ c.syncBytes) ++ payload

/-- The last `k` symbols of a byte, `k` at most 8: the bits of index `8 - k` to 7, the sideband on the
first of them (R171). -/
def symbolsFrom (c : Conf) (b : Byte) : Nat → Bool → Word → List SItem
  | 0, _, _ => []
  | k + 1, sof, tag =>
    { sym := c.mapBit (bitsel b (7 - k) c.bitord), sof := sof, tag := if sof then tag else 0#32 } ::
      symbolsFrom c b k false tag

/-- Bytes as byte-channel items, the sideband on the first (R156, R161). -/
def tagged : Bool → Word → List Byte → List BItem
  | _, _, [] => []
  | sof, tag, b :: bs =>
    { byte := b, sof := sof, tag := if sof then tag else 0#32, width := 8 } :: tagged false tag bs

/-- The symbols of byte-channel items. -/
def itemSymbols (c : Conf) (xs : List BItem) : List SItem :=
  xs.flatMap fun x => symbolsFrom c x.byte 8 x.sof x.tag

/-- The egress items of one good message (R182). -/
def Conf.frameItems (c : Conf) (payload : List Byte) : List SItem :=
  itemSymbols c
    (tagged true (BitVec.ofNat 32 (c.preLen + c.syncLenNat + payload.length)) (c.frameBytes payload))

/-! ### What a device still owes the egress -/

/-- The payload left in the head record. -/
def headData (q : List Msg) : List Byte :=
  match q with
  | [] => []
  | r :: _ => r.data

/-- The bytes FBC has still to push for the message it is emitting. -/
def restBytes (d : Dev) : List Byte :=
  match d.fbc.phase with
  | .idle => []
  | .pre => (List.replicate d.fbc.cnt.toNat d.conf.preByte ++ d.conf.syncBytes) ++ headData d.mq
  | .sync => d.conf.syncBytes.drop (d.conf.syncLenNat - d.fbc.cnt.toNat) ++ headData d.mq
  | .pay => headData d.mq

/-- The records FBC has not begun. -/
def waiting (d : Dev) : List Msg :=
  match d.fbc.phase with
  | .idle => d.mq
  | .pre => d.mq.tail
  | .sync => d.mq.tail
  | .pay => d.mq.tail

/-- The egress items of the good messages among some records; an open record has not arrived and a bad
one contributes nothing (R182). -/
def goodItems (c : Conf) (q : List Msg) : List SItem :=
  (q.filter fun r => r.closed && r.good).flatMap fun r => c.frameItems r.data

/-- The items CONSUMER would still receive, in order, if nothing but FBC, BRP and CONSUMER stepped. -/
def pending (d : Dev) : List SItem :=
  (((d.oq ++ symbolsFrom d.conf d.brp.byte d.brp.cnt.toNat d.brp.sof d.brp.tag) ++
    itemSymbols d.conf d.bch) ++
    itemSymbols d.conf (tagged d.fbc.sof d.fbc.tag (restBytes d))) ++
    goodItems d.conf (waiting d)

/-- Delivered and still owed: the whole egress of the messages that have arrived. -/
def State.stream (s : State) : List SItem := s.env.delivered ++ pending s.dev

/-! ### The invariant (R43, and what makes it inductive) -/

/-- The device holds nothing in flight. -/
def Dev.empty (d : Dev) : Prop :=
  d.mq = [] ∧ d.bch = [] ∧ d.oq = [] ∧ d.fbc.phase = .idle ∧ d.brp.cnt = 0#4

structure Dev.Inv (p : Params) (d : Dev) : Prop where
  /-- R5: the size parameters are in range. -/
  sizes : p.legal = true
  /-- R43 (a), R35. -/
  idle_iff : d.fbc.phase = .idle ↔ d.fbc.cnt = 0#16
  /-- R43 (b); while the prefix goes out the payload is whole, and the tag is `P + S + L`. -/
  head_good : d.fbc.phase ≠ .idle → ∃ r rest, d.mq = r :: rest ∧ r.closed = true ∧ r.good = true ∧
    (d.fbc.phase ≠ .pay → r.data.length = r.decl.toNat) ∧ d.fbc.tag = d.conf.tagFor r.decl
  /-- R43 (c). -/
  pay_left : d.fbc.phase = .pay → (headData d.mq).length = d.fbc.cnt.toNat
  /-- R13 (e): the count of a phase is at most what it was loaded with. -/
  pre_left : d.fbc.phase = .pre → d.fbc.cnt.toNat ≤ d.conf.preLen
  sync_left : d.fbc.phase = .sync → d.fbc.cnt.toNat ≤ d.conf.syncLenNat
  /-- R34: what a record not being emitted stores, and the range of `cnt`. -/
  stored : ∀ r ∈ waiting d, r.data.length = min r.cnt.toNat r.decl.toNat
  counted : ∀ r ∈ d.mq, r.cnt.toNat ≤ Config.cntMax
  /-- R43 (d). -/
  one_open : ∀ r ∈ d.mq.dropLast, r.closed = true
  all_closed : d.lc ≠ .run → ∀ r ∈ d.mq, r.closed = true
  /-- R43 (e). -/
  mq_len : d.mq.length ≤ p.qmsgs
  mq_used : usedBytes d.mq ≤ p.qbytes
  bch_len : d.bch.length ≤ p.bcap
  oq_len : d.oq.length ≤ p.ocap
  bits_left : d.brp.cnt.toNat ≤ 8
  /-- R43 (f); in HALT nothing is in flight either (R116, R157). -/
  still_empty : d.lc = .unconf ∨ d.lc = .halt → d.empty
  /-- R43 (g), R173: every item is a whole byte and AlignmentError is never raised. -/
  whole : ∀ x ∈ d.bch, x.width = 8
  aligned : d.flags.alignErr = false
  /-- R72: a configuration in use is one COMMIT accepted. -/
  accepted : d.lc ≠ .unconf → d.conf.legal = true
  /-- R36, R38, R161: no tag without its start-of-frame bit, and none pending between messages. -/
  bch_tags : ∀ x ∈ d.bch, x.sof = false → x.tag = 0#32
  oq_tags : ∀ x ∈ d.oq, x.sof = false → x.tag = 0#32
  sof_idle : d.fbc.phase = .idle → d.fbc.sof = false

/-- The invariant of a state: the device's, at the state's sizes. -/
def State.Inv (s : State) : Prop := s.dev.Inv s.env.params

/-! ### Progress -/

/-- FBC, BRP or CONSUMER has an enabled operation. -/
def State.canMove (s : State) : Bool :=
  (fbcOp s.env.params s.dev).isSome || (brpOp s.env.params s.dev).isSome || (consumerOp s.dev).isSome

/-- R244 (b): constructed, PRODUCER has no more beats, no record at all, nothing in flight. -/
def State.quiescent (s : State) : Prop := s.dev.lc = .run ∧ s.env.beatQ = [] ∧ s.dev.empty

/-- A state with `CFG.VERBOSE` replaced (R215). -/
def State.withVerbose (b : Bool) (s : State) : State :=
  { s with dev := { s.dev with conf := { s.dev.conf with verbose := b } } }

/-- What one record costs: one DROP, or one START and eighteen for each byte of its Framed Message. -/
def recordWork (c : Conf) (r : Msg) : Nat :=
  if r.closed then (if r.good then 1 + 18 * (c.preLen + c.syncLenNat + r.decl.toNat) else 1) else 0

/-- A bound on the internal operations still to come: every one of them takes at least 1 from it. -/
def Dev.work (d : Dev) : Nat :=
  d.oq.length + 2 * d.brp.cnt.toNat + 17 * d.bch.length + 18 * (restBytes d).length +
    ((waiting d).map (recordWork d.conf)).sum + (d.lc == .drain).toNat

end Sys2Proof.Machine
end

