-- ==== Sys2Proof/Certificates/Slice0/Obligations.lean ====
section
/-! DEFINITION. The statements for the provers. `s` is the state before, `t` the state after; a
statement that gives `t` as an update of `s` says with it that every field it does not name is
unchanged (the frame): there is no memory but the registers and queues of the state. -/

open Sys2Proof Sys2Proof.Machine

/-! ### Encoding -/

/-- Every operation that a port word selects is what its own word decodes to, with every operand at every
value the formats admit; the ten others have no word (R81, R82, R90, R96). -/
def Obligations.EncodedOperationDecodesToItself : Prop :=
  ∀ i : Instr, i.wf = true →
    (i.portSelected = true → ∃ w, encode i = some w ∧ decode w = i) ∧
    (i.portSelected = false → encode i = none)

/-- The match and mask columns of spec/opcode_table.json select exactly one row for every word of either
port, and the decoder answers with that row's operation (R91, R96). -/
def Obligations.EveryPortWordSelectsExactlyOneRow : Prop :=
  (∀ w : BitVec 37,
    (ctlRows.filter fun r => r.selects w.toNat).map TableRow.mnemonic = [(decodeCtl w).mnemonic]) ∧
  (∀ w : BitVec 18,
    (beatRows.filter fun r => r.selects w.toNat).map TableRow.mnemonic = [(decodeBeat w).mnemonic])

/-- Decoding drops only the bits the formats call ignored: encoding again gives every other bit back
(R81, R82, R91 (f), R113). -/
def Obligations.DecodingDropsOnlyIgnoredBits : Prop :=
  (∀ w : BitVec 37,
    (decodeCtl w).wf = true ∧ (decodeCtl w).portSelected = true ∧
    encode (decodeCtl w) = some (.ctl
      (if ctlWe w = false then w &&& 0x1F00000000#37
       else if ctlIndex w = 1#4 then w &&& 0x1F0000000F#37 else w))) ∧
  (∀ w : BitVec 18,
    (decodeBeat w).wf = true ∧ (decodeBeat w).portSelected = true ∧
    encode (decodeBeat w) = some (.beat
      (match beatKind w with
        | .head => w
        | .data => w &&& 0x300FF#18
        | .msgEnd => w &&& 0x30000#18
        | .rsvd => w &&& 0x30000#18)))

/-- Words written out in spec/95_test_vectors.md decode to the operations they stand for (P1 to P6, V-C5,
V-I1). That 37 bits are given as 40 and 18 as 24, and that a bit above the format and a width that is no
format are rejected (the last three clauses), are the model's choice (log 13). -/
def Obligations.WordsOfTheTestVectorsDecode : Prop :=
  decodeTableWord 40 0x0C00000000 = some (.rd 12#4) ∧
  decodeTableWord 40 0x1200000400 = some (.wrStatus 0x400#32) ∧
  decodeTableWord 40 0x1400000101 = some (.wrCfg 0x101#32) ∧
  decodeTableWord 40 0x1500020055 = some (.wrPre 0x00020055#32) ∧
  decodeTableWord 40 0x171ACF0000 = some (.wrSync0 0x1ACF0000#32) ∧
  decodeTableWord 40 0x1C00000000 = some (.wrRo 12#4 0#32) ∧
  decodeTableWord 40 0x1D00000001 = some (.wrUnmapped 13#4 1#32) ∧
  decodeTableWord 40 0x11000000F1 = some .commit ∧
  decodeTableWord 40 0x1100000003 = some .abort ∧
  decodeTableWord 40 0x1100000007 = some (.cmdRsvd 7#4) ∧
  decodeTableWord 24 0x2000A = some (.head 10#16) ∧
  decodeTableWord 24 0x0FFA6 = some (.data 0xA6#8) ∧
  decodeTableWord 24 0x1FFFF = some .msgEnd ∧
  decodeTableWord 24 0x30000 = some .rsvd ∧
  decodeTableWord 40 0x2000000000 = none ∧
  decodeTableWord 24 0x40000 = none ∧
  decodeTableWord 16 0 = none

/-! ### A step -/

/-- A step performs the operation of the agent whose turn it is: the decoded transaction of HOST, the
decoded beat of PRODUCER when it is accepted, the enabled operation of FBC, BRP or CONSUMER. The turn is
used and the port word leaves its queue; nothing else is done around `exec` (R7, R8; log 1, log 2). -/
def Obligations.StepPerformsTheDecodedOperation : Prop :=
  ∀ s : State,
    (∀ w ws, s.nextTurn = .host → s.env.hostQ = w :: ws →
      step s = exec (decodeCtl w) (s.takeTurn.setHostQ ws)) ∧
    (∀ w ws, s.nextTurn = .producer → s.env.beatQ = w :: ws →
      inReady s.env.params s.dev (beatKind w) = true →
      step s = exec (decodeBeat w) (s.takeTurn.setBeatQ ws)) ∧
    (∀ i, s.nextTurn = .fbc → fbcOp s.env.params s.dev = some i → step s = exec i s.takeTurn) ∧
    (∀ i, s.nextTurn = .brp → brpOp s.env.params s.dev = some i → step s = exec i s.takeTurn) ∧
    (s.nextTurn = .consumer → s.dev.oq ≠ [] → step s = exec .pop s.takeTurn)

/-- An agent with no enabled operation waits: its turn changes nothing of the device and no queue of
words; a beat that is not accepted stays at the head of PRODUCER's queue (R8, R130, U11; that waiting
uses up a turn is the model's choice, log 4). -/
def Obligations.WaitingAgentChangesNothing : Prop :=
  ∀ s : State,
    (s.nextTurn = .host → s.env.hostQ = [] → step s = .next s.takeTurn) ∧
    (s.nextTurn = .producer → s.env.beatQ = [] → step s = .next s.takeTurn) ∧
    (∀ w ws, s.nextTurn = .producer → s.env.beatQ = w :: ws →
      inReady s.env.params s.dev (beatKind w) = false → step s = .next s.takeTurn) ∧
    (s.nextTurn = .fbc → fbcOp s.env.params s.dev = none → step s = .next s.takeTurn) ∧
    (s.nextTurn = .brp → brpOp s.env.params s.dev = none → step s = .next s.takeTurn) ∧
    (s.nextTurn = .consumer → s.dev.oq = [] → step s = .next s.takeTurn) ∧
    s.takeTurn.dev = s.dev ∧ s.takeTurn.env.hostQ = s.env.hostQ ∧ s.takeTurn.env.beatQ = s.env.beatQ ∧
    s.takeTurn.env.reads = s.env.reads ∧ s.takeTurn.env.delivered = s.env.delivered ∧
    s.takeTurn.env.params = s.env.params

/-- A word placed by `withFetchWord` is what the very next step performs: a Format C word on the device
as it is, a Format I word on a device whose ingress is ready for it (log 2). The second clause is the
model's choice. -/
def Obligations.PlacedWordIsPerformedNext : Prop :=
  ∀ (s : State) (w : Nat),
    (w < 2 ^ 37 →
      step (s.withFetchWord 40 w) = exec (decodeCtl (BitVec.ofNat 37 w))
        { s with env := { s.env with turnNo := s.env.turnNo + 1 } }) ∧
    (w < 2 ^ 18 → s.env.params.legal = true →
      step (s.withFetchWord 24 w) = exec (decodeBeat (BitVec.ofNat 18 w))
        { dev := openedFor s.env.params (beatKind (BitVec.ofNat 18 w)) s.dev
          env := { s.env with turnNo := s.env.turnNo + 1 } })

/-! ### The control port -/

/-- RD of each slot hands HOST the value of R100, its fields at the positions of R85 and every reserved
bit 0, in every lifecycle state; nothing of the device changes. -/
def Obligations.ReadReturnsTheSlot : Prop :=
  ∀ (a : BitVec 4) (s : State), ∃ v : Word,
    exec (.rd a) s = .next { s with env := { s.env with reads := s.env.reads ++ [v] } } ∧
    (a = 0#4 → v = 0x46424331#32) ∧
    (a = 1#4 → v = 0#32) ∧
    (a = 2#4 → v.toNat =
      (match s.dev.lc with | .unconf => 0 | .run => 1 | .drain => 2 | .halt => 3) +
      (if s.dev.fbc.phase = .idle then 0 else 2 ^ 2) +
      2 ^ 8 * s.dev.flags.cfgErr.toNat + 2 ^ 9 * s.dev.flags.unsupErr.toNat +
      2 ^ 10 * s.dev.flags.framingErr.toNat + 2 ^ 11 * s.dev.flags.alignErr.toNat +
      2 ^ 12 * s.dev.flags.protoErr.toNat + 2 ^ 13 * s.dev.flags.accErr.toNat) ∧
    (a = 3#4 → v.toNat = 2 ^ 8 * s.dev.ien.toNat) ∧
    (a = 4#4 → v.toNat = s.dev.conf.mode.toNat + 2 ^ 4 * s.dev.conf.scr.toNat +
      2 ^ 8 * s.dev.conf.bitord.toNat + 2 ^ 9 * s.dev.conf.verbose.toNat) ∧
    (a = 5#4 → v.toNat = s.dev.conf.preByte.toNat + 2 ^ 16 * s.dev.conf.preCount.toNat) ∧
    (a = 6#4 → v.toNat = s.dev.conf.syncLen.toNat) ∧
    (a = 7#4 → v = s.dev.conf.sync0) ∧
    (a = 8#4 → v = s.dev.conf.sync1) ∧
    (a = 9#4 → v = s.dev.conf.amp0) ∧
    (a = 10#4 → v = s.dev.conf.amp1) ∧
    (a = 11#4 → v = s.dev.ferrcnt) ∧
    (a = 12#4 → v = s.dev.framecnt) ∧
    (13 ≤ a.toNat → v = 0#32)

/-- WR STATUS clears each flag whose bit is written 1 and touches nothing else (R102, R210); WR IEN stores
bits 13:8 and nothing else (R103); both in every lifecycle state. -/
def Obligations.StatusAndIenWritesTouchNothingElse : Prop :=
  (∀ (v : Word) (s : State), exec (.wrStatus v) s = .next { s with dev := { s.dev with flags :=
    { cfgErr := s.dev.flags.cfgErr && !v.getLsbD 8
      unsupErr := s.dev.flags.unsupErr && !v.getLsbD 9
      framingErr := s.dev.flags.framingErr && !v.getLsbD 10
      alignErr := s.dev.flags.alignErr && !v.getLsbD 11
      protoErr := s.dev.flags.protoErr && !v.getLsbD 12
      accErr := s.dev.flags.accErr && !v.getLsbD 13 } } }) ∧
  (∀ (v : Word) (s : State), ∃ e : BitVec 6,
    exec (.wrIen v) s = .next { s with dev := { s.dev with ien := e } } ∧
    e.toNat = v.toNat / 2 ^ 8 % 2 ^ 6)

/-- In UNCONF each configuration write stores the fields of its register and nothing else (R104 to R110);
in RUN, DRAIN and HALT it sets ACC_ERR and nothing else (R119). -/
def Obligations.ConfigurationWriteStoresItsFieldsUnlessLocked : Prop :=
  ∀ (v : Word) (s : State),
    (s.dev.lc = .unconf →
      exec (.wrCfg v) s = .next { s with dev := { s.dev with conf := { s.dev.conf with
        mode := BitVec.ofNat 4 v.toNat, scr := BitVec.ofNat 2 (v.toNat / 2 ^ 4),
        bitord := decide (v.toNat / 2 ^ 8 % 2 = 1), verbose := decide (v.toNat / 2 ^ 9 % 2 = 1) } } } ∧
      exec (.wrPre v) s = .next { s with dev := { s.dev with conf := { s.dev.conf with
        preByte := BitVec.ofNat 8 v.toNat, preCount := BitVec.ofNat 16 (v.toNat / 2 ^ 16) } } } ∧
      exec (.wrSyncLen v) s = .next { s with dev := { s.dev with conf := { s.dev.conf with
        syncLen := BitVec.ofNat 4 v.toNat } } } ∧
      exec (.wrSync0 v) s = .next { s with dev := { s.dev with conf := { s.dev.conf with sync0 := v } } } ∧
      exec (.wrSync1 v) s = .next { s with dev := { s.dev with conf := { s.dev.conf with sync1 := v } } } ∧
      exec (.wrAmp0 v) s = .next { s with dev := { s.dev with conf := { s.dev.conf with amp0 := v } } } ∧
      exec (.wrAmp1 v) s = .next { s with dev := { s.dev with conf := { s.dev.conf with amp1 := v } } }) ∧
    (s.dev.lc ≠ .unconf →
      ∀ i ∈ [Instr.wrCfg v, .wrPre v, .wrSyncLen v, .wrSync0 v, .wrSync1 v, .wrAmp0 v, .wrAmp1 v],
        exec i s = .next { s with dev := { s.dev with flags := { s.dev.flags with accErr := true } } })

/-- A value written in UNCONF reads back with only the bits of its register's fields, and every other
slot reads as before (R85, R90, R103). -/
def Obligations.ReadBackIsTheMaskedWrite : Prop :=
  ∀ (v : Word) (s : State), s.dev.lc = .unconf →
    ∀ x ∈ [(Instr.wrIen v, 3#4, 0x00003F00#32), (.wrCfg v, 4#4, 0x0000033F#32),
        (.wrPre v, 5#4, 0xFFFF00FF#32), (.wrSyncLen v, 6#4, 0x0000000F#32),
        (.wrSync0 v, 7#4, 0xFFFFFFFF#32), (.wrSync1 v, 8#4, 0xFFFFFFFF#32),
        (.wrAmp0 v, 9#4, 0xFFFFFFFF#32), (.wrAmp1 v, 10#4, 0xFFFFFFFF#32)],
      ∃ t, exec x.1 s = .next t ∧ memRead t.dev x.2.1 = v &&& x.2.2 ∧
        ∀ a, a ≠ x.2.1 → memRead t.dev a = memRead s.dev a

/-- A write to a read-only slot, to an unmapped slot, or of a reserved command code sets ACC_ERR and
nothing else, in every lifecycle state (R111, R112, R118). -/
def Obligations.RefusedWriteSetsAccErrAlone : Prop :=
  ∀ (a code : BitVec 4) (v : Word) (s : State),
    ∀ i ∈ [Instr.wrRo a v, .wrUnmapped a v, .cmdRsvd code],
      exec i s = .next { s with dev := { s.dev with flags := { s.dev.flags with accErr := true } } }

/-- COMMIT in UNCONF: the checks, both errors where both hold, and RUN only where none does; outside
UNCONF it is refused (R114). -/
def Obligations.CommitChecksTheConfiguration : Prop :=
  ∀ s : State,
    (s.dev.lc = .unconf → exec .commit s = .next { s with dev := { s.dev with
      flags := { s.dev.flags with
        cfgErr := s.dev.flags.cfgErr || decide
          ((s.dev.conf.mode ≠ 1#4 ∧ s.dev.conf.mode ≠ 2#4) ∨ 2 ≤ s.dev.conf.scr.toNat ∨
            8 < s.dev.conf.syncLen.toNat)
        unsupErr := s.dev.flags.unsupErr || decide (s.dev.conf.mode = 2#4) }
      lc := if s.dev.conf.mode = 1#4 ∧ s.dev.conf.scr.toNat ≤ 1 ∧ s.dev.conf.syncLen.toNat ≤ 8
        then .run else .unconf } }) ∧
    (s.dev.lc ≠ .unconf →
      exec .commit s = .next { s with dev := { s.dev with flags := { s.dev.flags with accErr := true } } })

/-- STOP in RUN removes the newest record if it is open and moves to DRAIN; elsewhere it is refused
(R115). -/
def Obligations.StopBeginsTheFlush : Prop :=
  ∀ s : State,
    (∀ q r, s.dev.lc = .run → s.dev.mq = q ++ [r] → r.closed = false →
      exec .stop s = .next { s with dev := { s.dev with mq := q, lc := .drain } }) ∧
    (s.dev.lc = .run → (∀ q r, s.dev.mq = q ++ [r] → r.closed = true) →
      exec .stop s = .next { s with dev := { s.dev with lc := .drain } }) ∧
    (s.dev.lc ≠ .run →
      exec .stop s = .next { s with dev := { s.dev with flags := { s.dev.flags with accErr := true } } })

/-- ABORT in RUN or DRAIN empties the queues, clears the working registers and moves to HALT; elsewhere it
is refused (R116). -/
def Obligations.AbortEmptiesThePipeline : Prop :=
  ∀ s : State,
    (s.dev.lc = .run ∨ s.dev.lc = .drain → exec .abort s = .next { s with dev := { s.dev with
      mq := [], bch := [], oq := []
      fbc := { phase := .idle, cnt := 0#16, sof := false, tag := 0#32 }
      brp := { byte := 0#8, cnt := 0#4, sof := false, tag := 0#32 }
      lc := .halt } }) ∧
    (s.dev.lc = .unconf ∨ s.dev.lc = .halt →
      exec .abort s = .next { s with dev := { s.dev with flags := { s.dev.flags with accErr := true } } })

/-- SRST, from any state, gives every register and queue its reset value (R117, R42), and the reset pin
leaves the same device, from any state, with no step of any agent while it is asserted (R230). What the
CONSUMER has received and what the agents still offer is around the device and stays (log 10); that one
turn is one instant of an asserted pin is the model's choice (log 11). -/
def Obligations.BothResetsRestoreEveryRegister : Prop :=
  (∀ s : State, exec .srst s = .next { s with dev :=
    { lc := .unconf
      flags := { cfgErr := false, unsupErr := false, framingErr := false, alignErr := false,
                 protoErr := false, accErr := false }
      ien := 0#6
      conf := { mode := 1#4, scr := 0#2, bitord := false, verbose := false, preByte := 0xAA#8,
                preCount := 50#16, syncLen := 4#4, sync0 := 0x930B51DE#32, sync1 := 0#32,
                amp0 := 0xBF800000#32, amp1 := 0x3F800000#32 }
      ferrcnt := 0#32, framecnt := 0#32, mq := []
      fbc := { phase := .idle, cnt := 0#16, sof := false, tag := 0#32 }
      bch := []
      brp := { byte := 0#8, cnt := 0#4, sof := false, tag := 0#32 }
      oq := [] } }) ∧
  (∀ s : State, s.nextTurn = .rst → ∃ t u,
    step s = .next t ∧ exec .srst s = .next u ∧ t.dev = u.dev ∧ t.dev = State.reset.dev ∧
    t.env = s.takeTurn.env)

/-- A write to CMD performs the command in `wdata[3:0]` whatever the other bits are, and a command that is
not legal in the current lifecycle state sets ACC_ERR and nothing else (R113). -/
def Obligations.CommandWritePerformsItsCode : Prop :=
  (∀ w : BitVec 37, w.toNat / 2 ^ 32 = 0x11 →
    decodeCtl w =
      (match w.toNat % 16 with
        | 1 => .commit
        | 2 => .stop
        | 3 => .abort
        | 4 => .srst
        | c => .cmdRsvd (BitVec.ofNat 4 c))) ∧
  (∀ s : State, ∀ i, (i = .commit ∧ s.dev.lc ≠ .unconf) ∨ (i = .stop ∧ s.dev.lc ≠ .run) ∨
      (i = .abort ∧ s.dev.lc ≠ .run ∧ s.dev.lc ≠ .drain) →
    exec i s = .next { s with dev := { s.dev with flags := { s.dev.flags with accErr := true } } })

/-! ### Pins -/

/-- `irq` is 1 exactly when some flag is set and enabled, so a WR IEN can raise it and a WR STATUS lower
it in the same step (R207, R40). -/
def Obligations.IrqIsTheOrOfEnabledFlags : Prop :=
  (∀ d : Dev, d.irq = true ↔
    (d.flags.cfgErr = true ∧ d.ien.getLsbD 0 = true) ∨
    (d.flags.unsupErr = true ∧ d.ien.getLsbD 1 = true) ∨
    (d.flags.framingErr = true ∧ d.ien.getLsbD 2 = true) ∨
    (d.flags.alignErr = true ∧ d.ien.getLsbD 3 = true) ∨
    (d.flags.protoErr = true ∧ d.ien.getLsbD 4 = true) ∨
    (d.flags.accErr = true ∧ d.ien.getLsbD 5 = true)) ∧
  (∀ (v : Word) (s : State), ∃ t, exec (.wrStatus v) s = .next t ∧
    ((∀ k, k < 6 → s.dev.ien.getLsbD k = true → v.getLsbD (k + 8) = true) → t.dev.irq = false)) ∧
  (∀ (v : Word) (s : State), ∃ t, exec (.wrIen v) s = .next t ∧
    (∀ k, k < 6 → s.dev.flags.bits.getLsbD k = true → v.getLsbD (k + 8) = true → t.dev.irq = true))

/-- The output pins but `in_ready` as functions of the state; while `out_valid` is 0 nothing is said of
the egress pins (R40, U6). -/
def Obligations.OutputPinsFollowTheState : Prop :=
  ∀ s : State,
    (s.dev.outValid = true ↔ s.dev.oq ≠ []) ∧
    (∀ x rest, s.dev.oq = x :: rest → s.outItem = x) ∧
    (s.dev.fecEn = true ↔ s.dev.lc = .run) ∧
    s.dev.fecMode = s.dev.conf.mode ∧ s.dev.fecScr = s.dev.conf.scr ∧
    s.dev.fecVerbose = s.dev.conf.verbose

/-! ### Ingress -/

/-- `in_ready` of each kind of beat, by the newest record of MQ and the two capacities (R130). -/
def Obligations.InReadyFollowsItsRule : Prop :=
  ∀ (p : Params) (d : Dev),
    (inReady p d .head = true ↔ d.lc = .run ∧
      ((∃ q r, d.mq = q ++ [r] ∧ r.closed = false) ∨ d.mq.length < p.qmsgs)) ∧
    (inReady p d .data = true ↔ d.lc = .run ∧
      ∀ q r, d.mq = q ++ [r] → r.closed = false → r.cnt.toNat < r.decl.toNat →
        (d.mq.map fun x => x.data.length).sum < p.qbytes) ∧
    (inReady p d .msgEnd = true ↔ d.lc = .run) ∧
    (inReady p d .rsvd = true ↔ d.lc = .run)

/-- HEAD opens a record when none is open; while one is open it is discarded, sets PROTO_ERR and leaves
the record as it was (R131, under R130's acceptance). -/
def Obligations.HeadOpensARecord : Prop :=
  ∀ (n : BitVec 16) (s : State), s.dev.lc = .run →
    ((∀ q r, s.dev.mq = q ++ [r] → r.closed = true) → s.dev.mq.length < s.env.params.qmsgs →
      exec (.head n) s = .next { s with dev := { s.dev with
        mq := s.dev.mq ++ [{ decl := n, data := [], cnt := 0#17, closed := false }] } }) ∧
    (∀ q r, s.dev.mq = q ++ [r] → r.closed = false →
      exec (.head n) s =
        .next { s with dev := { s.dev with flags := { s.dev.flags with protoErr := true } } })

/-- DATA counts, and stores the byte when the declared length is not yet reached; with no record open it
is discarded and sets PROTO_ERR (R132, under R130's acceptance). -/
def Obligations.DataCountsAndStoresTheByte : Prop :=
  ∀ (b : Byte) (s : State), s.dev.lc = .run →
    (∀ q r, s.dev.mq = q ++ [r] → r.closed = false → r.cnt.toNat < r.decl.toNat →
      usedBytes s.dev.mq < s.env.params.qbytes →
      exec (.data b) s = .next { s with dev := { s.dev with
        mq := q ++ [{ r with data := r.data ++ [b], cnt := BitVec.ofNat 17 (r.cnt.toNat + 1) }] } }) ∧
    (∀ q r, s.dev.mq = q ++ [r] → r.closed = false → r.decl.toNat ≤ r.cnt.toNat →
      exec (.data b) s = .next { s with dev := { s.dev with
        mq := q ++ [{ r with cnt := BitVec.ofNat 17 (min (r.cnt.toNat + 1) 65536) }] } }) ∧
    ((∀ q r, s.dev.mq = q ++ [r] → r.closed = true) →
      exec (.data b) s =
        .next { s with dev := { s.dev with flags := { s.dev.flags with protoErr := true } } })

/-- END closes the open record; with none open it is discarded and sets PROTO_ERR. A record that is still
open is not visible to FBC (R133). -/
def Obligations.EndClosesTheOpenRecord : Prop :=
  ∀ s : State, s.dev.lc = .run →
    (∀ q r, s.dev.mq = q ++ [r] → r.closed = false →
      exec .msgEnd s =
        .next { s with dev := { s.dev with mq := q ++ [{ r with closed := true }] } }) ∧
    ((∀ q r, s.dev.mq = q ++ [r] → r.closed = true) →
      exec .msgEnd s =
        .next { s with dev := { s.dev with flags := { s.dev.flags with protoErr := true } } }) ∧
    (∀ p d r rest, d.mq = r :: rest → r.closed = false → d.fbc.phase = .idle → fbcOp p d = none)

/-- RSVD sets PROTO_ERR and nothing else, whether or not a record is open (R134). -/
def Obligations.ReservedBeatSetsProtoErrAlone : Prop :=
  ∀ s : State, s.dev.lc = .run →
    exec .rsvd s = .next { s with dev := { s.dev with flags := { s.dev.flags with protoErr := true } } }

/-- The ingress is closed outside RUN: `in_ready` of every beat is 0 (R130, R40), so the beat waits. That
`exec` of a beat that is not accepted answers the state unchanged, and that PRODUCER's wait is a step
that uses up its turn (the second and third clauses), are the model's choice (log 4). -/
def Obligations.NoBeatIsAcceptedOutsideRun : Prop :=
  ∀ (w : BitVec 18) (s : State), s.dev.lc ≠ .run →
    inReady s.env.params s.dev (beatKind w) = false ∧ exec (decodeBeat w) s = .next s ∧
    (s.nextTurn = .producer → ∃ t, step s = .next t ∧ t.dev = s.dev ∧ t.env.beatQ = s.env.beatQ)

/-! ### The frame boundary controller -/

/-- DROP is enabled exactly as R151 says; it removes a bad message whole, sets FRAMING_ERR and counts in
FERRCNT with saturation, and nothing else changes (R151, R203). -/
def Obligations.DropRemovesABadMessage : Prop :=
  (∀ (p : Params) (d : Dev), fbcOp p d = some .drop ↔
    (d.lc = .run ∨ d.lc = .drain) ∧ d.fbc.phase = .idle ∧
      ∃ r rest, d.mq = r :: rest ∧ r.closed = true ∧ r.cnt.toNat ≠ r.decl.toNat) ∧
  ∀ (s : State) (r : Msg) (rest : List Msg),
    s.dev.lc = .run ∨ s.dev.lc = .drain → s.dev.fbc.phase = .idle → s.dev.mq = r :: rest →
    r.closed = true → r.cnt.toNat ≠ r.decl.toNat →
    exec .drop s = .next { s with dev := { s.dev with
      mq := rest
      flags := { s.dev.flags with framingErr := true }
      ferrcnt := if s.dev.ferrcnt = 0xFFFFFFFF#32 then 0xFFFFFFFF#32 else s.dev.ferrcnt + 1#32 } }

/-- START is enabled exactly as R152 says; it latches the tag and enters the first phase that has a byte;
an empty Framed Message leaves at once and is counted (R152, R162). -/
def Obligations.StartEntersTheFirstPhaseWithBytes : Prop :=
  (∀ (p : Params) (d : Dev), fbcOp p d = some .start ↔
    (d.lc = .run ∨ d.lc = .drain) ∧ d.fbc.phase = .idle ∧
      ∃ r rest, d.mq = r :: rest ∧ r.closed = true ∧ r.cnt.toNat = r.decl.toNat) ∧
  ∀ (s : State) (r : Msg) (rest : List Msg),
    s.dev.lc = .run ∨ s.dev.lc = .drain → s.dev.fbc.phase = .idle → s.dev.mq = r :: rest →
    r.closed = true → r.cnt.toNat = r.decl.toNat →
    ∃ tag : Word,
      tag.toNat = s.dev.conf.preCount.toNat + s.dev.conf.syncLen.toNat + r.decl.toNat ∧
      (s.dev.conf.preCount ≠ 0#16 → exec .start s = .next { s with dev := { s.dev with
        fbc := { phase := .pre, cnt := s.dev.conf.preCount, sof := true, tag := tag } } }) ∧
      (s.dev.conf.preCount = 0#16 → s.dev.conf.syncLen ≠ 0#4 →
        exec .start s = .next { s with dev := { s.dev with
          fbc := { phase := .sync, cnt := s.dev.conf.syncLen.setWidth 16, sof := true, tag := tag } } }) ∧
      (s.dev.conf.preCount = 0#16 → s.dev.conf.syncLen = 0#4 → r.decl ≠ 0#16 →
        exec .start s = .next { s with dev := { s.dev with
          fbc := { phase := .pay, cnt := r.decl, sof := true, tag := tag } } }) ∧
      (s.dev.conf.preCount = 0#16 → s.dev.conf.syncLen = 0#4 → r.decl = 0#16 →
        exec .start s = .next { s with dev := { s.dev with
          mq := rest
          fbc := { phase := .idle, cnt := 0#16, sof := false, tag := tag }
          framecnt := if s.dev.framecnt = 0xFFFFFFFF#32 then 0xFFFFFFFF#32
            else s.dev.framecnt + 1#32 } })

/-- EMIT_PRE, enabled exactly as R153 says, pushes one preamble byte with the pending sideband, and after
the last one enters SYNC, PAY or IDLE as R162 says (R153, R156). -/
def Obligations.EmitPreSendsOnePreambleByte : Prop :=
  (∀ (p : Params) (d : Dev), fbcOp p d = some .emitPre ↔
    (d.lc = .run ∨ d.lc = .drain) ∧ d.fbc.phase = .pre ∧ d.bch.length < p.bcap) ∧
  ∀ (s : State) (r : Msg) (rest : List Msg),
    s.dev.lc = .run ∨ s.dev.lc = .drain → s.dev.fbc.phase = .pre →
    s.dev.bch.length < s.env.params.bcap → s.dev.mq = r :: rest →
    ∃ pushed : List BItem,
      pushed = s.dev.bch ++ [{ byte := s.dev.conf.preByte
                               sof := s.dev.fbc.sof
                               tag := if s.dev.fbc.sof then s.dev.fbc.tag else 0#32
                               width := 8 }] ∧
      (2 ≤ s.dev.fbc.cnt.toNat → exec .emitPre s = .next { s with dev := { s.dev with
        bch := pushed
        fbc := { s.dev.fbc with cnt := s.dev.fbc.cnt - 1#16, sof := false } } }) ∧
      (s.dev.fbc.cnt = 1#16 → s.dev.conf.syncLen ≠ 0#4 →
        exec .emitPre s = .next { s with dev := { s.dev with
          bch := pushed
          fbc := { s.dev.fbc with phase := .sync, cnt := s.dev.conf.syncLen.setWidth 16,
                                  sof := false } } }) ∧
      (s.dev.fbc.cnt = 1#16 → s.dev.conf.syncLen = 0#4 → r.decl ≠ 0#16 →
        exec .emitPre s = .next { s with dev := { s.dev with
          bch := pushed
          fbc := { s.dev.fbc with phase := .pay, cnt := r.decl, sof := false } } }) ∧
      (s.dev.fbc.cnt = 1#16 → s.dev.conf.syncLen = 0#4 → r.decl = 0#16 →
        exec .emitPre s = .next { s with dev := { s.dev with
          bch := pushed
          mq := rest
          fbc := { s.dev.fbc with phase := .idle, cnt := 0#16, sof := false }
          framecnt := if s.dev.framecnt = 0xFFFFFFFF#32 then 0xFFFFFFFF#32
            else s.dev.framecnt + 1#32 } })

/-- EMIT_SYNC, enabled exactly as R154 says, pushes the syncword byte of index `S - FB_CNT`, taken from
the most significant byte of SYNC0 on, and after the last one enters PAY or IDLE (R154, R156, R27, R162). -/
def Obligations.EmitSyncSendsOneSyncwordByte : Prop :=
  (∀ (p : Params) (d : Dev), fbcOp p d = some .emitSync ↔
    (d.lc = .run ∨ d.lc = .drain) ∧ d.fbc.phase = .sync ∧ d.bch.length < p.bcap) ∧
  ∀ (s : State) (r : Msg) (rest : List Msg),
    s.dev.lc = .run ∨ s.dev.lc = .drain → s.dev.fbc.phase = .sync →
    s.dev.bch.length < s.env.params.bcap → s.dev.mq = r :: rest →
    1 ≤ s.dev.fbc.cnt.toNat → s.dev.fbc.cnt.toNat ≤ s.dev.conf.syncLen.toNat →
    s.dev.conf.syncLen.toNat ≤ 8 →
    ∃ (k : Nat) (b : Byte) (pushed : List BItem),
      k = s.dev.conf.syncLen.toNat - s.dev.fbc.cnt.toNat ∧
      b.toNat = (s.dev.conf.sync0.toNat * 2 ^ 32 + s.dev.conf.sync1.toNat) / 2 ^ (8 * (7 - k)) % 2 ^ 8 ∧
      pushed = s.dev.bch ++ [{ byte := b
                               sof := s.dev.fbc.sof
                               tag := if s.dev.fbc.sof then s.dev.fbc.tag else 0#32
                               width := 8 }] ∧
      (2 ≤ s.dev.fbc.cnt.toNat → exec .emitSync s = .next { s with dev := { s.dev with
        bch := pushed
        fbc := { s.dev.fbc with cnt := s.dev.fbc.cnt - 1#16, sof := false } } }) ∧
      (s.dev.fbc.cnt = 1#16 → r.decl ≠ 0#16 → exec .emitSync s = .next { s with dev := { s.dev with
        bch := pushed
        fbc := { s.dev.fbc with phase := .pay, cnt := r.decl, sof := false } } }) ∧
      (s.dev.fbc.cnt = 1#16 → r.decl = 0#16 → exec .emitSync s = .next { s with dev := { s.dev with
        bch := pushed
        mq := rest
        fbc := { s.dev.fbc with phase := .idle, cnt := 0#16, sof := false }
        framecnt := if s.dev.framecnt = 0xFFFFFFFF#32 then 0xFFFFFFFF#32
          else s.dev.framecnt + 1#32 } })

/-- EMIT_PAY, enabled exactly as R155 says, pops the oldest stored byte of the head record and pushes it;
the last one removes the record and counts the message (R155, R156, R162). -/
def Obligations.EmitPaySendsOnePayloadByte : Prop :=
  (∀ (p : Params) (d : Dev), fbcOp p d = some .emitPay ↔
    (d.lc = .run ∨ d.lc = .drain) ∧ d.fbc.phase = .pay ∧ d.bch.length < p.bcap) ∧
  ∀ (s : State) (r : Msg) (b : Byte) (bs : List Byte) (rest : List Msg),
    s.dev.lc = .run ∨ s.dev.lc = .drain → s.dev.fbc.phase = .pay →
    s.dev.bch.length < s.env.params.bcap → s.dev.mq = r :: rest → r.data = b :: bs →
    ∃ pushed : List BItem,
      pushed = s.dev.bch ++ [{ byte := b
                               sof := s.dev.fbc.sof
                               tag := if s.dev.fbc.sof then s.dev.fbc.tag else 0#32
                               width := 8 }] ∧
      (2 ≤ s.dev.fbc.cnt.toNat → exec .emitPay s = .next { s with dev := { s.dev with
        bch := pushed
        mq := { r with data := bs } :: rest
        fbc := { s.dev.fbc with cnt := s.dev.fbc.cnt - 1#16, sof := false } } }) ∧
      (s.dev.fbc.cnt = 1#16 → exec .emitPay s = .next { s with dev := { s.dev with
        bch := pushed
        mq := rest
        fbc := { s.dev.fbc with phase := .idle, cnt := 0#16, sof := false }
        framecnt := if s.dev.framecnt = 0xFFFFFFFF#32 then 0xFFFFFFFF#32
          else s.dev.framecnt + 1#32 } })

/-- DRAIN_DONE, enabled exactly when everything is empty in DRAIN, moves to HALT and changes nothing else
(R157). -/
def Obligations.DrainDoneHalts : Prop :=
  (∀ (p : Params) (d : Dev), fbcOp p d = some .drainDone ↔ d.lc = .drain ∧ d.empty) ∧
  ∀ s : State, s.dev.lc = .drain → s.dev.empty →
    exec .drainDone s = .next { s with dev := { s.dev with lc := .halt } }

/-- FBC has at most one enabled operation in any state, BRP at most one, and outside RUN and DRAIN
neither has any. Idle with no record, or with only an open one, FBC waits; in DRAIN, where that means
there is no record at all, only DRAIN_DONE may be left to it (R150, R157, R170). -/
def Obligations.EachInternalAgentHasAtMostOneOperation : Prop :=
  ∀ (p : Params) (d : Dev),
    ([dropEnabled d, startEnabled d, emitEnabled p .pre d, emitEnabled p .sync d, emitEnabled p .pay d,
      drainDoneEnabled d].countP id ≤ 1) ∧
    ([loadEnabled d, shiftEnabled p d].countP id ≤ 1) ∧
    (d.lc = .unconf ∨ d.lc = .halt → fbcOp p d = none ∧ brpOp p d = none) ∧
    (d.fbc.phase = .idle → d.mq = [] → fbcOp p d = none ∨ fbcOp p d = some .drainDone) ∧
    (∀ r, d.fbc.phase = .idle → d.mq = [r] → r.closed = false → fbcOp p d = none) ∧
    (d.lc = .run → d.fbc.phase = .idle → d.mq = [] → fbcOp p d = none)

/-! ### The bit repacker, the symbol mapper, the egress -/

/-- LOAD, enabled exactly as R170 says and never together with SHIFT, takes the oldest item of BCH, a whole
byte, with its sideband (R170, R83). -/
def Obligations.LoadTakesTheOldestItem : Prop :=
  (∀ (p : Params) (d : Dev),
    (brpOp p d = some .load ↔ (d.lc = .run ∨ d.lc = .drain) ∧ d.brp.cnt = 0#4 ∧ d.bch ≠ []) ∧
    (brpOp p d = some .load → shiftEnabled p d = false) ∧
    (d.brp.cnt = 0#4 → d.bch = [] → brpOp p d = none) ∧
    (d.lc = .unconf ∨ d.lc = .halt → brpOp p d = none)) ∧
  ∀ (s : State) (x : BItem) (rest : List BItem),
    s.dev.lc = .run ∨ s.dev.lc = .drain → s.dev.brp.cnt = 0#4 → s.dev.bch = x :: rest → x.width = 8 →
    exec .load s = .next { s with dev := { s.dev with
      bch := rest
      brp := { byte := x.byte, cnt := 8#4, sof := x.sof, tag := x.tag } } }

/-- LOAD of an item that is not a whole byte, which no run reaches, leaves the item, sets ALIGN_ERR and
halts (R173, R204; that such an item can be written down is the model's choice, log 7). -/
def Obligations.PartialByteRaisesAlignmentError : Prop :=
  ∀ (s : State) (x : BItem) (rest : List BItem),
    s.dev.lc = .run ∨ s.dev.lc = .drain → s.dev.brp.cnt = 0#4 → s.dev.bch = x :: rest → x.width ≠ 8 →
    ∃ t, exec .load s = .next t ∧
      t = { s with dev := { s.dev with flags := { s.dev.flags with alignErr := true }, lc := .halt } } ∧
      fbcOp t.env.params t.dev = none ∧ brpOp t.env.params t.dev = none

/-- SHIFT, enabled exactly as R171 says, sends the bit of index `8 - BR_CNT`, counted from bit 7 down when
BITORD is 0 and from bit 0 up when it is 1, as AMP1 or AMP0, with the sideband on the first symbol after
it was loaded (R171, R172). -/
def Obligations.ShiftSendsOneBit : Prop :=
  (∀ (p : Params) (d : Dev), brpOp p d = some .shift ↔
    (d.lc = .run ∨ d.lc = .drain) ∧ 0 < d.brp.cnt.toNat ∧ d.oq.length < p.ocap) ∧
  ∀ s : State, s.dev.lc = .run ∨ s.dev.lc = .drain → 1 ≤ s.dev.brp.cnt.toNat →
    s.dev.brp.cnt.toNat ≤ 8 → s.dev.oq.length < s.env.params.ocap →
    ∃ i bit, i = 8 - s.dev.brp.cnt.toNat ∧
      bit = (if s.dev.conf.bitord = true then s.dev.brp.byte.toNat / 2 ^ i % 2
        else s.dev.brp.byte.toNat / 2 ^ (7 - i) % 2) ∧
      exec .shift s = .next { s with dev := { s.dev with
        oq := s.dev.oq ++ [{ sym := if bit = 1 then s.dev.conf.amp1 else s.dev.conf.amp0
                             sof := s.dev.brp.sof
                             tag := if s.dev.brp.sof then s.dev.brp.tag else 0#32 }]
        brp := { s.dev.brp with cnt := s.dev.brp.cnt - 1#4, sof := false } } }

/-- A loaded byte leaves as eight symbols, bit 7 first or bit 0 first, the sideband on the first alone,
and BRP is empty after the eighth SHIFT (R171, R172, R174). -/
def Obligations.EightShiftsSendTheByte : Prop :=
  ∀ s : State, s.dev.lc = .run ∨ s.dev.lc = .drain → s.dev.brp.cnt = 8#4 →
    s.dev.oq.length + 8 ≤ s.env.params.ocap →
    ∃ t : State,
      (List.range 8).foldl (fun (o : Res) _ => match o with
        | .next u => exec .shift u
        | .fault f => .fault f
        | .refused r => .refused r) (.next s) = .next t ∧
      t.dev.brp.cnt = 0#4 ∧ t.dev.brp.byte = s.dev.brp.byte ∧ t.dev.bch = s.dev.bch ∧
      t.dev.oq = s.dev.oq ++
        ((if s.dev.conf.bitord = true then [0, 1, 2, 3, 4, 5, 6, 7] else [7, 6, 5, 4, 3, 2, 1, 0]).mapIdx
          fun n k =>
            { sym := if s.dev.brp.byte.getLsbD k then s.dev.conf.amp1 else s.dev.conf.amp0
              sof := s.dev.brp.sof && n == 0
              tag := if s.dev.brp.sof && n == 0 then s.dev.brp.tag else 0#32 })

/-- Every byte BRP takes gives eight symbols: what OQ holds and CONSUMER has received, with the bits still
in BRP, grows by eight with a LOAD and stays the same under every other operation but ABORT and SRST
(R43 (h), R171). -/
def Obligations.EveryByteTakenGivesEightSymbols : Prop :=
  ∀ (i : Instr) (s t : State), s.Inv → exec i s = .next t → i ≠ .abort → i ≠ .srst →
    t.env.delivered.length + t.dev.oq.length + t.dev.brp.cnt.toNat =
      s.env.delivered.length + s.dev.oq.length + s.dev.brp.cnt.toNat +
        (if i = .load then 8 * (s.dev.bch.length - t.dev.bch.length) else 0)

/-- MAP returns AMP1 for 1 and AMP0 for 0 and writes nothing of the device (R180). Where the word goes
when MAP is evaluated on its own is the model's choice (log 6). -/
def Obligations.MapIsATwoEntryTable : Prop :=
  ∀ (bit : Bool) (s : State), exec (.map bit) s = .next { s with env := { s.env with
    mapResult := some (if bit = true then s.dev.conf.amp1 else s.dev.conf.amp0) } }

/-- POP hands CONSUMER the oldest item of OQ and removes it, in every lifecycle state; with OQ empty there
is no POP (R181). That what CONSUMER received is recorded in a list (log 5), and that `exec` of POP with
OQ empty answers the state unchanged (log 4), are the model's choice. -/
def Obligations.PopDeliversTheOldestItem : Prop :=
  ∀ s : State,
    (∀ x rest, s.dev.oq = x :: rest → exec .pop s = .next
      { dev := { s.dev with oq := rest }, env := { s.env with delivered := s.env.delivered ++ [x] } }) ∧
    (s.dev.oq = [] → consumerOp s.dev = none ∧ exec .pop s = .next s)

/-! ### Reset -/

/-- The reset state: every register, flag and queue at the value of R42's table, and the pins with it
(R231). The sizes are R5's defaults; that nothing is scheduled, offered or observed is the model's choice
(log 1, log 2, log 5). -/
def Obligations.ResetLeavesTheTableOfResetValues : Prop :=
  (List.range 16).map (fun a => memRead State.reset.dev (BitVec.ofNat 4 a)) =
    [0x46424331#32, 0#32, 0#32, 0#32, 1#32, 0x003200AA#32, 4#32, 0x930B51DE#32, 0#32, 0xBF800000#32,
     0x3F800000#32, 0#32, 0#32, 0#32, 0#32, 0#32] ∧
  State.reset.dev.lc = .unconf ∧ State.reset.dev.mq = [] ∧ State.reset.dev.bch = [] ∧
  State.reset.dev.oq = [] ∧
  State.reset.dev.fbc = { phase := .idle, cnt := 0#16, sof := false, tag := 0#32 } ∧
  State.reset.dev.brp = { byte := 0#8, cnt := 0#4, sof := false, tag := 0#32 } ∧
  State.reset.dev.irq = false ∧ State.reset.dev.outValid = false ∧ State.reset.dev.fecEn = false ∧
  (∀ k, inReady State.reset.env.params State.reset.dev k = false) ∧
  State.reset.dev.fecMode = 1#4 ∧ State.reset.dev.fecScr = 0#2 ∧ State.reset.dev.fecVerbose = false ∧
  State.reset.env.params = { qmsgs := 4, qbytes := 65536, bcap := 2, ocap := 2 }

/-! ### Whole-machine rules -/

/-- The seven configuration registers change only in UNCONF, or when SRST or the reset pin gives them
their reset values: no operation of any agent touches them otherwise (R72, R119, R234). -/
def Obligations.ConfigurationIsLockedOutsideUnconf : Prop :=
  (∀ (i : Instr) (s t : State), exec i s = .next t → s.dev.lc ≠ .unconf → i ≠ .srst →
    t.dev.conf = s.dev.conf) ∧
  (∀ s t : State, step s = .next t → s.dev.lc ≠ .unconf → t.dev.conf ≠ s.dev.conf →
    t.dev = State.reset.dev)

/-- LC is written only by COMMIT from UNCONF to RUN, STOP from RUN to DRAIN, ABORT from RUN or DRAIN to
HALT, DRAIN_DONE from DRAIN to HALT, AlignmentError in LOAD to HALT, and SRST to UNCONF (R21). -/
def Obligations.LifecycleMovesOnlyAsListed : Prop :=
  ∀ (i : Instr) (s t : State), exec i s = .next t → t.dev.lc ≠ s.dev.lc →
    (i = .commit ∧ s.dev.lc = .unconf ∧ t.dev.lc = .run) ∨
    (i = .stop ∧ s.dev.lc = .run ∧ t.dev.lc = .drain) ∨
    (i = .abort ∧ (s.dev.lc = .run ∨ s.dev.lc = .drain) ∧ t.dev.lc = .halt) ∨
    (i = .drainDone ∧ s.dev.lc = .drain ∧ t.dev.lc = .halt) ∨
    (i = .load ∧ t.dev.flags.alignErr = true ∧ t.dev.lc = .halt) ∨
    (i = .srst ∧ t.dev.lc = .unconf)

/-- Only WR STATUS and SRST clear a flag, and those two set none; each flag is set only by its own cause
(R22, R200 to R206): CFG_ERR and UNSUP_ERR by a COMMIT in UNCONF of a configuration that has the fault,
FRAMING_ERR by DROP of a bad head record, ALIGN_ERR by LOAD of an item that is no whole byte, PROTO_ERR by
a reserved beat or one out of sequence, ACC_ERR by a write or command that is refused. -/
def Obligations.FlagsChangeOnlyAsListed : Prop :=
  ∀ (i : Instr) (s t : State), exec i s = .next t →
    (i ≠ .srst → (∀ v, i ≠ .wrStatus v) → ∀ k, k < 6 →
      s.dev.flags.bits.getLsbD k = true → t.dev.flags.bits.getLsbD k = true) ∧
    (i = .srst ∨ (∃ v, i = .wrStatus v) → ∀ k, k < 6 →
      t.dev.flags.bits.getLsbD k = true → s.dev.flags.bits.getLsbD k = true) ∧
    (t.dev.flags.cfgErr = true → s.dev.flags.cfgErr = false →
      i = .commit ∧ s.dev.lc = .unconf ∧ ((s.dev.conf.mode ≠ 1#4 ∧ s.dev.conf.mode ≠ 2#4) ∨
        2 ≤ s.dev.conf.scr.toNat ∨ 8 < s.dev.conf.syncLen.toNat)) ∧
    (t.dev.flags.unsupErr = true → s.dev.flags.unsupErr = false →
      i = .commit ∧ s.dev.lc = .unconf ∧ s.dev.conf.mode = 2#4) ∧
    (t.dev.flags.framingErr = true → s.dev.flags.framingErr = false →
      i = .drop ∧ ∃ r, s.dev.mq = r :: t.dev.mq ∧ r.closed = true ∧ r.cnt.toNat ≠ r.decl.toNat) ∧
    (t.dev.flags.alignErr = true → s.dev.flags.alignErr = false →
      i = .load ∧ ∃ x rest, s.dev.bch = x :: rest ∧ x.width ≠ 8) ∧
    (t.dev.flags.protoErr = true → s.dev.flags.protoErr = false →
      s.dev.lc = .run ∧ (i = .rsvd ∨
        ((∃ n, i = .head n) ∧ ∃ q r, s.dev.mq = q ++ [r] ∧ r.closed = false) ∨
        (((∃ b, i = .data b) ∨ i = .msgEnd) ∧ ∀ q r, s.dev.mq = q ++ [r] → r.closed = true))) ∧
    (t.dev.flags.accErr = true → s.dev.flags.accErr = false →
      i.mnemonic ∈ ["WR.RO", "WR.UNMAPPED", "CMD.RSVD"] ∨
      (i.mnemonic ∈ ["WR.CFG", "WR.PRE", "WR.SYNCLEN", "WR.SYNC0", "WR.SYNC1", "WR.AMP0", "WR.AMP1",
        "COMMIT"] ∧ s.dev.lc ≠ .unconf) ∨
      (i = .stop ∧ s.dev.lc ≠ .run) ∨
      (i = .abort ∧ s.dev.lc ≠ .run ∧ s.dev.lc ≠ .drain))

/-- FERRCNT counts the DROPs and FRAMECNT the messages FBC finishes, one at a time and saturating; nothing
but those and SRST writes them (R29, R30, R213). -/
def Obligations.CountersCountOnlyTheirEvents : Prop :=
  ∀ (i : Instr) (s t : State), exec i s = .next t → i ≠ .srst →
    (t.dev.ferrcnt = s.dev.ferrcnt ∨
      (i = .drop ∧ t.dev.mq.length + 1 = s.dev.mq.length ∧
        t.dev.ferrcnt.toNat = min (s.dev.ferrcnt.toNat + 1) 0xFFFFFFFF)) ∧
    (t.dev.framecnt = s.dev.framecnt ∨
      (i ∈ [Instr.start, .emitPre, .emitSync, .emitPay] ∧ t.dev.mq.length + 1 = s.dev.mq.length ∧
        t.dev.fbc.phase = .idle ∧
        t.dev.framecnt.toNat = min (s.dev.framecnt.toNat + 1) 0xFFFFFFFF))

/-- CFG.VERBOSE has no effect on any operation but the read of CFG (what it drives is the pin
`fec_verbose`, which Obligations.OutputPinsFollowTheState states): two states that differ in it alone
take, under every other operation, steps to states that differ in it at most (R24, R215, U15). -/
def Obligations.VerboseChangesNoOperationButTheReadOfCfg : Prop :=
  ∀ (b : Bool) (i : Instr) (s : State), i ≠ .rd 4#4 →
    (match exec i s, exec i (s.withVerbose b) with
      | .next t, .next u => u.withVerbose t.dev.conf.verbose = t
      | .fault f, .fault g => f = g
      | .refused f, .refused g => f = g
      | _, _ => False)

/-- The payload is opaque: the agents' next operations are the same whatever the bytes of the messages and
of the byte channel are (R136; guards read no data value). -/
def Obligations.ByteValuesNeverDecideAnOperation : Prop :=
  ∀ (f : Byte → Byte) (p : Params) (d : Dev),
    let e : Dev := { d with
      mq := d.mq.map fun r => { r with data := r.data.map f }
      bch := d.bch.map fun x => { x with byte := f x.byte }
      brp := { d.brp with byte := f d.brp.byte } }
    fbcOp p e = fbcOp p d ∧ brpOp p e = brpOp p d ∧ consumerOp e = consumerOp d ∧
    (∀ k, inReady p e k = inReady p d k)

/-! ### Headline results -/

/-- The invariant R43 (and what makes it inductive) holds at reset. -/
def Obligations.InvariantHoldsAtReset : Prop := State.reset.Inv

/-- Every step keeps the invariant, from every state that meets it, whoever's turn it is (R43). -/
def Obligations.EveryStepKeepsTheInvariant : Prop :=
  ∀ s t : State, s.Inv → step s = .next t → t.Inv

/-- From a state that meets the invariant no step stops: none of the model's faults is reachable and no
operation is refused (R43, R173; log 8). -/
def Obligations.NoStepStopsUnderTheInvariant : Prop :=
  ∀ s : State, s.Inv → ∃ t, step s = .next t

/-- FBC, BRP and CONSUMER only move the egress along: what has been delivered together with what the
device still owes is the same before and after each of their steps. With the definition of what is owed
this is the wire order, the length, the tag and the bit order of every message at once, and that no
message is interleaved, lost or duplicated (R158, R159, R160, R161, R174, R182). -/
def Obligations.InternalStepsKeepTheSymbolStream : Prop :=
  ∀ s t : State, s.Inv → s.nextTurn.internal = true → step s = .next t → t.stream = s.stream

/-- A beat adds to the egress exactly when it is the END of a good message, and then it adds that message's
preamble, syncword and payload as symbols, behind everything owed before (R133, R135, R159, R182). -/
def Obligations.ArrivalAppendsOneFrame : Prop :=
  ∀ s t : State, s.Inv → s.nextTurn = .producer → step s = .next t →
    (∀ q r w ws, s.env.beatQ = w :: ws → beatKind w = .msgEnd → s.dev.lc = .run →
      s.dev.mq = q ++ [r] → r.closed = false → r.cnt.toNat = r.decl.toNat →
      t.stream = s.stream ++ s.dev.conf.frameItems r.data) ∧
    ((∀ q r w ws, s.env.beatQ = w :: ws → beatKind w = .msgEnd → s.dev.lc = .run →
      s.dev.mq = q ++ [r] → r.closed = false → r.cnt.toNat ≠ r.decl.toNat) →
      t.stream = s.stream)

/-- HOST's transactions leave the egress alone, but ABORT and SRST, which leave what was delivered and
nothing else (R115, R116, R117, R216). -/
def Obligations.OnlyAbortAndResetCutTheStream : Prop :=
  ∀ s t : State, s.Inv → s.nextTurn = .host ∨ s.nextTurn = .rst → step s = .next t →
    t.stream = s.stream ∨ (t.stream = s.env.delivered ∧
      (t.dev = State.reset.dev ∨ (t.dev.lc = .halt ∧ (s.dev.lc = .run ∨ s.dev.lc = .drain))))

/-- The internal agents commute: where two of them have an enabled operation, taking one leaves the
other's enabled and either order ends in the same device with the same items delivered (R243). -/
def Obligations.InternalAgentsCommute : Prop :=
  ∀ (s u v : State) (i j : Instr), s.Inv →
    (fbcOp s.env.params s.dev = some i ∧ brpOp s.env.params s.dev = some j) ∨
    (fbcOp s.env.params s.dev = some i ∧ consumerOp s.dev = some j) ∨
    (brpOp s.env.params s.dev = some i ∧ consumerOp s.dev = some j) →
    exec i s = .next u → exec j s = .next v →
    ∃ t, exec j u = .next t ∧ exec i v = .next t

/-- Two runs of the device under the same beats, with no word from HOST and no reset, whatever the order
of turns and whatever the buffer sizes: if both take all the beats and come to rest, CONSUMER has
received the same items (R243). -/
def Obligations.EgressDoesNotDependOnTheSchedule : Prop :=
  ∀ (s₁ s₂ t₁ t₂ : State) (n₁ n₂ : Nat),
    s₁.Inv → s₂.Inv → s₁.dev = s₂.dev → s₁.dev.lc = .run →
    s₁.env.beatQ = s₂.env.beatQ → s₁.env.delivered = s₂.env.delivered →
    s₁.env.schedule.length = n₁ → s₂.env.schedule.length = n₂ →
    (∀ x ∈ s₁.env.schedule ++ s₂.env.schedule, x.internal = true ∨ x = .producer) →
    Sys2Proof.core.run n₁ s₁ = .next t₁ → Sys2Proof.core.run n₂ s₂ = .next t₂ →
    t₁.quiescent → t₂.quiescent →
    t₁.env.delivered = t₂.env.delivered ∧ t₁.dev.ferrcnt = t₂.dev.ferrcnt ∧
    t₁.dev.framecnt = t₂.dev.framecnt ∧ t₁.dev.flags = t₂.dev.flags

/-- A flush delivers everything: after STOP, whatever the order of the internal turns, HALT is reached only
when CONSUMER has received every symbol that was owed (R115, R157, R233). -/
def Obligations.FlushDeliversEverythingOwed : Prop :=
  ∀ (s t : State) (n : Nat), s.Inv → s.dev.lc = .drain → s.env.schedule.length = n →
    (∀ x ∈ s.env.schedule, x.internal = true) → Sys2Proof.core.run n s = .next t →
    t.dev.lc = .halt → t.env.delivered = s.stream

/-- No deadlock: in RUN or DRAIN, unless nothing is in flight and MQ holds at most an open record, FBC,
BRP or CONSUMER has an enabled operation; in DRAIN one of them always has (R242). -/
def Obligations.SomeAgentCanMoveWhileDataIsInFlight : Prop :=
  ∀ s : State, s.Inv →
    (s.dev.lc = .drain → s.canMove = true) ∧
    (s.dev.lc = .run → s.canMove = false →
      (∀ r ∈ s.dev.mq, r.closed = false) ∧ s.dev.mq.length ≤ 1 ∧ s.dev.fbc.phase = .idle ∧
      s.dev.bch = [] ∧ s.dev.brp.cnt = 0#4 ∧ s.dev.oq = [])

/-- Every operation of FBC, BRP or CONSUMER uses up some of the work left, so from any state the three of
them take no more operations than that (R241). -/
def Obligations.EveryInternalOperationUsesUpWork : Prop :=
  ∀ (s t : State) (i : Instr), s.Inv →
    fbcOp s.env.params s.dev = some i ∨ brpOp s.env.params s.dev = some i ∨
      consumerOp s.dev = some i →
    exec i s = .next t → t.dev.work < s.dev.work

/-- A step that counts a message in FRAMECNT has removed its record and handed its last byte to BCH: FBC
has no byte left of it, and what is still owed of the messages counted stands in OQ, BRP and BCH, at most
`8 BCAP + 8 + OCAP` symbols; all else that is owed belongs to records not begun (R30, R239). -/
def Obligations.CountedMessageIsWhollyBehindFbc : Prop :=
  ∀ s t : State, s.Inv → step s = .next t → s.dev.framecnt.toNat < t.dev.framecnt.toNat →
    t.dev.mq.length + 1 = s.dev.mq.length ∧ t.dev.fbc.phase = .idle ∧ restBytes t.dev = [] ∧
    ∃ inside : List SItem,
      inside = (t.dev.oq ++
        symbolsFrom t.dev.conf t.dev.brp.byte t.dev.brp.cnt.toNat t.dev.brp.sof t.dev.brp.tag) ++
        itemSymbols t.dev.conf t.dev.bch ∧
      s.stream = (t.env.delivered ++ inside) ++ goodItems t.dev.conf t.dev.mq ∧
      inside.length ≤ 8 * t.env.params.bcap + 8 + t.env.params.ocap

/-! ### Progress under weak fairness (R241) -/

/-- In a run that is weakly fair to FBC, BRP and CONSUMER and in which no step from `σ n` on is an ABORT,
an SRST or the reset pin, whatever else the agents do and send: every symbol owed in `σ n` is delivered in
the end, in order; and every message that has arrived and waits in `σ n` is taken up in its turn, after
the records before it, dropped if it is bad and emitted if it is good (R241). What a run is, is the
model's choice (log 18). -/
def Obligations.FairRunsDropOrEmitEveryArrivedMessage : Prop :=
  ∀ (turns : Nat → Turn) (σ : Nat → State) (n : Nat), IsRun turns σ → (σ n).Inv →
    (∀ t ∈ [Turn.fbc, .brp, .consumer], WeaklyFair turns σ t) →
    (∀ m, n ≤ m → ¬ (σ m).cutBy (turns m)) →
    (∃ m, n ≤ m ∧ (σ n).stream <+: (σ m).env.delivered) ∧
    (∀ q r q', waiting (σ n).dev = q ++ r :: q' → r.closed = true →
      ∃ m, n ≤ m ∧ takenUp turns σ n m = q.length ∧ turns m = .fbc ∧
        (σ m).dev.mq.head? = some r ∧
        (σ m).enabledOp .fbc = some (if r.cnt.toNat = r.decl.toNat then .start else .drop))

/-- In a run that is weakly fair to PRODUCER, FBC, BRP and CONSUMER and stays in RUN, a beat that PRODUCER
offers is accepted in the end: it is at the head of PRODUCER's words, unchanged, in a step that performs
it (R241, R242). What a run is, is the model's choice (log 18). -/
def Obligations.FairRunsAcceptEveryOfferedBeat : Prop :=
  ∀ (turns : Nat → Turn) (σ : Nat → State) (n : Nat) (w : BitVec 18) (ws : List (BitVec 18)),
    IsRun turns σ → (σ n).Inv →
    (∀ t ∈ [Turn.producer, .fbc, .brp, .consumer], WeaklyFair turns σ t) →
    (∀ m, n ≤ m → (σ m).dev.lc = .run) → (σ n).env.beatQ = w :: ws →
    ∃ m bs, n ≤ m ∧ (σ m).env.beatQ = (w :: ws) ++ bs ∧ turns m = .producer ∧
      (σ m).enabledOp .producer = some (decodeBeat w)
end

