-- ==== Sys2Proof/Laws/Decode.lean ====
section
/-! SUPPORT. The fields of a word, both ways. -/

namespace Sys2Proof

/-- The bits of a placed field. -/
@[simp] theorem getLsbD_fieldAt (w lo : Nat) {n : Nat} (x : BitVec n) (i : Nat) :
    (fieldAt w lo x).getLsbD i = (decide (i < w) && decide (lo ≤ i) && x.getLsbD (i - lo)) := by
  simp only [fieldAt, BitVec.getLsbD_shiftLeft, BitVec.getLsbD_setWidth]
  by_cases h1 : i < w
  · have h3 : i - lo < w := by omega
    by_cases h2 : lo ≤ i
    · simp [h1, h2, h3, Nat.not_lt.mpr h2]
    · simp [h1, h2, Nat.lt_of_not_le h2]
  · simp [h1]

@[simp] theorem getElem_fieldAt (w lo : Nat) {n : Nat} (x : BitVec n) (i : Nat) (h : i < w) :
    (fieldAt w lo x)[i] = (decide (lo ≤ i) && x.getLsbD (i - lo)) := by
  rw [← BitVec.getLsbD_eq_getElem, getLsbD_fieldAt]
  simp [h]

/-- The value of a placed field. -/
theorem toNat_fieldAt {w lo n : Nat} (x : BitVec n) (h : lo + n ≤ w) :
    (fieldAt w lo x).toNat = x.toNat * 2 ^ lo := by
  have hx : x.toNat * 2 ^ lo < 2 ^ w := by
    calc x.toNat * 2 ^ lo < 2 ^ n * 2 ^ lo := Nat.mul_lt_mul_of_pos_right x.isLt (Nat.two_pow_pos lo)
      _ = 2 ^ (lo + n) := by rw [← Nat.pow_add, Nat.add_comm]
      _ ≤ 2 ^ w := Nat.pow_le_pow_right (by omega) h
  have hx' : x.toNat < 2 ^ w :=
    Nat.lt_of_lt_of_le x.isLt (Nat.pow_le_pow_right (by omega) (by omega))
  simp only [fieldAt, BitVec.toNat_shiftLeft, BitVec.toNat_setWidth, Nat.shiftLeft_eq,
    Nat.mod_eq_of_lt hx']
  exact Nat.mod_eq_of_lt hx

/-- A field placed above the value of the rest adds to it. -/
theorem toNat_fieldAt_or {w lo n : Nat} (x : BitVec n) (y : BitVec w) (h : lo + n ≤ w)
    (hy : y.toNat < 2 ^ lo) : (fieldAt w lo x ||| y).toNat = x.toNat * 2 ^ lo + y.toNat := by
  rw [BitVec.toNat_or, toNat_fieldAt x h, ← Nat.shiftLeft_eq, ← Nat.shiftLeft_add_eq_or_of_lt hy]

@[simp] theorem ctlWe_ctlBits (we : Bool) (a : BitVec 4) (v : Word) : ctlWe (ctlBits we a v) = we := by
  simp only [ctlWe, ctlBits, BitVec.getLsbD_or, getLsbD_fieldAt]
  cases we <;> simp

@[simp] theorem ctlIndex_ctlBits (we : Bool) (a : BitVec 4) (v : Word) :
    ctlIndex (ctlBits we a v) = a := by
  apply BitVec.eq_of_getLsbD_eq
  intro i hi
  have h : ¬ 36 ≤ 32 + i := by omega
  have h' : 32 + i < 37 := by omega
  simp only [ctlIndex, ctlBits, BitVec.getLsbD_extractLsb', BitVec.getLsbD_or, getLsbD_fieldAt]
  simp [h, h', hi]

@[simp] theorem ctlData_ctlBits (we : Bool) (a : BitVec 4) (v : Word) : ctlData (ctlBits we a v) = v := by
  apply BitVec.eq_of_getLsbD_eq
  intro i hi
  have h : ¬ 36 ≤ i := by omega
  have h' : ¬ 32 ≤ i := by omega
  have h'' : i < 37 := by omega
  simp only [ctlData, ctlBits, BitVec.getLsbD_extractLsb', BitVec.getLsbD_or, getLsbD_fieldAt]
  simp [h, h', h'', hi]

/-- Every Format C word is its three fields. -/
theorem ctlBits_fields (w : BitVec 37) : ctlBits (ctlWe w) (ctlIndex w) (ctlData w) = w := by
  apply BitVec.eq_of_getLsbD_eq
  intro i hi
  simp only [ctlBits, ctlWe, ctlIndex, ctlData, BitVec.getLsbD_or, getLsbD_fieldAt,
    BitVec.getLsbD_extractLsb']
  by_cases h1 : i < 32
  · have h2 : ¬ 36 ≤ i := by omega
    have h3 : ¬ 32 ≤ i := by omega
    simp [h1, h2, h3, hi]
  · by_cases h2 : i < 36
    · have e : 32 + (i - 32) = i := by omega
      have h3 : i - 32 < 4 := by omega
      have h4 : ¬ 36 ≤ i := by omega
      have h5 : 32 ≤ i := by omega
      simp [h1, h3, h4, h5, e, hi]
    · have e : i = 36 := by omega
      subst e
      simp

@[simp] theorem cmdCode_fieldAt (c : BitVec 4) : cmdCode (fieldAt 32 0 c) = c := by
  apply BitVec.eq_of_getLsbD_eq
  intro i hi
  have h : i < 32 := by omega
  simp [cmdCode, hi, h]

@[simp] theorem beatKindBits_beatBits (k : BitVec 2) (pl : BitVec 16) :
    beatKindBits (beatBits k pl) = k := by
  apply BitVec.eq_of_getLsbD_eq
  intro i hi
  have h : 16 + i < 18 := by omega
  simp [beatKindBits, beatBits, hi, h]

@[simp] theorem beatLen_beatBits (k : BitVec 2) (pl : BitVec 16) : beatLen (beatBits k pl) = pl := by
  apply BitVec.eq_of_getLsbD_eq
  intro i hi
  have h : i < 18 := by omega
  have h' : ¬ 16 ≤ i := by omega
  simp [beatLen, beatBits, hi, h, h']

@[simp] theorem beatByte_beatBits (k : BitVec 2) (b : Byte) :
    beatByte (beatBits k (fieldAt 16 0 b)) = b := by
  apply BitVec.eq_of_getLsbD_eq
  intro i hi
  have h : i < 18 := by omega
  have h' : ¬ 16 ≤ i := by omega
  have h'' : i < 16 := by omega
  simp [beatByte, beatBits, hi, h, h', h'']

/-- Every Format I word is its two fields. -/
theorem beatBits_fields (w : BitVec 18) : beatBits (beatKindBits w) (beatLen w) = w := by
  apply BitVec.eq_of_getLsbD_eq
  intro i hi
  simp only [beatBits, beatKindBits, beatLen, BitVec.getLsbD_or, getLsbD_fieldAt,
    BitVec.getLsbD_extractLsb']
  by_cases h1 : i < 16
  · have h2 : ¬ 16 ≤ i := by omega
    simp [h1, h2, hi]
  · have e : 16 + (i - 16) = i := by omega
    have h2 : i - 16 < 2 := by omega
    have h3 : 16 ≤ i := by omega
    simp [h1, h2, h3, hi, e]

/-- Everything a command code can select (R86, R113). -/
theorem decodeCmd_cases (v : Word) :
    (cmdCode v = 1#4 ∧ decodeCmd v = .commit) ∨ (cmdCode v = 2#4 ∧ decodeCmd v = .stop) ∨
    (cmdCode v = 3#4 ∧ decodeCmd v = .abort) ∨ (cmdCode v = 4#4 ∧ decodeCmd v = .srst) ∨
    (commandCode (cmdCode v) = false ∧ decodeCmd v = .cmdRsvd (cmdCode v)) := by
  unfold decodeCmd
  generalize cmdCode v = c
  revert c
  decide

/-- What each kind of beat decodes to (R82). -/
theorem decodeBeat_of_kind (w : BitVec 18) : decodeBeat w =
    match beatKind w with
    | .data => .data (beatByte w)
    | .msgEnd => .msgEnd
    | .head => .head (beatLen w)
    | .rsvd => .rsvd := rfl

end Sys2Proof
end

