-- ==== Sys2Proof/Laws/State.lean ====
section
/-! SUPPORT. One lemma for each field and each named update of a state. -/

namespace Sys2Proof.Machine

open Sys2Proof

/-! ### setLc -/

section
variable (d : Dev) (x : LC)

@[simp] theorem Dev.setLc_lc : (d.setLc x).lc = x := rfl
@[simp] theorem Dev.setLc_flags : (d.setLc x).flags = d.flags := rfl
@[simp] theorem Dev.setLc_ien : (d.setLc x).ien = d.ien := rfl
@[simp] theorem Dev.setLc_conf : (d.setLc x).conf = d.conf := rfl
@[simp] theorem Dev.setLc_ferrcnt : (d.setLc x).ferrcnt = d.ferrcnt := rfl
@[simp] theorem Dev.setLc_framecnt : (d.setLc x).framecnt = d.framecnt := rfl
@[simp] theorem Dev.setLc_mq : (d.setLc x).mq = d.mq := rfl
@[simp] theorem Dev.setLc_fbc : (d.setLc x).fbc = d.fbc := rfl
@[simp] theorem Dev.setLc_bch : (d.setLc x).bch = d.bch := rfl
@[simp] theorem Dev.setLc_brp : (d.setLc x).brp = d.brp := rfl
@[simp] theorem Dev.setLc_oq : (d.setLc x).oq = d.oq := rfl

end

/-! ### setFlags -/

section
variable (d : Dev) (x : Flags)

@[simp] theorem Dev.setFlags_lc : (d.setFlags x).lc = d.lc := rfl
@[simp] theorem Dev.setFlags_flags : (d.setFlags x).flags = x := rfl
@[simp] theorem Dev.setFlags_ien : (d.setFlags x).ien = d.ien := rfl
@[simp] theorem Dev.setFlags_conf : (d.setFlags x).conf = d.conf := rfl
@[simp] theorem Dev.setFlags_ferrcnt : (d.setFlags x).ferrcnt = d.ferrcnt := rfl
@[simp] theorem Dev.setFlags_framecnt : (d.setFlags x).framecnt = d.framecnt := rfl
@[simp] theorem Dev.setFlags_mq : (d.setFlags x).mq = d.mq := rfl
@[simp] theorem Dev.setFlags_fbc : (d.setFlags x).fbc = d.fbc := rfl
@[simp] theorem Dev.setFlags_bch : (d.setFlags x).bch = d.bch := rfl
@[simp] theorem Dev.setFlags_brp : (d.setFlags x).brp = d.brp := rfl
@[simp] theorem Dev.setFlags_oq : (d.setFlags x).oq = d.oq := rfl

end

/-! ### setIen -/

section
variable (d : Dev) (x : BitVec 6)

@[simp] theorem Dev.setIen_lc : (d.setIen x).lc = d.lc := rfl
@[simp] theorem Dev.setIen_flags : (d.setIen x).flags = d.flags := rfl
@[simp] theorem Dev.setIen_ien : (d.setIen x).ien = x := rfl
@[simp] theorem Dev.setIen_conf : (d.setIen x).conf = d.conf := rfl
@[simp] theorem Dev.setIen_ferrcnt : (d.setIen x).ferrcnt = d.ferrcnt := rfl
@[simp] theorem Dev.setIen_framecnt : (d.setIen x).framecnt = d.framecnt := rfl
@[simp] theorem Dev.setIen_mq : (d.setIen x).mq = d.mq := rfl
@[simp] theorem Dev.setIen_fbc : (d.setIen x).fbc = d.fbc := rfl
@[simp] theorem Dev.setIen_bch : (d.setIen x).bch = d.bch := rfl
@[simp] theorem Dev.setIen_brp : (d.setIen x).brp = d.brp := rfl
@[simp] theorem Dev.setIen_oq : (d.setIen x).oq = d.oq := rfl

end

/-! ### setConf -/

section
variable (d : Dev) (x : Conf)

@[simp] theorem Dev.setConf_lc : (d.setConf x).lc = d.lc := rfl
@[simp] theorem Dev.setConf_flags : (d.setConf x).flags = d.flags := rfl
@[simp] theorem Dev.setConf_ien : (d.setConf x).ien = d.ien := rfl
@[simp] theorem Dev.setConf_conf : (d.setConf x).conf = x := rfl
@[simp] theorem Dev.setConf_ferrcnt : (d.setConf x).ferrcnt = d.ferrcnt := rfl
@[simp] theorem Dev.setConf_framecnt : (d.setConf x).framecnt = d.framecnt := rfl
@[simp] theorem Dev.setConf_mq : (d.setConf x).mq = d.mq := rfl
@[simp] theorem Dev.setConf_fbc : (d.setConf x).fbc = d.fbc := rfl
@[simp] theorem Dev.setConf_bch : (d.setConf x).bch = d.bch := rfl
@[simp] theorem Dev.setConf_brp : (d.setConf x).brp = d.brp := rfl
@[simp] theorem Dev.setConf_oq : (d.setConf x).oq = d.oq := rfl

end

/-! ### setFerrcnt -/

section
variable (d : Dev) (x : Word)

@[simp] theorem Dev.setFerrcnt_lc : (d.setFerrcnt x).lc = d.lc := rfl
@[simp] theorem Dev.setFerrcnt_flags : (d.setFerrcnt x).flags = d.flags := rfl
@[simp] theorem Dev.setFerrcnt_ien : (d.setFerrcnt x).ien = d.ien := rfl
@[simp] theorem Dev.setFerrcnt_conf : (d.setFerrcnt x).conf = d.conf := rfl
@[simp] theorem Dev.setFerrcnt_ferrcnt : (d.setFerrcnt x).ferrcnt = x := rfl
@[simp] theorem Dev.setFerrcnt_framecnt : (d.setFerrcnt x).framecnt = d.framecnt := rfl
@[simp] theorem Dev.setFerrcnt_mq : (d.setFerrcnt x).mq = d.mq := rfl
@[simp] theorem Dev.setFerrcnt_fbc : (d.setFerrcnt x).fbc = d.fbc := rfl
@[simp] theorem Dev.setFerrcnt_bch : (d.setFerrcnt x).bch = d.bch := rfl
@[simp] theorem Dev.setFerrcnt_brp : (d.setFerrcnt x).brp = d.brp := rfl
@[simp] theorem Dev.setFerrcnt_oq : (d.setFerrcnt x).oq = d.oq := rfl

end

/-! ### setFramecnt -/

section
variable (d : Dev) (x : Word)

@[simp] theorem Dev.setFramecnt_lc : (d.setFramecnt x).lc = d.lc := rfl
@[simp] theorem Dev.setFramecnt_flags : (d.setFramecnt x).flags = d.flags := rfl
@[simp] theorem Dev.setFramecnt_ien : (d.setFramecnt x).ien = d.ien := rfl
@[simp] theorem Dev.setFramecnt_conf : (d.setFramecnt x).conf = d.conf := rfl
@[simp] theorem Dev.setFramecnt_ferrcnt : (d.setFramecnt x).ferrcnt = d.ferrcnt := rfl
@[simp] theorem Dev.setFramecnt_framecnt : (d.setFramecnt x).framecnt = x := rfl
@[simp] theorem Dev.setFramecnt_mq : (d.setFramecnt x).mq = d.mq := rfl
@[simp] theorem Dev.setFramecnt_fbc : (d.setFramecnt x).fbc = d.fbc := rfl
@[simp] theorem Dev.setFramecnt_bch : (d.setFramecnt x).bch = d.bch := rfl
@[simp] theorem Dev.setFramecnt_brp : (d.setFramecnt x).brp = d.brp := rfl
@[simp] theorem Dev.setFramecnt_oq : (d.setFramecnt x).oq = d.oq := rfl

end

/-! ### setMq -/

section
variable (d : Dev) (x : List Msg)

@[simp] theorem Dev.setMq_lc : (d.setMq x).lc = d.lc := rfl
@[simp] theorem Dev.setMq_flags : (d.setMq x).flags = d.flags := rfl
@[simp] theorem Dev.setMq_ien : (d.setMq x).ien = d.ien := rfl
@[simp] theorem Dev.setMq_conf : (d.setMq x).conf = d.conf := rfl
@[simp] theorem Dev.setMq_ferrcnt : (d.setMq x).ferrcnt = d.ferrcnt := rfl
@[simp] theorem Dev.setMq_framecnt : (d.setMq x).framecnt = d.framecnt := rfl
@[simp] theorem Dev.setMq_mq : (d.setMq x).mq = x := rfl
@[simp] theorem Dev.setMq_fbc : (d.setMq x).fbc = d.fbc := rfl
@[simp] theorem Dev.setMq_bch : (d.setMq x).bch = d.bch := rfl
@[simp] theorem Dev.setMq_brp : (d.setMq x).brp = d.brp := rfl
@[simp] theorem Dev.setMq_oq : (d.setMq x).oq = d.oq := rfl

end

/-! ### setFbc -/

section
variable (d : Dev) (x : Fbc)

@[simp] theorem Dev.setFbc_lc : (d.setFbc x).lc = d.lc := rfl
@[simp] theorem Dev.setFbc_flags : (d.setFbc x).flags = d.flags := rfl
@[simp] theorem Dev.setFbc_ien : (d.setFbc x).ien = d.ien := rfl
@[simp] theorem Dev.setFbc_conf : (d.setFbc x).conf = d.conf := rfl
@[simp] theorem Dev.setFbc_ferrcnt : (d.setFbc x).ferrcnt = d.ferrcnt := rfl
@[simp] theorem Dev.setFbc_framecnt : (d.setFbc x).framecnt = d.framecnt := rfl
@[simp] theorem Dev.setFbc_mq : (d.setFbc x).mq = d.mq := rfl
@[simp] theorem Dev.setFbc_fbc : (d.setFbc x).fbc = x := rfl
@[simp] theorem Dev.setFbc_bch : (d.setFbc x).bch = d.bch := rfl
@[simp] theorem Dev.setFbc_brp : (d.setFbc x).brp = d.brp := rfl
@[simp] theorem Dev.setFbc_oq : (d.setFbc x).oq = d.oq := rfl

end

/-! ### setBch -/

section
variable (d : Dev) (x : List BItem)

@[simp] theorem Dev.setBch_lc : (d.setBch x).lc = d.lc := rfl
@[simp] theorem Dev.setBch_flags : (d.setBch x).flags = d.flags := rfl
@[simp] theorem Dev.setBch_ien : (d.setBch x).ien = d.ien := rfl
@[simp] theorem Dev.setBch_conf : (d.setBch x).conf = d.conf := rfl
@[simp] theorem Dev.setBch_ferrcnt : (d.setBch x).ferrcnt = d.ferrcnt := rfl
@[simp] theorem Dev.setBch_framecnt : (d.setBch x).framecnt = d.framecnt := rfl
@[simp] theorem Dev.setBch_mq : (d.setBch x).mq = d.mq := rfl
@[simp] theorem Dev.setBch_fbc : (d.setBch x).fbc = d.fbc := rfl
@[simp] theorem Dev.setBch_bch : (d.setBch x).bch = x := rfl
@[simp] theorem Dev.setBch_brp : (d.setBch x).brp = d.brp := rfl
@[simp] theorem Dev.setBch_oq : (d.setBch x).oq = d.oq := rfl

end

/-! ### setBrp -/

section
variable (d : Dev) (x : Brp)

@[simp] theorem Dev.setBrp_lc : (d.setBrp x).lc = d.lc := rfl
@[simp] theorem Dev.setBrp_flags : (d.setBrp x).flags = d.flags := rfl
@[simp] theorem Dev.setBrp_ien : (d.setBrp x).ien = d.ien := rfl
@[simp] theorem Dev.setBrp_conf : (d.setBrp x).conf = d.conf := rfl
@[simp] theorem Dev.setBrp_ferrcnt : (d.setBrp x).ferrcnt = d.ferrcnt := rfl
@[simp] theorem Dev.setBrp_framecnt : (d.setBrp x).framecnt = d.framecnt := rfl
@[simp] theorem Dev.setBrp_mq : (d.setBrp x).mq = d.mq := rfl
@[simp] theorem Dev.setBrp_fbc : (d.setBrp x).fbc = d.fbc := rfl
@[simp] theorem Dev.setBrp_bch : (d.setBrp x).bch = d.bch := rfl
@[simp] theorem Dev.setBrp_brp : (d.setBrp x).brp = x := rfl
@[simp] theorem Dev.setBrp_oq : (d.setBrp x).oq = d.oq := rfl

end

/-! ### setOq -/

section
variable (d : Dev) (x : List SItem)

@[simp] theorem Dev.setOq_lc : (d.setOq x).lc = d.lc := rfl
@[simp] theorem Dev.setOq_flags : (d.setOq x).flags = d.flags := rfl
@[simp] theorem Dev.setOq_ien : (d.setOq x).ien = d.ien := rfl
@[simp] theorem Dev.setOq_conf : (d.setOq x).conf = d.conf := rfl
@[simp] theorem Dev.setOq_ferrcnt : (d.setOq x).ferrcnt = d.ferrcnt := rfl
@[simp] theorem Dev.setOq_framecnt : (d.setOq x).framecnt = d.framecnt := rfl
@[simp] theorem Dev.setOq_mq : (d.setOq x).mq = d.mq := rfl
@[simp] theorem Dev.setOq_fbc : (d.setOq x).fbc = d.fbc := rfl
@[simp] theorem Dev.setOq_bch : (d.setOq x).bch = d.bch := rfl
@[simp] theorem Dev.setOq_brp : (d.setOq x).brp = d.brp := rfl
@[simp] theorem Dev.setOq_oq : (d.setOq x).oq = x := rfl

end

/-! ### Updates of a whole state -/

section
variable (s : State) (x : Dev)

@[simp] theorem State.setDev_dev : (s.setDev x).dev = x := rfl
@[simp] theorem State.setDev_env : (s.setDev x).env = s.env := rfl
@[simp] theorem State.setDev_setDev (y : Dev) : (s.setDev x).setDev y = s.setDev y := rfl
@[simp] theorem State.setDev_self : s.setDev s.dev = s := rfl

end

section
variable (s : State)

@[simp] theorem State.takeTurn_dev : (s.takeTurn).dev = s.dev := rfl
@[simp] theorem State.takeTurn_params : (s.takeTurn).env.params = s.env.params := rfl
@[simp] theorem State.takeTurn_schedule : (s.takeTurn).env.schedule = s.env.schedule.tail := rfl
@[simp] theorem State.takeTurn_turnNo : (s.takeTurn).env.turnNo = s.env.turnNo + 1 := rfl
@[simp] theorem State.takeTurn_hostQ : (s.takeTurn).env.hostQ = s.env.hostQ := rfl
@[simp] theorem State.takeTurn_beatQ : (s.takeTurn).env.beatQ = s.env.beatQ := rfl
@[simp] theorem State.takeTurn_reads : (s.takeTurn).env.reads = s.env.reads := rfl
@[simp] theorem State.takeTurn_delivered : (s.takeTurn).env.delivered = s.env.delivered := rfl
@[simp] theorem State.takeTurn_mapResult : (s.takeTurn).env.mapResult = s.env.mapResult := rfl

end

section
variable (s : State) (x : List (BitVec 37))

@[simp] theorem State.setHostQ_dev : (s.setHostQ x).dev = s.dev := rfl
@[simp] theorem State.setHostQ_params : (s.setHostQ x).env.params = s.env.params := rfl
@[simp] theorem State.setHostQ_schedule : (s.setHostQ x).env.schedule = s.env.schedule := rfl
@[simp] theorem State.setHostQ_turnNo : (s.setHostQ x).env.turnNo = s.env.turnNo := rfl
@[simp] theorem State.setHostQ_hostQ : (s.setHostQ x).env.hostQ = x := rfl
@[simp] theorem State.setHostQ_beatQ : (s.setHostQ x).env.beatQ = s.env.beatQ := rfl
@[simp] theorem State.setHostQ_reads : (s.setHostQ x).env.reads = s.env.reads := rfl
@[simp] theorem State.setHostQ_delivered : (s.setHostQ x).env.delivered = s.env.delivered := rfl
@[simp] theorem State.setHostQ_mapResult : (s.setHostQ x).env.mapResult = s.env.mapResult := rfl

end

section
variable (s : State) (x : List (BitVec 18))

@[simp] theorem State.setBeatQ_dev : (s.setBeatQ x).dev = s.dev := rfl
@[simp] theorem State.setBeatQ_params : (s.setBeatQ x).env.params = s.env.params := rfl
@[simp] theorem State.setBeatQ_schedule : (s.setBeatQ x).env.schedule = s.env.schedule := rfl
@[simp] theorem State.setBeatQ_turnNo : (s.setBeatQ x).env.turnNo = s.env.turnNo := rfl
@[simp] theorem State.setBeatQ_hostQ : (s.setBeatQ x).env.hostQ = s.env.hostQ := rfl
@[simp] theorem State.setBeatQ_beatQ : (s.setBeatQ x).env.beatQ = x := rfl
@[simp] theorem State.setBeatQ_reads : (s.setBeatQ x).env.reads = s.env.reads := rfl
@[simp] theorem State.setBeatQ_delivered : (s.setBeatQ x).env.delivered = s.env.delivered := rfl
@[simp] theorem State.setBeatQ_mapResult : (s.setBeatQ x).env.mapResult = s.env.mapResult := rfl

end

section
variable (s : State) (x : Word)

@[simp] theorem State.returnRead_dev : (s.returnRead x).dev = s.dev := rfl
@[simp] theorem State.returnRead_params : (s.returnRead x).env.params = s.env.params := rfl
@[simp] theorem State.returnRead_schedule : (s.returnRead x).env.schedule = s.env.schedule := rfl
@[simp] theorem State.returnRead_turnNo : (s.returnRead x).env.turnNo = s.env.turnNo := rfl
@[simp] theorem State.returnRead_hostQ : (s.returnRead x).env.hostQ = s.env.hostQ := rfl
@[simp] theorem State.returnRead_beatQ : (s.returnRead x).env.beatQ = s.env.beatQ := rfl
@[simp] theorem State.returnRead_reads : (s.returnRead x).env.reads = s.env.reads ++ [x] := rfl
@[simp] theorem State.returnRead_delivered : (s.returnRead x).env.delivered = s.env.delivered := rfl
@[simp] theorem State.returnRead_mapResult : (s.returnRead x).env.mapResult = s.env.mapResult := rfl

end

section
variable (s : State) (x : SItem)

@[simp] theorem State.deliver_dev : (s.deliver x).dev = s.dev := rfl
@[simp] theorem State.deliver_params : (s.deliver x).env.params = s.env.params := rfl
@[simp] theorem State.deliver_schedule : (s.deliver x).env.schedule = s.env.schedule := rfl
@[simp] theorem State.deliver_turnNo : (s.deliver x).env.turnNo = s.env.turnNo := rfl
@[simp] theorem State.deliver_hostQ : (s.deliver x).env.hostQ = s.env.hostQ := rfl
@[simp] theorem State.deliver_beatQ : (s.deliver x).env.beatQ = s.env.beatQ := rfl
@[simp] theorem State.deliver_reads : (s.deliver x).env.reads = s.env.reads := rfl
@[simp] theorem State.deliver_delivered : (s.deliver x).env.delivered = s.env.delivered ++ [x] := rfl
@[simp] theorem State.deliver_mapResult : (s.deliver x).env.mapResult = s.env.mapResult := rfl

end

section
variable (s : State) (x : Word)

@[simp] theorem State.returnMap_dev : (s.returnMap x).dev = s.dev := rfl
@[simp] theorem State.returnMap_params : (s.returnMap x).env.params = s.env.params := rfl
@[simp] theorem State.returnMap_schedule : (s.returnMap x).env.schedule = s.env.schedule := rfl
@[simp] theorem State.returnMap_turnNo : (s.returnMap x).env.turnNo = s.env.turnNo := rfl
@[simp] theorem State.returnMap_hostQ : (s.returnMap x).env.hostQ = s.env.hostQ := rfl
@[simp] theorem State.returnMap_beatQ : (s.returnMap x).env.beatQ = s.env.beatQ := rfl
@[simp] theorem State.returnMap_reads : (s.returnMap x).env.reads = s.env.reads := rfl
@[simp] theorem State.returnMap_delivered : (s.returnMap x).env.delivered = s.env.delivered := rfl
@[simp] theorem State.returnMap_mapResult : (s.returnMap x).env.mapResult = some x := rfl

end

end Sys2Proof.Machine
end

