-- ==== Sys2Proof/Laws/Ops.lean ====
section
/-! SUPPORT. What each shared operation does: arithmetic, flags, errors, queues, guards, outcomes. -/

namespace Sys2Proof.Machine

open Sys2Proof

/-! ### Counting (R13) -/

/-- `sat32` stays at its top. -/
theorem satInc32_toNat (v : Word) : (satInc32 v).toNat = min (v.toNat + 1) 0xFFFFFFFF := by
  simp only [satInc32, BitVec.toNat_ofNat]
  omega

theorem satInc32_eq (v : Word) :
    satInc32 v = if v = 0xFFFFFFFF#32 then 0xFFFFFFFF#32 else v + 1#32 := by
  apply BitVec.eq_of_toNat_eq
  rw [satInc32_toNat]
  have hv := v.isLt
  split
  · rename_i h; subst h; rfl
  · rename_i h
    have : v.toNat ≠ 0xFFFFFFFF := fun e => h (BitVec.eq_of_toNat_eq e)
    simp only [BitVec.toNat_add, BitVec.toNat_ofNat]
    omega

theorem satIncCnt_toNat (v : BitVec 17) : (satIncCnt v).toNat = min (v.toNat + 1) 65536 := by
  simp only [satIncCnt, Config.cntMax, BitVec.toNat_ofNat]
  omega

theorem decCnt_toNat {n : Nat} (v : BitVec n) : (decCnt v).toNat = v.toNat - 1 := by
  have := v.isLt
  simp only [decCnt, BitVec.toNat_ofNat]
  exact Nat.mod_eq_of_lt (by omega)

/-- Above 0 a decrement is a subtraction. -/
theorem decCnt_eq_sub {n : Nat} (v : BitVec n) (h : 1 ≤ v.toNat) : decCnt v = v - 1#n := by
  apply BitVec.eq_of_toNat_eq
  have hv := v.isLt
  have h2 : 1 < 2 ^ n := by omega
  rw [decCnt_toNat, BitVec.toNat_sub, BitVec.toNat_ofNat, Nat.mod_eq_of_lt h2]
  have : 2 ^ n - 1 + v.toNat = (v.toNat - 1) + 2 ^ n := by omega
  rw [this, Nat.add_mod_right, Nat.mod_eq_of_lt (by omega)]

/-- The tag does not overflow (R13 (a), R35). -/
theorem Conf.tagFor_toNat (c : Conf) (n : BitVec 16) :
    (c.tagFor n).toNat = c.preCount.toNat + c.syncLen.toNat + n.toNat := by
  have h1 := c.preCount.isLt
  have h2 := c.syncLen.isLt
  have h3 := n.isLt
  simp only [Conf.tagFor, Conf.preLen, Conf.syncLenNat, BitVec.toNat_ofNat]
  omega

theorem Conf.legal_iff (c : Conf) :
    c.legal = true ↔ c.mode = 1#4 ∧ c.scr.toNat ≤ 1 ∧ c.syncLen.toNat ≤ 8 := by
  have h : c.scr.toNat ≤ 1 ↔ (c.scr == 2#2 || c.scr == 3#2) = false := by
    generalize c.scr = x; revert x; decide
  have hs : c.syncBad = false ↔ c.syncLen.toNat ≤ 8 := decide_eq_false_iff_not.trans Nat.not_lt
  rw [h, ← hs]
  simp [Conf.legal, Conf.modeOk, Conf.scrBad, and_assoc]

/-! ### Flags and errors (R22, R200) -/

theorem Flags.bits_getLsbD (f : Flags) :
    f.bits.getLsbD 0 = f.cfgErr ∧ f.bits.getLsbD 1 = f.unsupErr ∧ f.bits.getLsbD 2 = f.framingErr ∧
    f.bits.getLsbD 3 = f.alignErr ∧ f.bits.getLsbD 4 = f.protoErr ∧ f.bits.getLsbD 5 = f.accErr := by
  obtain ⟨a, b, c, d, e, g⟩ := f
  revert a b c d e g
  decide

section
variable (e : Err) (d : Dev)

@[simp] theorem raise_ien : (raise e d).ien = d.ien := by cases e <;> rfl
@[simp] theorem raise_conf : (raise e d).conf = d.conf := by cases e <;> rfl
@[simp] theorem raise_framecnt : (raise e d).framecnt = d.framecnt := by cases e <;> rfl
@[simp] theorem raise_mq : (raise e d).mq = d.mq := by cases e <;> rfl
@[simp] theorem raise_fbc : (raise e d).fbc = d.fbc := by cases e <;> rfl
@[simp] theorem raise_bch : (raise e d).bch = d.bch := by cases e <;> rfl
@[simp] theorem raise_brp : (raise e d).brp = d.brp := by cases e <;> rfl
@[simp] theorem raise_oq : (raise e d).oq = d.oq := by cases e <;> rfl

/-- Only AlignmentError changes `LC` (R209). -/
theorem raise_lc : (raise e d).lc = if e = .alignment then .halt else d.lc := by cases e <;> rfl

/-- Only FramingError counts (R211). -/
theorem raise_ferrcnt : (raise e d).ferrcnt = if e = .framing then satInc32 d.ferrcnt else d.ferrcnt := by
  cases e <;> rfl

/-- An error sets its own flag and leaves the five others (R211). -/
theorem raise_flags : (raise e d).flags =
    { cfgErr := d.flags.cfgErr || decide (e = .configuration)
      unsupErr := d.flags.unsupErr || decide (e = .unsupportedMode)
      framingErr := d.flags.framingErr || decide (e = .framing)
      alignErr := d.flags.alignErr || decide (e = .alignment)
      protoErr := d.flags.protoErr || decide (e = .protocol)
      accErr := d.flags.accErr || decide (e = .access) } := by
  cases e <;> simp [raise]

end

/-! ### The newest record (R130) -/

/-- `open`: the newest record, when it is not closed. -/
theorem openMsg_eq_some {q : List Msg} {r : Msg} :
    openMsg q = some r ↔ q = q.dropLast ++ [r] ∧ r.closed = false := by
  rcases List.eq_nil_or_concat q with rfl | ⟨l, x, rfl⟩
  · simp [openMsg]
  · simp only [openMsg, List.concat_eq_append, List.getLast?_append, List.getLast?_singleton,
      Option.some_or, List.dropLast_concat, List.append_cancel_left_eq]
    cases hx : x.closed <;> simp
    · rintro rfl; exact hx
    · rintro rfl; exact hx

theorem openMsg_append {l : List Msg} {r : Msg} :
    openMsg (l ++ [r]) = if r.closed then none else some r := by
  simp [openMsg]

/-- No record is open exactly when there is none, or the newest is closed. -/
theorem openMsg_eq_none {q : List Msg} :
    openMsg q = none ↔ ∀ l r, q = l ++ [r] → r.closed = true := by
  constructor
  · rintro h l r rfl
    rw [openMsg_append] at h
    cases hr : r.closed
    · simp [hr] at h
    · rfl
  · intro h
    rcases List.eq_nil_or_concat q with rfl | ⟨l, x, rfl⟩
    · rfl
    · rw [List.concat_eq_append] at h ⊢
      rw [openMsg_append, h l x rfl]
      rfl

@[simp] theorem setLast_append (l : List Msg) (r r' : Msg) : setLast (l ++ [r]) r' = l ++ [r'] := by
  simp [setLast]

@[simp] theorem usedBytes_nil : usedBytes [] = 0 := rfl

@[simp] theorem usedBytes_cons (r : Msg) (q : List Msg) :
    usedBytes (r :: q) = r.data.length + usedBytes q := by
  simp [usedBytes]

@[simp] theorem usedBytes_append (q q' : List Msg) :
    usedBytes (q ++ q') = usedBytes q + usedBytes q' := by
  simp [usedBytes]

theorem Msg.good_iff (r : Msg) : r.good = true ↔ r.cnt.toNat = r.decl.toNat := by
  simp [Msg.good]

/-! ### Guards -/

theorem Dev.moving_iff (d : Dev) : d.moving = true ↔ d.lc = .run ∨ d.lc = .drain := by
  simp [Dev.moving]

theorem closedHead_eq_some {q : List Msg} {r : Msg} :
    closedHead q = some r ↔ ∃ rest, q = r :: rest ∧ r.closed = true := by
  cases q with
  | nil => simp [closedHead]
  | cons x rest =>
    simp only [closedHead]
    cases hx : x.closed <;> simp
    · rintro rfl; simp [hx]
    · rintro rfl; exact hx

theorem dropEnabled_iff (d : Dev) : dropEnabled d = true ↔
    (d.lc = .run ∨ d.lc = .drain) ∧ d.fbc.phase = .idle ∧
      ∃ r rest, d.mq = r :: rest ∧ r.closed = true ∧ r.cnt.toNat ≠ r.decl.toNat := by
  simp only [dropEnabled, Bool.and_eq_true, Dev.moving_iff, beq_iff_eq, and_assoc]
  refine and_congr_right fun _ => and_congr_right fun _ => ?_
  cases h : closedHead d.mq with
  | none =>
    simp only [Bool.false_eq_true, false_iff]
    rintro ⟨r, rest, hq, hc, -⟩
    have := closedHead_eq_some.mpr ⟨rest, hq, hc⟩
    rw [h] at this
    cases this
  | some r =>
    obtain ⟨rest, hq, hc⟩ := closedHead_eq_some.mp h
    simp [hq, hc, Msg.good]

theorem startEnabled_iff (d : Dev) : startEnabled d = true ↔
    (d.lc = .run ∨ d.lc = .drain) ∧ d.fbc.phase = .idle ∧
      ∃ r rest, d.mq = r :: rest ∧ r.closed = true ∧ r.cnt.toNat = r.decl.toNat := by
  simp only [startEnabled, Bool.and_eq_true, Dev.moving_iff, beq_iff_eq, and_assoc]
  refine and_congr_right fun _ => and_congr_right fun _ => ?_
  cases h : closedHead d.mq with
  | none =>
    simp only [Bool.false_eq_true, false_iff]
    rintro ⟨r, rest, hq, hc, -⟩
    have := closedHead_eq_some.mpr ⟨rest, hq, hc⟩
    rw [h] at this
    cases this
  | some r =>
    obtain ⟨rest, hq, hc⟩ := closedHead_eq_some.mp h
    simp [hq, hc, Msg.good]

theorem emitEnabled_iff (p : Params) (ph : Phase) (d : Dev) : emitEnabled p ph d = true ↔
    (d.lc = .run ∨ d.lc = .drain) ∧ d.fbc.phase = ph ∧ d.bch.length < p.bcap := by
  simp [emitEnabled, Dev.moving_iff, and_assoc]

theorem drainDoneEnabled_iff (d : Dev) : drainDoneEnabled d = true ↔
    d.lc = .drain ∧ d.mq = [] ∧ d.fbc.phase = .idle ∧ d.bch = [] ∧ d.brp.cnt = 0#4 ∧ d.oq = [] := by
  simp [drainDoneEnabled, and_assoc]

theorem loadEnabled_iff (d : Dev) : loadEnabled d = true ↔
    (d.lc = .run ∨ d.lc = .drain) ∧ d.brp.cnt = 0#4 ∧ d.bch ≠ [] := by
  simp [loadEnabled, Dev.moving_iff, and_assoc]

theorem shiftEnabled_iff (p : Params) (d : Dev) : shiftEnabled p d = true ↔
    (d.lc = .run ∨ d.lc = .drain) ∧ d.brp.cnt ≠ 0#4 ∧ d.oq.length < p.ocap := by
  simp [shiftEnabled, Dev.moving_iff, and_assoc]

/-- Outside RUN no beat is accepted (R130). -/
theorem inReady_of_not_run {d : Dev} (p : Params) (k : BeatKind) (h : d.lc ≠ .run) :
    inReady p d k = false := by
  simp [inReady, h]

section
variable {d : Dev} (p : Params) (h : d.lc = .run)
include h

theorem inReady_head :
    inReady p d .head = ((openMsg d.mq).isSome || decide (d.mq.length < p.qmsgs)) := by
  simp [inReady, h]

theorem inReady_data_open {r : Msg} (ho : openMsg d.mq = some r) : inReady p d .data =
    if r.cnt.toNat < r.decl.toNat then decide (usedBytes d.mq < p.qbytes) else true := by
  simp [inReady, h, ho]

theorem inReady_data_none (ho : openMsg d.mq = none) : inReady p d .data = true := by
  simp [inReady, h, ho]

theorem inReady_msgEnd : inReady p d .msgEnd = true := by simp [inReady, h]

theorem inReady_rsvd : inReady p d .rsvd = true := by simp [inReady, h]

end

/-- An accepted beat shows RUN. -/
theorem run_of_inReady {p : Params} {d : Dev} {k : BeatKind} (h : inReady p d k = true) : d.lc = .run := by
  by_contra hne
  rw [inReady_of_not_run p k hne] at h
  cases h

/-! ### Outcomes -/

@[simp] theorem toDev_eq (s : State) (d : Dev) : toDev s d = .next (s.setDev d) := rfl

@[simp] theorem wait_eq (s : State) : wait s = .next s := rfl

@[simp] theorem ofDev_ok (s : State) (d : Dev) : ofDev s (.ok d) = .next (s.setDev d) := rfl

@[simp] theorem ofDev_error (s : State) (f : Fault) : ofDev s (.error f) = .fault f := rfl

/-- A device operation answers a next state only when it gives a device. -/
theorem ofDev_next {s t : State} {r : Except Fault Dev} (h : ofDev s r = .next t) :
    ∃ d, r = .ok d ∧ t = s.setDev d := by
  cases r with
  | ok d => exact ⟨d, rfl, by cases h; rfl⟩
  | error f => cases h

@[simp] theorem refuseAccess_eq (s : State) : refuseAccess s = .next (s.setDev (raise .access s.dev)) :=
  rfl

/-- A configuration write stores in UNCONF and is refused elsewhere (R119). -/
theorem writeConf_eq (s : State) (c : Conf) : writeConf s c =
    .next (s.setDev (if s.dev.lc = .unconf then s.dev.setConf c else raise .access s.dev)) := by
  simp only [writeConf]
  split <;> rfl

@[simp] theorem resetDev_dev (s : State) : (resetDev s).dev = Dev.reset := rfl

@[simp] theorem resetDev_env (s : State) : (resetDev s).env = s.env := rfl

end Sys2Proof.Machine
end

