-- ==== Sys2Proof/Laws/Framer.lean ====
section
/-! SUPPORT. What the helpers of FBC (spec/42_fbc_ops.md R156) and its operations do. -/

namespace Sys2Proof.Machine

open Sys2Proof

section
variable (b : Byte) (d : Dev) (rest : List Msg) (ph : Phase) (n : BitVec 16)

@[simp] theorem pushByte_lc : (pushByte b d).lc = d.lc := rfl
@[simp] theorem pushByte_flags : (pushByte b d).flags = d.flags := rfl
@[simp] theorem pushByte_ien : (pushByte b d).ien = d.ien := rfl
@[simp] theorem pushByte_conf : (pushByte b d).conf = d.conf := rfl
@[simp] theorem pushByte_ferrcnt : (pushByte b d).ferrcnt = d.ferrcnt := rfl
@[simp] theorem pushByte_framecnt : (pushByte b d).framecnt = d.framecnt := rfl
@[simp] theorem pushByte_mq : (pushByte b d).mq = d.mq := rfl
@[simp] theorem pushByte_bch : (pushByte b d).bch = d.bch ++ [emitItem d.fbc b] := rfl
@[simp] theorem pushByte_brp : (pushByte b d).brp = d.brp := rfl
@[simp] theorem pushByte_oq : (pushByte b d).oq = d.oq := rfl
@[simp] theorem pushByte_fbc :
    (pushByte b d).fbc = { d.fbc with sof := false, cnt := decCnt d.fbc.cnt } := rfl

@[simp] theorem enterPhase_lc : (enterPhase ph n d).lc = d.lc := rfl
@[simp] theorem enterPhase_flags : (enterPhase ph n d).flags = d.flags := rfl
@[simp] theorem enterPhase_ien : (enterPhase ph n d).ien = d.ien := rfl
@[simp] theorem enterPhase_conf : (enterPhase ph n d).conf = d.conf := rfl
@[simp] theorem enterPhase_ferrcnt : (enterPhase ph n d).ferrcnt = d.ferrcnt := rfl
@[simp] theorem enterPhase_framecnt : (enterPhase ph n d).framecnt = d.framecnt := rfl
@[simp] theorem enterPhase_mq : (enterPhase ph n d).mq = d.mq := rfl
@[simp] theorem enterPhase_bch : (enterPhase ph n d).bch = d.bch := rfl
@[simp] theorem enterPhase_brp : (enterPhase ph n d).brp = d.brp := rfl
@[simp] theorem enterPhase_oq : (enterPhase ph n d).oq = d.oq := rfl
@[simp] theorem enterPhase_fbc : (enterPhase ph n d).fbc = { d.fbc with phase := ph, cnt := n } := rfl

@[simp] theorem finished_lc : (finished rest d).lc = d.lc := rfl
@[simp] theorem finished_flags : (finished rest d).flags = d.flags := rfl
@[simp] theorem finished_ien : (finished rest d).ien = d.ien := rfl
@[simp] theorem finished_conf : (finished rest d).conf = d.conf := rfl
@[simp] theorem finished_ferrcnt : (finished rest d).ferrcnt = d.ferrcnt := rfl
@[simp] theorem finished_framecnt : (finished rest d).framecnt = satInc32 d.framecnt := rfl
@[simp] theorem finished_mq : (finished rest d).mq = rest := rfl
@[simp] theorem finished_bch : (finished rest d).bch = d.bch := rfl
@[simp] theorem finished_brp : (finished rest d).brp = d.brp := rfl
@[simp] theorem finished_oq : (finished rest d).oq = d.oq := rfl
@[simp] theorem finished_fbc :
    (finished rest d).fbc = { d.fbc with phase := .idle, cnt := 0#16, sof := false } := rfl

end

/-- The syncword length survives the move into `FB_CNT`. -/
theorem Conf.syncLen_in_cnt (c : Conf) : (BitVec.ofNat 16 c.syncLenNat).toNat = c.syncLenNat := by
  have := c.syncLen.isLt
  simp only [Conf.syncLenNat, BitVec.toNat_ofNat]
  omega

theorem finish_cons {d : Dev} {r : Msg} {rest : List Msg} (h : d.mq = r :: rest) :
    finish d = .ok (finished rest d) := by
  simp [finish, h]

/-- Into SYNC: only from PRE, when there is a syncword. -/
theorem advance_to_sync {d : Dev} (h : 0 < d.conf.syncLenNat) :
    advance .pre d = .ok (enterPhase .sync (BitVec.ofNat 16 d.conf.syncLenNat) d) := by
  simp [advance, h]

/-- Into PAY: from PRE with no syncword, or from SYNC, when there is a payload. -/
theorem advance_to_pay {p : Phase} {d : Dev} {r : Msg} {rest : List Msg} (hq : d.mq = r :: rest)
    (hp : p ≠ .pay) (hs : p = .pre → d.conf.syncLenNat = 0) (hl : 0 < r.decl.toNat) :
    advance p d = .ok (enterPhase .pay r.decl d) := by
  have h : ¬ (p = .pre ∧ 0 < d.conf.syncLenNat) := by
    rintro ⟨rfl, h⟩; have := hs rfl; omega
  simp [advance, h, hq, hp, hl]

/-- To the end: from PAY, or with nothing left to enter. -/
theorem advance_to_finish {p : Phase} {d : Dev} {r : Msg} {rest : List Msg} (hq : d.mq = r :: rest)
    (hs : p = .pre → d.conf.syncLenNat = 0) (hl : p = .pay ∨ r.decl.toNat = 0) :
    advance p d = .ok (finished rest d) := by
  have h : ¬ (p = .pre ∧ 0 < d.conf.syncLenNat) := by
    rintro ⟨rfl, h⟩; have := hs rfl; omega
  have h' : ¬ (p ≠ .pay ∧ 0 < r.decl.toNat) := by
    rintro ⟨h1, h2⟩; rcases hl with hl | hl
    · exact h1 hl
    · omega
  simp [advance, h, h', hq, finish]

/-- Everything `advance` can do. -/
theorem advance_cases {p : Phase} {d d' : Dev} (h : advance p d = .ok d') :
    (p = .pre ∧ 0 < d.conf.syncLenNat ∧
      d' = enterPhase .sync (BitVec.ofNat 16 d.conf.syncLenNat) d) ∨
    (∃ r rest, d.mq = r :: rest ∧ p ≠ .pay ∧ (p = .pre → d.conf.syncLenNat = 0) ∧ 0 < r.decl.toNat ∧
      d' = enterPhase .pay r.decl d) ∨
    (∃ r rest, d.mq = r :: rest ∧ (p = .pre → d.conf.syncLenNat = 0) ∧
      (p = .pay ∨ r.decl.toNat = 0) ∧ d' = finished rest d) := by
  by_cases h1 : p = .pre ∧ 0 < d.conf.syncLenNat
  · obtain ⟨rfl, hs⟩ := h1
    rw [advance_to_sync hs] at h
    exact .inl ⟨rfl, hs, by cases h; rfl⟩
  · have hs : p = .pre → d.conf.syncLenNat = 0 := fun e => by
      by_contra hne; exact h1 ⟨e, by omega⟩
    cases hq : d.mq with
    | nil => simp [advance, h1, hq] at h
    | cons r rest =>
      by_cases h2 : p ≠ .pay ∧ 0 < r.decl.toNat
      · rw [advance_to_pay hq h2.1 hs h2.2] at h
        exact .inr (.inl ⟨r, rest, rfl, h2.1, hs, h2.2, by cases h; rfl⟩)
      · have hl : p = .pay ∨ r.decl.toNat = 0 := by
          by_cases hp : p = .pay
          · exact .inl hp
          · exact .inr (by by_contra hne; exact h2 ⟨hp, by omega⟩)
        rw [advance_to_finish hq hs hl] at h
        exact .inr (.inr ⟨r, rest, rfl, hs, hl, by cases h; rfl⟩)

/-- `advance` meets no step without a meaning while `MQ` has a head. -/
theorem advance_ok {p : Phase} {d : Dev} {r : Msg} {rest : List Msg} (hq : d.mq = r :: rest) :
    ∃ d', advance p d = .ok d' := by
  unfold advance
  split
  · exact ⟨_, rfl⟩
  · rw [hq]
    simp only
    split
    · exact ⟨_, rfl⟩
    · exact ⟨_, finish_cons hq⟩

/-- Everything `emit` can do: the byte is pushed, and the phase goes on or ends. -/
theorem emit_cases {b : Byte} {d d' : Dev} (h : emit b d = .ok d') :
    (d.fbc.cnt.toNat ≤ 1 ∧ advance d.fbc.phase (pushByte b d) = .ok d') ∨
    (2 ≤ d.fbc.cnt.toNat ∧ d' = pushByte b d) := by
  have hz : (pushByte b d).fbc.cnt = 0#16 ↔ d.fbc.cnt.toNat ≤ 1 := by
    have := decCnt_toNat d.fbc.cnt
    constructor
    · intro e
      have : (decCnt d.fbc.cnt).toNat = 0 := by rw [show decCnt d.fbc.cnt = 0#16 from e]; rfl
      omega
    · intro e
      exact BitVec.eq_of_toNat_eq (by simp only [pushByte_fbc]; rw [this]; simp; omega)
  unfold emit at h
  split at h
  · rename_i e; exact .inl ⟨hz.mp e, h⟩
  · rename_i e
    refine .inr ⟨?_, by cases h; rfl⟩
    by_contra hne
    exact e (hz.mpr (by omega))

theorem emit_last {b : Byte} {d : Dev} (h : d.fbc.cnt.toNat ≤ 1) :
    emit b d = advance d.fbc.phase (pushByte b d) := by
  have : (pushByte b d).fbc.cnt = 0#16 :=
    BitVec.eq_of_toNat_eq (by simp only [pushByte_fbc, decCnt_toNat]; simp; omega)
  simp only [emit, this, if_true]

theorem emit_more {b : Byte} {d : Dev} (h : 2 ≤ d.fbc.cnt.toNat) : emit b d = .ok (pushByte b d) := by
  have : (pushByte b d).fbc.cnt ≠ 0#16 := by
    intro e
    have h1 := decCnt_toNat d.fbc.cnt
    rw [show decCnt d.fbc.cnt = 0#16 from e] at h1
    simp at h1
    omega
  simp only [emit, this, if_false]

/-- `emit` meets no step without a meaning while `MQ` has a head. -/
theorem emit_ok {b : Byte} {d : Dev} {r : Msg} {rest : List Msg} (hq : d.mq = r :: rest) :
    ∃ d', emit b d = .ok d' := by
  unfold emit
  split
  · exact advance_ok (d := pushByte b d) (by simpa using hq)
  · exact ⟨_, rfl⟩

/-- START: the first phase that has a byte. -/
theorem startDev_eq {r : Msg} {d : Dev} : startDev r d =
    (if 0 < d.conf.preLen then
      .ok (enterPhase .pre d.conf.preCount
        (d.setFbc { d.fbc with sof := true, tag := d.conf.tagFor r.decl }))
    else advance .pre (d.setFbc { d.fbc with sof := true, tag := d.conf.tagFor r.decl })) := rfl

end Sys2Proof.Machine
end

