-- ==== Sys2Proof/Laws/Step.lean ====
section
/-! SUPPORT. What a step can be, and what no operation touches. -/

namespace Sys2Proof.Machine

open Sys2Proof

@[simp] theorem State.giveTurn_dev (s : State) (t : Turn) : (s.giveTurn t).dev = s.dev := rfl

@[simp] theorem State.giveTurn_nextTurn (s : State) (t : Turn) : (s.giveTurn t).nextTurn = t := rfl

/-- Taking the turn just given gives the schedule back. -/
@[simp] theorem State.giveTurn_takeTurn (s : State) (t : Turn) : (s.giveTurn t).takeTurn =
    { s with env := { s.env with turnNo := s.env.turnNo + 1 } } := rfl

/-- Everything a step can be: a wait, a reset, or the operation of the agent whose turn it is. -/
theorem step_cases {s t : State} (h : step s = .next t) :
    (fetch s.nextTurn s.takeTurn = .wait ∧ t = s.takeTurn) ∨
    (s.nextTurn = .rst ∧ t = resetDev s.takeTurn) ∨
    (∃ i u, fetch s.nextTurn s.takeTurn = .run i u ∧ exec i u = .next t) := by
  unfold step at h
  split at h
  · rename_i e; exact .inl ⟨e, by cases h; rfl⟩
  · rename_i e
    refine .inr (.inl ⟨?_, by cases h; rfl⟩)
    revert e
    cases s.nextTurn <;> simp only [fetch, fetchHost, fetchProducer, fetchSelected] <;> intro e
    all_goals first
      | trivial
      | (split at e <;> first | cases e | (split at e <;> cases e))
  · rename_i i u e; exact .inr (.inr ⟨i, u, e, h⟩)

/-- What FBC may perform, with its guard. -/
theorem fbcOp_cases {p : Params} {d : Dev} {i : Instr} (h : fbcOp p d = some i) :
    (i = .drop ∧ dropEnabled d = true) ∨ (i = .start ∧ startEnabled d = true) ∨
    (i = .emitPre ∧ emitEnabled p .pre d = true) ∨ (i = .emitSync ∧ emitEnabled p .sync d = true) ∨
    (i = .emitPay ∧ emitEnabled p .pay d = true) ∨ (i = .drainDone ∧ drainDoneEnabled d = true) := by
  unfold fbcOp at h
  repeat' split at h
  all_goals cases h
  all_goals simp_all

/-- What BRP may perform, with its guard. -/
theorem brpOp_cases {p : Params} {d : Dev} {i : Instr} (h : brpOp p d = some i) :
    (i = .load ∧ loadEnabled d = true) ∨ (i = .shift ∧ shiftEnabled p d = true) := by
  unfold brpOp at h
  repeat' split at h
  all_goals cases h
  all_goals simp_all

/-- CONSUMER performs POP, on a non-empty OQ. -/
theorem consumerOp_eq_some {d : Dev} {i : Instr} : consumerOp d = some i ↔ i = .pop ∧ d.oq ≠ [] := by
  unfold consumerOp
  cases h : d.oq <;> simp [eq_comm]

/-- What a turn performs, and from which state. -/
theorem fetch_run_cases {t : Turn} {s u : State} {i : Instr} (h : fetch t s = .run i u) :
    (t = .host ∧ ∃ w ws, s.env.hostQ = w :: ws ∧ i = decodeCtl w ∧ u = s.setHostQ ws) ∨
    (t = .producer ∧ ∃ w ws, s.env.beatQ = w :: ws ∧
      inReady s.env.params s.dev (beatKind w) = true ∧ i = decodeBeat w ∧ u = s.setBeatQ ws) ∨
    (t = .fbc ∧ fbcOp s.env.params s.dev = some i ∧ u = s) ∨
    (t = .brp ∧ brpOp s.env.params s.dev = some i ∧ u = s) ∨
    (t = .consumer ∧ consumerOp s.dev = some i ∧ u = s) := by
  cases t <;> simp only [fetch, fetchHost, fetchProducer, fetchSelected] at h
  · split at h
    · cases h
    · rename_i w ws e
      cases h
      exact .inl ⟨rfl, w, ws, e, rfl, rfl⟩
  · split at h
    · cases h
    · rename_i w ws e
      split at h
      · rename_i hr
        cases h
        exact .inr (.inl ⟨rfl, w, ws, e, hr, rfl, rfl⟩)
      · cases h
  · split at h
    · rename_i e; cases h; exact .inr (.inr (.inl ⟨rfl, e, rfl⟩))
    · cases h
  · split at h
    · rename_i e; cases h; exact .inr (.inr (.inr (.inl ⟨rfl, e, rfl⟩)))
    · cases h
  · split at h
    · rename_i e; cases h; exact .inr (.inr (.inr (.inr ⟨rfl, e, rfl⟩)))
    · cases h
  · cases h

/-- What an operation may do to what stands around the device: RD returns a value, MAP a word, POP an
item, and no other field changes. -/
theorem exec_env {i : Instr} {s t : State} (h : exec i s = .next t) :
    t.env = s.env ∨
    (∃ a, i = .rd a ∧ t = s.returnRead (memRead s.dev a)) ∨
    (∃ b, i = .map b ∧ t = s.returnMap (s.dev.conf.mapBit b)) ∨
    (∃ x rest, i = .pop ∧ s.dev.oq = x :: rest ∧ t = (s.setDev (s.dev.setOq rest)).deliver x) := by
  cases i
  case rd a => exact .inr (.inl ⟨a, rfl, by cases h; rfl⟩)
  case map b => exact .inr (.inr (.inl ⟨b, rfl, by cases h; rfl⟩))
  case pop =>
    simp only [exec, execPop] at h
    split at h
    · exact .inl (by cases h; rfl)
    · rename_i x rest e
      exact .inr (.inr (.inr ⟨x, rest, rfl, e, by cases h; rfl⟩))
  all_goals refine .inl ?_
  all_goals
    simp only [exec, execWrStatus, execWrIen, execWrCfg, execWrPre, execWrSyncLen, execWrSync0,
      execWrSync1, execWrAmp0, execWrAmp1, execWrRo, execWrUnmapped, execCommit, execStop, execAbort,
      execSrst, execCmdRsvd, execHead, execData, execMsgEnd, execRsvd, execDrop, execStart, execEmitPre,
      execEmitSync, execEmitPay, execDrainDone, execLoad, execShift, writeConf_eq, toDev_eq, wait_eq,
      refuseAccess_eq, resetDev] at h
  all_goals
    first
      | (cases h; rfl)
      | (split at h <;> first | (cases h; rfl) | (obtain ⟨d, -, rfl⟩ := ofDev_next h; rfl) |
          (split at h <;> first | (cases h) |
            (obtain ⟨d, -, rfl⟩ := ofDev_next h; rfl)))

/-- No operation touches the sizes, the schedule or the words still offered. -/
theorem exec_keeps_inputs {i : Instr} {s t : State} (h : exec i s = .next t) :
    t.env.params = s.env.params ∧ t.env.schedule = s.env.schedule ∧ t.env.turnNo = s.env.turnNo ∧
    t.env.hostQ = s.env.hostQ ∧ t.env.beatQ = s.env.beatQ := by
  rcases exec_env h with e | ⟨a, -, rfl⟩ | ⟨b, -, rfl⟩ | ⟨x, rest, -, -, rfl⟩
  · rw [e]; exact ⟨rfl, rfl, rfl, rfl, rfl⟩
  all_goals exact ⟨rfl, rfl, rfl, rfl, rfl⟩

end Sys2Proof.Machine
end

