-- ==== Sys2Proof/Laws/Frame.lean ====
section
/-! SUPPORT. What the operations of FBC that emit leave alone. -/

namespace Sys2Proof.Machine

open Sys2Proof

/-- What a step inside a message leaves alone, and how it counts. -/
structure Dev.SameButEmission (d e : Dev) : Prop where
  lc : e.lc = d.lc
  flags : e.flags = d.flags
  ien : e.ien = d.ien
  conf : e.conf = d.conf
  ferrcnt : e.ferrcnt = d.ferrcnt
  brp : e.brp = d.brp
  oq : e.oq = d.oq
  framecnt : e.framecnt = d.framecnt ∨
    (e.mq.length + 1 = d.mq.length ∧ e.fbc.phase = .idle ∧ e.framecnt = satInc32 d.framecnt)

theorem advance_keeps {p : Phase} {d e : Dev} (h : advance p d = .ok e) : d.SameButEmission e := by
  rcases advance_cases h with ⟨-, -, rfl⟩ | ⟨r, rest, -, -, -, -, rfl⟩ | ⟨r, rest, hq, -, -, rfl⟩
  · exact ⟨rfl, rfl, rfl, rfl, rfl, rfl, rfl, .inl rfl⟩
  · exact ⟨rfl, rfl, rfl, rfl, rfl, rfl, rfl, .inl rfl⟩
  · exact ⟨rfl, rfl, rfl, rfl, rfl, rfl, rfl, .inr ⟨by simp [hq], rfl, rfl⟩⟩

theorem emit_keeps {b : Byte} {d e : Dev} (h : emit b d = .ok e) : d.SameButEmission e := by
  rcases emit_cases h with ⟨-, h⟩ | ⟨-, rfl⟩
  · obtain ⟨k1, k2, k3, k4, k5, k6, k7, k8⟩ := advance_keeps h
    exact ⟨k1, k2, k3, k4, k5, k6, k7, k8⟩
  · exact ⟨rfl, rfl, rfl, rfl, rfl, rfl, rfl, .inl rfl⟩

theorem Dev.SameButEmission.refl (d : Dev) : d.SameButEmission d :=
  ⟨rfl, rfl, rfl, rfl, rfl, rfl, rfl, .inl rfl⟩

/-- START and the three EMIT operations. -/
theorem exec_emission_keeps {i : Instr} {s t : State}
    (hi : i = .start ∨ i = .emitPre ∨ i = .emitSync ∨ i = .emitPay) (h : exec i s = .next t) :
    s.dev.SameButEmission t.dev := by
  rcases hi with rfl | rfl | rfl | rfl
  · simp only [exec, execStart] at h
    split at h
    · split at h
      · cases h
      · obtain ⟨d, e, rfl⟩ := ofDev_next h
        rw [startDev_eq] at e
        split at e
        · cases e; exact ⟨rfl, rfl, rfl, rfl, rfl, rfl, rfl, .inl rfl⟩
        · obtain ⟨k1, k2, k3, k4, k5, k6, k7, k8⟩ := advance_keeps e
          exact ⟨k1, k2, k3, k4, k5, k6, k7, k8⟩
    · cases h; exact .refl _
  · simp only [exec, execEmitPre] at h
    split at h
    · obtain ⟨d, e, rfl⟩ := ofDev_next h; exact emit_keeps e
    · cases h; exact .refl _
  · simp only [exec, execEmitSync] at h
    split at h
    · obtain ⟨d, e, rfl⟩ := ofDev_next h
      unfold emitSyncDev at e
      split at e
      · exact emit_keeps e
      · cases e
    · cases h; exact .refl _
  · simp only [exec, execEmitPay] at h
    split at h
    · obtain ⟨d, e, rfl⟩ := ofDev_next h
      unfold emitPayDev at e
      split at e
      · cases e
      · rename_i r rest hq
        split at e
        · cases e
        · obtain ⟨k1, k2, k3, k4, k5, k6, k7, k8⟩ := emit_keeps e
          exact ⟨k1, k2, k3, k4, k5, k6, k7, by simpa [hq] using k8⟩
    · cases h; exact .refl _

end Sys2Proof.Machine
end

