-- ==== Sys2Proof/Laws/PerInstr.lean ====
section
/-! SUPPORT. A statement about every operation, one lemma for each. -/

namespace Sys2Proof.Laws.Encodes

open Sys2Proof

/-- An operation has a word exactly when a port word selects it; the other ten are selected by the state
(spec/30_encoding.md R96). -/
def Statement (i : Instr) : Prop := (encode i).isSome = i.portSelected

theorem rd (a : BitVec 4) : Statement (.rd a) := rfl

theorem wrStatus (v : Word) : Statement (.wrStatus v) := rfl

theorem wrIen (v : Word) : Statement (.wrIen v) := rfl

theorem wrCfg (v : Word) : Statement (.wrCfg v) := rfl

theorem wrPre (v : Word) : Statement (.wrPre v) := rfl

theorem wrSyncLen (v : Word) : Statement (.wrSyncLen v) := rfl

theorem wrSync0 (v : Word) : Statement (.wrSync0 v) := rfl

theorem wrSync1 (v : Word) : Statement (.wrSync1 v) := rfl

theorem wrAmp0 (v : Word) : Statement (.wrAmp0 v) := rfl

theorem wrAmp1 (v : Word) : Statement (.wrAmp1 v) := rfl

theorem wrRo (a : BitVec 4) (v : Word) : Statement (.wrRo a v) := rfl

theorem wrUnmapped (a : BitVec 4) (v : Word) : Statement (.wrUnmapped a v) := rfl

theorem commit : Statement (.commit) := rfl

theorem stop : Statement (.stop) := rfl

theorem abort : Statement (.abort) := rfl

theorem srst : Statement (.srst) := rfl

theorem cmdRsvd (c : BitVec 4) : Statement (.cmdRsvd c) := rfl

theorem head (n : BitVec 16) : Statement (.head n) := rfl

theorem data (b : Byte) : Statement (.data b) := rfl

theorem msgEnd : Statement (.msgEnd) := rfl

theorem rsvd : Statement (.rsvd) := rfl

theorem drop : Statement (.drop) := rfl

theorem start : Statement (.start) := rfl

theorem emitPre : Statement (.emitPre) := rfl

theorem emitSync : Statement (.emitSync) := rfl

theorem emitPay : Statement (.emitPay) := rfl

theorem drainDone : Statement (.drainDone) := rfl

theorem load : Statement (.load) := rfl

theorem shift : Statement (.shift) := rfl

theorem map (bit : Bool) : Statement (.map bit) := rfl

theorem pop : Statement (.pop) := rfl

end Sys2Proof.Laws.Encodes
end

