-- ==== Sys2Proof/Laws/Run.lean ====
section
/-! SUPPORT. What the step of an agent in a run can be, and what a run that is weakly fair comes to. -/

namespace Sys2Proof.Machine

open Sys2Proof

/-! ### The enabled operation of each agent -/

theorem enabledOp_host (s : State) : s.enabledOp .host = s.env.hostQ.head?.map decodeCtl := by
  cases h : s.env.hostQ <;> simp [State.enabledOp, fetch, fetchHost, h]

theorem enabledOp_producer_nil {s : State} (h : s.env.beatQ = []) : s.enabledOp .producer = none := by
  simp [State.enabledOp, fetch, fetchProducer, h]

theorem enabledOp_producer_cons {s : State} {w : BitVec 18} {ws : List (BitVec 18)}
    (h : s.env.beatQ = w :: ws) : s.enabledOp .producer =
      if inReady s.env.params s.dev (beatKind w) then some (decodeBeat w) else none := by
  cases hr : inReady s.env.params s.dev (beatKind w) <;>
    simp [State.enabledOp, fetch, fetchProducer, h, hr]

theorem enabledOp_fbc (s : State) : s.enabledOp .fbc = fbcOp s.env.params s.dev := by
  cases h : fbcOp s.env.params s.dev <;> simp [State.enabledOp, fetch, fetchSelected, h]

theorem enabledOp_brp (s : State) : s.enabledOp .brp = brpOp s.env.params s.dev := by
  cases h : brpOp s.env.params s.dev <;> simp [State.enabledOp, fetch, fetchSelected, h]

theorem enabledOp_consumer (s : State) : s.enabledOp .consumer = consumerOp s.dev := by
  cases h : consumerOp s.dev <;> simp [State.enabledOp, fetch, fetchSelected, h]

@[simp] theorem enabledOp_rst (s : State) : s.enabledOp .rst = none := rfl

/-- The operation enabled reads neither the schedule nor the count of turns. -/
theorem enabledOp_giveTurn_takeTurn (s : State) (t u : Turn) :
    ((s.giveTurn u).takeTurn).enabledOp t = s.enabledOp t := by
  cases t
  · simp [enabledOp_host]
  · cases h : s.env.beatQ with
    | nil => rw [enabledOp_producer_nil h, enabledOp_producer_nil (by simpa using h)]
    | cons w ws =>
      rw [enabledOp_producer_cons h, enabledOp_producer_cons (w := w) (ws := ws) (by simpa using h)]
      rfl
  · simp [enabledOp_fbc]
  · simp [enabledOp_brp]
  · simp [enabledOp_consumer]
  · rfl

/-! ### The step of an agent -/

/-- Everything the step of `t` can be: a wait, a reset, or the operation `t` has enabled, from the state
with the turn counted and the port word taken. -/
theorem stepOf_cases {t : Turn} {s u : State} (h : stepOf t s = .next u) :
    (t ≠ .rst ∧ s.enabledOp t = none ∧ u = (s.giveTurn t).takeTurn) ∨
    (t = .rst ∧ u = resetDev (s.giveTurn t).takeTurn) ∨
    (t = .host ∧ ∃ w ws, s.env.hostQ = w :: ws ∧ s.enabledOp t = some (decodeCtl w) ∧
      exec (decodeCtl w) ((s.giveTurn t).takeTurn.setHostQ ws) = .next u) ∨
    (t = .producer ∧ ∃ w ws, s.env.beatQ = w :: ws ∧
      inReady s.env.params s.dev (beatKind w) = true ∧ s.enabledOp t = some (decodeBeat w) ∧
      exec (decodeBeat w) ((s.giveTurn t).takeTurn.setBeatQ ws) = .next u) ∨
    (∃ i, (t = .fbc ∨ t = .brp ∨ t = .consumer) ∧ s.enabledOp t = some i ∧
      exec i (s.giveTurn t).takeTurn = .next u) := by
  have he := enabledOp_giveTurn_takeTurn s t t
  rcases step_cases h with ⟨hw, rfl⟩ | ⟨hr, rfl⟩ | ⟨i, v, hf, hx⟩
  · rw [State.giveTurn_nextTurn] at hw
    refine .inl ⟨?_, ?_, rfl⟩
    · rintro rfl; cases hw
    · rw [← he]; simp only [State.enabledOp, hw]
  · exact .inr (.inl ⟨hr, rfl⟩)
  · rw [State.giveTurn_nextTurn] at hf
    have hi : s.enabledOp t = some i := by rw [← he]; simp only [State.enabledOp, hf]
    right; right
    rcases fetch_run_cases hf with ⟨rfl, w, ws, hq, rfl, rfl⟩ | ⟨rfl, w, ws, hq, hr, rfl, rfl⟩ |
      ⟨rfl, -, rfl⟩ | ⟨rfl, -, rfl⟩ | ⟨rfl, -, rfl⟩
    · exact .inl ⟨rfl, w, ws, hq, hi, hx⟩
    · exact .inr (.inl ⟨rfl, w, ws, hq, hr, hi, hx⟩)
    · exact .inr (.inr ⟨i, .inl rfl, hi, hx⟩)
    · exact .inr (.inr ⟨i, .inr (.inl rfl), hi, hx⟩)
    · exact .inr (.inr ⟨i, .inr (.inr rfl), hi, hx⟩)

/-- An agent with no enabled operation waits. -/
theorem stepOf_wait {t : Turn} {s : State} (ht : t ≠ .rst) (h : s.enabledOp t = none) :
    stepOf t s = .next { s with env := { s.env with turnNo := s.env.turnNo + 1 } } := by
  have he : ((s.giveTurn t).takeTurn).enabledOp t = none := by rw [enabledOp_giveTurn_takeTurn, h]
  unfold State.enabledOp at he
  split at he
  · cases he
  · rename_i hf
    simp only [stepOf, step, State.giveTurn_nextTurn, hf]; rfl
  · rename_i hf
    exfalso
    cases t <;> simp only [fetch, fetchHost, fetchProducer, fetchSelected] at hf <;>
      first | (exact ht rfl) | (split at hf <;> first | cases hf | (split at hf <;> cases hf))

/-- Items that CONSUMER has received stay received. -/
theorem stepOf_delivered {t : Turn} {s u : State} (hs : stepOf t s = .next u) :
    s.env.delivered <+: u.env.delivered := by
  have ex : ∀ i (v : State), exec i v = .next u → v.env.delivered = s.env.delivered →
      s.env.delivered <+: u.env.delivered := by
    intro i v hx hv
    rcases exec_env hx with e | ⟨a, -, rfl⟩ | ⟨b, -, rfl⟩ | ⟨x, rest, -, -, rfl⟩
    · rw [e, hv]
    · rw [← hv]; exact List.prefix_rfl
    · rw [← hv]; exact List.prefix_rfl
    · rw [← hv]; exact ⟨[x], rfl⟩
  rcases stepOf_cases hs with ⟨-, -, rfl⟩ | ⟨-, rfl⟩ | ⟨-, w, ws, -, -, hx⟩ |
    ⟨-, w, ws, -, -, -, hx⟩ | ⟨i, -, -, hx⟩
  · exact List.prefix_rfl
  · exact List.prefix_rfl
  all_goals exact ex _ _ hx rfl

/-! ### Runs -/

section
variable {turns : Nat → Turn} {σ : Nat → State} {n m l : Nat}

theorem takenUp_self (n : Nat) : takenUp turns σ n n = 0 := by simp [takenUp]

theorem takenUp_succ (h : n ≤ m) : takenUp turns σ n (m + 1) =
    takenUp turns σ n m + if (σ m).takesUp (turns m) then 1 else 0 := by
  unfold takenUp
  have : m + 1 - n = (m - n) + 1 := by omega
  rw [this, List.range'_1_concat, List.countP_append, show n + (m - n) = m by omega]
  simp [List.countP_cons]

theorem takenUp_add (h : n ≤ m) (k : m ≤ l) :
    takenUp turns σ n l = takenUp turns σ n m + takenUp turns σ m l := by
  induction l, k using Nat.le_induction with
  | base => simp [takenUp_self]
  | succ l k ih => rw [takenUp_succ (h.trans k), takenUp_succ k, ih]; omega

/-- What every step keeps holds from then on: of the states of the steps, and of what is offered. -/
theorem IsRun.keeps {P : State → Prop} (h : IsRun turns σ)
    (hs : ∀ t s u, P s → stepOf t s = .next u → P u) (ho : ∀ s ws bs, P s → P (s.offer ws bs))
    (h0 : P (σ n)) : ∀ m, n ≤ m → P (σ m) := by
  intro m hm
  induction m, hm using Nat.le_induction with
  | base => exact h0
  | succ m hm ih =>
    obtain ⟨u, ws, bs, hx, e⟩ := h m
    rw [e]; exact ho _ _ _ (hs _ _ _ ih hx)

/-- Progress by descent: while `Good` has not come about, `D` names an agent and its enabled operation;
taking it brings the rank down, no other step brings it up, and a step that leaves the rank leaves `D`.
Then a run that is weakly fair to the agents `D` names comes to `Good`. -/
theorem WeaklyFair.descend {Good : Nat → Prop} {S : State → Prop} {rank : State → Nat} {D : State → Turn × Instr}
    (hfair : ∀ t, WeaklyFair turns σ t ∨ ∀ s, S s → (D s).1 ≠ t)
    (hD : ∀ m, n ≤ m → S (σ m) → (σ m).enabledOp (D (σ m)).1 = some (D (σ m)).2)
    (hstep : ∀ m, n ≤ m → S (σ m) → ¬ Good m → S (σ (m + 1)) ∧ rank (σ (m + 1)) ≤ rank (σ m) ∧
      (turns m = (D (σ m)).1 → rank (σ (m + 1)) < rank (σ m)) ∧
      (rank (σ (m + 1)) = rank (σ m) → D (σ (m + 1)) = D (σ m)))
    (h0 : S (σ n)) : ∃ m, n ≤ m ∧ S (σ m) ∧ Good m := by
  suffices H : ∀ r k, n ≤ k → S (σ k) → rank (σ k) ≤ r → ∃ m, n ≤ m ∧ S (σ m) ∧ Good m from
    H _ n le_rfl h0 le_rfl
  intro r
  induction r using Nat.strong_induction_on with
  | _ r ih =>
    intro k hk hS hr
    by_contra hno
    have key : ∀ j, k ≤ j → S (σ j) ∧ rank (σ j) = rank (σ k) ∧ D (σ j) = D (σ k) := by
      intro j hj
      induction j, hj using Nat.le_induction with
      | base => exact ⟨hS, rfl, rfl⟩
      | succ j hj ihj =>
        obtain ⟨a, b, c⟩ := ihj
        have hg : ¬ Good j := fun g => hno ⟨j, hk.trans hj, a, g⟩
        obtain ⟨p, q, -, w⟩ := hstep j (hk.trans hj) a hg
        have : rank (σ (j + 1)) = rank (σ j) := by
          by_contra hne
          have : rank (σ (j + 1)) < r := by omega
          exact hno (ih _ this (j + 1) (by omega) p le_rfl)
        exact ⟨p, this.trans b, (w this).trans c⟩
    rcases hfair (D (σ k)).1 with hf | hf
    · obtain ⟨m, hm, ht⟩ := hf k (D (σ k)).2 (fun m hm => by
        obtain ⟨a, -, c⟩ := key m hm
        have := hD m (hk.trans hm) a
        rwa [c] at this)
      obtain ⟨a, b, c⟩ := key m hm
      have hg : ¬ Good m := fun g => hno ⟨m, hk.trans hm, a, g⟩
      have h1 := (hstep m (hk.trans hm) a hg).2.2.1 (by rw [c]; exact ht)
      have h2 := (key (m + 1) (by omega)).2.1
      omega
    · exact hf _ hS rfl

end

end Sys2Proof.Machine
end

