-- ==== Sys2Proof/Laws/Safety.lean ====
section
/-! SUPPORT. The small facts of the terms claims are stated in, and of a run of steps. -/

namespace Sys2Proof.Machine

open Sys2Proof

@[simp] theorem Conf.syncBytes_length (c : Conf) : c.syncBytes.length = c.syncLenNat := by
  simp [Conf.syncBytes]

/-- The syncword from byte `k` on. -/
theorem Conf.syncBytes_drop {c : Conf} {k : Nat} (h : k < c.syncLenNat) :
    c.syncBytes.drop k = c.syncbyte k :: c.syncBytes.drop (k + 1) := by
  rw [List.drop_eq_getElem_cons (by rw [syncBytes_length]; exact h)]
  simp [Conf.syncBytes]

@[simp] theorem symbolsFrom_zero (c : Conf) (b : Byte) (f : Bool) (w : Word) : symbolsFrom c b 0 f w = [] :=
  rfl

@[simp] theorem symbolsFrom_length (c : Conf) (b : Byte) (k : Nat) (f : Bool) (w : Word) :
    (symbolsFrom c b k f w).length = k := by
  induction k generalizing f with
  | zero => rfl
  | succ k ih => simp [symbolsFrom, ih]

@[simp] theorem tagged_nil (f : Bool) (w : Word) : tagged f w [] = [] := by cases f <;> rfl

@[simp] theorem tagged_cons (f : Bool) (w : Word) (b : Byte) (bs : List Byte) : tagged f w (b :: bs) =
    { byte := b, sof := f, tag := if f then w else 0#32, width := 8 } :: tagged false w bs := rfl

@[simp] theorem itemSymbols_nil (c : Conf) : itemSymbols c [] = [] := rfl

@[simp] theorem itemSymbols_cons (c : Conf) (x : BItem) (xs : List BItem) :
    itemSymbols c (x :: xs) = symbolsFrom c x.byte 8 x.sof x.tag ++ itemSymbols c xs := by
  simp [itemSymbols]

@[simp] theorem itemSymbols_append (c : Conf) (xs ys : List BItem) :
    itemSymbols c (xs ++ ys) = itemSymbols c xs ++ itemSymbols c ys := by
  simp [itemSymbols]

@[simp] theorem goodItems_nil (c : Conf) : goodItems c [] = [] := rfl

theorem goodItems_cons (c : Conf) (r : Msg) (q : List Msg) :
    goodItems c (r :: q) = (if r.closed && r.good then c.frameItems r.data else []) ++ goodItems c q := by
  unfold goodItems
  rw [List.filter_cons]
  split <;> simp

@[simp] theorem goodItems_append (c : Conf) (q q' : List Msg) :
    goodItems c (q ++ q') = goodItems c q ++ goodItems c q' := by
  simp [goodItems]

@[simp] theorem headData_nil : headData [] = [] := rfl

@[simp] theorem headData_cons (r : Msg) (q : List Msg) : headData (r :: q) = r.data := rfl

theorem waiting_idle {d : Dev} (h : d.fbc.phase = .idle) : waiting d = d.mq := by simp [waiting, h]

theorem waiting_busy {d : Dev} (h : d.fbc.phase ≠ .idle) : waiting d = d.mq.tail := by
  unfold waiting
  cases hp : d.fbc.phase <;> first | exact absurd hp h | rfl

theorem restBytes_idle {d : Dev} (h : d.fbc.phase = .idle) : restBytes d = [] := by simp [restBytes, h]

theorem restBytes_pre {d : Dev} (h : d.fbc.phase = .pre) : restBytes d =
    (List.replicate d.fbc.cnt.toNat d.conf.preByte ++ d.conf.syncBytes) ++ headData d.mq := by
  simp [restBytes, h]

theorem restBytes_sync {d : Dev} (h : d.fbc.phase = .sync) : restBytes d =
    d.conf.syncBytes.drop (d.conf.syncLenNat - d.fbc.cnt.toNat) ++ headData d.mq := by
  simp [restBytes, h]

theorem restBytes_pay {d : Dev} (h : d.fbc.phase = .pay) : restBytes d = headData d.mq := by
  simp [restBytes, h]

/-! ### Runs -/

/-- A run of one step and more. -/
theorem run_succ {n : Nat} {s t : State} (h : Sys2Proof.core.run (n + 1) s = .next t) :
    ∃ u, step s = .next u ∧ Sys2Proof.core.run n u = .next t := by
  simp only [Host.Core.run] at h
  split at h
  · exact ⟨_, ‹_›, h⟩
  · cases h
  · cases h

theorem nextTurn_cons {s : State} {x : Turn} {xs : List Turn} (h : s.env.schedule = x :: xs) :
    s.nextTurn = x := by
  simp [State.nextTurn, h]

/-- A step uses one turn of the schedule and leaves the sizes. -/
theorem step_schedule {s t : State} (h : step s = .next t) :
    t.env.schedule = s.env.schedule.tail ∧ t.env.params = s.env.params := by
  rcases step_cases h with ⟨-, rfl⟩ | ⟨-, rfl⟩ | ⟨i, u, hf, hx⟩
  · exact ⟨rfl, rfl⟩
  · exact ⟨rfl, rfl⟩
  · obtain ⟨k1, k2, -⟩ := exec_keeps_inputs hx
    rw [k1, k2]
    rcases fetch_run_cases hf with ⟨-, _, _, -, -, rfl⟩ | ⟨-, _, _, -, -, -, rfl⟩ | ⟨-, -, rfl⟩ |
      ⟨-, -, rfl⟩ | ⟨-, -, rfl⟩ <;> exact ⟨rfl, rfl⟩

/-- What every step keeps while only turns of some kind are taken holds at the end of a schedule of such
turns. -/
theorem run_schedule_induction {C : Turn → Prop} {P : State → Prop}
    (hP : ∀ s t, P s → C s.nextTurn → step s = .next t → P t) :
    ∀ (n : Nat) (s t : State), P s → s.env.schedule.length = n → (∀ x ∈ s.env.schedule, C x) →
      Sys2Proof.core.run n s = .next t → P t := by
  intro n
  induction n with
  | zero => intro s t h _ _ hr; cases hr; exact h
  | succ n ih =>
    intro s t h hn hC hr
    obtain ⟨u, hu, hr⟩ := run_succ hr
    match hs : s.env.schedule with
    | [] => simp [hs] at hn
    | x :: xs =>
      have k := (step_schedule hu).1
      rw [hs, List.tail_cons] at k
      refine ih u t (hP s u h (by rw [nextTurn_cons hs]; exact hC x (by simp [hs])) hu) ?_ ?_ hr
      · rw [k]; simpa [hs] using hn
      · rw [k]; intro y hy; exact hC y (by simp [hs, hy])

end Sys2Proof.Machine
end

