-- ==== Sys2Proof/Tests/Slice0.lean ====
section
/-! SUPPORT. Tests on fixed values, their results from spec/95_test_vectors.md and the examples of the
rules; then, for each statement that has hypotheses, a state and operands that meet them. -/

namespace Sys2Proof.Tests

open Sys2Proof Sys2Proof.Machine

/-! ### Small states -/

/-- A configuration with a preamble of `p` bytes and a syncword of `n`. -/
def confPS (p : BitVec 16) (n : BitVec 4) : Conf := { Conf.reset with preCount := p, syncLen := n }

/-- A device in `lc` under `c` with the records `q`. -/
def devIn (lc : LC) (c : Conf) (q : List Msg) : Dev := { Dev.reset with lc := lc, conf := c, mq := q }

/-- A state around a device, the turns `ts` to come. -/
def at_ (d : Dev) (ts : List Turn) : State := { dev := d, env := { Env.reset with schedule := ts } }

/-- A record. -/
def msg (n : BitVec 16) (bs : List Byte) (k : BitVec 17) (closed : Bool) : Msg :=
  { decl := n, data := bs, cnt := k, closed := closed }

/-- A byte-channel item. -/
def item (b : Byte) (f : Bool) (w : Word) : BItem := { byte := b, sof := f, tag := w, width := 8 }

/-- An egress item. -/
def sym (v : Word) (f : Bool) (w : Word) : SItem := { sym := v, sof := f, tag := w }

/-- The device after an operation. -/
def after (i : Instr) (d : Dev) : Option Dev :=
  match exec i (at_ d []) with
  | .next t => some t.dev
  | .fault _ => none
  | .refused _ => none

/-- `STATUS` after an operation. -/
def statusAfter (i : Instr) (d : Dev) : Option Word := (after i d).map fun e => memRead e 2#4

/-- The reset device with flags set. -/
def flagged (f : Flags) (d : Dev) : Dev := { d with flags := f }

/-- In the middle of things: a message being sent, a bad message behind it, a record open, a byte in
BCH, five bits in BRP, a symbol in OQ. -/
def busyDev : Dev :=
  { devIn .run (confPS 1#16 2#4) [msg 2#16 [0xA6#8] 2#17 true, msg 3#16 [1#8] 1#17 true,
      msg 2#16 [5#8, 6#8] 2#17 false] with
    fbc := { phase := .pay, cnt := 1#16, sof := false, tag := 5#32 }
    bch := [item 0x93#8 false 0#32]
    brp := { byte := 0xAA#8, cnt := 5#4, sof := false, tag := 5#32 }
    oq := [sym 0x3F800000#32 false 0#32] }

/-- The same with port words offered and turns given. -/
def busy (hostQ : List (BitVec 37)) (beatQ : List (BitVec 18)) (ts : List Turn) : State :=
  { dev := busyDev
    env := { Env.reset with schedule := ts, hostQ := hostQ, beatQ := beatQ } }

/-! ### WellFormed refuses ill-formed operations -/

theorem test_wf_wrRo : (Instr.wrRo 1#4 0#32).wf = false ∧ (Instr.wrRo 13#4 0#32).wf = false := by decide

theorem test_wf_wrUnmapped :
    (Instr.wrUnmapped 12#4 0#32).wf = false ∧ (Instr.wrUnmapped 0#4 0#32).wf = false := by decide

theorem test_wf_cmdRsvd : (Instr.cmdRsvd 1#4).wf = false ∧ (Instr.cmdRsvd 4#4).wf = false := by decide

/-! ### Decoding: words written out from R81, R82, R86 and spec/95_test_vectors.md -/

/-- `we` 0, `a` 35:32 (R81, V-C1); `wdata` is ignored on a read. -/
theorem test_decode_reads :
    decodeTableWord 40 0x0000000000 = some (.rd 0#4) ∧ decodeTableWord 40 0x0F00000000 = some (.rd 15#4) ∧
    decodeTableWord 40 0x05DEADBEEF = some (.rd 5#4) := by decide

/-- `we` 1 at bit 36, `a` at 35:32, `wdata` at 31:0: V-E1, V-C2, P2, P8, V-S2. -/
theorem test_decode_register_writes :
    decodeTableWord 40 0x1200000400 = some (.wrStatus 0x400#32) ∧
    decodeTableWord 40 0x13FFFFFFFF = some (.wrIen 0xFFFFFFFF#32) ∧
    decodeTableWord 40 0x1400000101 = some (.wrCfg 0x101#32) ∧
    decodeTableWord 40 0x1500020055 = some (.wrPre 0x20055#32) ∧
    decodeTableWord 40 0x1600000002 = some (.wrSyncLen 2#32) ∧
    decodeTableWord 40 0x171ACF0000 = some (.wrSync0 0x1ACF0000#32) ∧
    decodeTableWord 40 0x1805060708 = some (.wrSync1 0x05060708#32) ∧
    decodeTableWord 40 0x19C0000000 = some (.wrAmp0 0xC0000000#32) ∧
    decodeTableWord 40 0x1A40000000 = some (.wrAmp1 0x40000000#32) := by decide

/-- The refused writes of V-C5. -/
theorem test_decode_refused_writes :
    decodeTableWord 40 0x1000000000 = some (.wrRo 0#4 0#32) ∧
    decodeTableWord 40 0x1B00000000 = some (.wrRo 11#4 0#32) ∧
    decodeTableWord 40 0x1C00000000 = some (.wrRo 12#4 0#32) ∧
    decodeTableWord 40 0x1D00000001 = some (.wrUnmapped 13#4 1#32) ∧
    decodeTableWord 40 0x1F00000000 = some (.wrUnmapped 15#4 0#32) := by decide

/-- The codes of R86; `wdata[31:4]` is ignored (V-C5's `0x000000F1`). -/
theorem test_decode_commands :
    decodeTableWord 40 0x11000000F1 = some .commit ∧ decodeTableWord 40 0x1100000002 = some .stop ∧
    decodeTableWord 40 0x1100000003 = some .abort ∧ decodeTableWord 40 0x1100000004 = some .srst ∧
    decodeTableWord 40 0x1100000000 = some (.cmdRsvd 0#4) ∧
    decodeTableWord 40 0x1100000005 = some (.cmdRsvd 5#4) ∧
    decodeTableWord 40 0x110000000F = some (.cmdRsvd 15#4) := by decide

/-- V-I1: kind 17:16, `pl` 15:0. -/
theorem test_decode_beats :
    decodeTableWord 24 0x20000 = some (.head 0#16) ∧ decodeTableWord 24 0x2FFFF = some (.head 65535#16) ∧
    decodeTableWord 24 0x0FFA6 = some (.data 0xA6#8) ∧ decodeTableWord 24 0x1FFFF = some .msgEnd ∧
    decodeTableWord 24 0x3ABCD = some .rsvd := by decide

/-- What is no port word is rejected by name: the ten state-selected operations have no bits (R96). -/
theorem test_decode_rejects :
    decodeBits 0 0 = .error .stateSelected ∧ decodeBits 65 0 = .error .egressItem ∧
    decodeBits 40 0x2000000000 = .error (.tooWide 40 0x2000000000) ∧
    decodeBits 32 5 = .error (.noFormat 32) := by decide

/-! ### Operations -/

/-- V-C1. -/
theorem test_rd_pre : ∃ t, exec (.rd 5#4) State.reset = .next t ∧ t.env.reads = [0x003200AA#32] ∧
    t.dev = Dev.reset := ⟨_, rfl, by decide⟩

/-- P6 step 12: RUN and EMITTING. -/
theorem test_rd_status : memRead busyDev 2#4 = 0x00000005#32 := by decide

/-- V-C3. -/
theorem test_wrStatus : statusAfter (.wrStatus 0x400#32)
    (flagged { Flags.reset with framingErr := true, accErr := true } (devIn .run Conf.reset [])) =
      some 0x2001#32 := by decide

/-- V-C2. -/
theorem test_wrIen : (after (.wrIen 0xFFFFFFFF#32) Dev.reset).map (fun d => memRead d 3#4) =
    some 0x3F00#32 := by decide

/-- V-C2. -/
theorem test_wrCfg : (after (.wrCfg 0xFFFFFFFF#32) Dev.reset).map (fun d => memRead d 4#4) =
    some 0x33F#32 := by decide

/-- V-C4. -/
theorem test_wrCfg_locked : (after (.wrCfg 0x101#32) (devIn .drain Conf.reset [])).map
    (fun d => (memRead d 4#4, memRead d 2#4)) = some (0x1#32, 0x2002#32) := by decide

/-- V-C2. -/
theorem test_wrPre : (after (.wrPre 0xFFFFFFFF#32) Dev.reset).map (fun d => memRead d 5#4) =
    some 0xFFFF00FF#32 := by decide

/-- V-C2. -/
theorem test_wrSyncLen : (after (.wrSyncLen 0xFFFFFFFF#32) Dev.reset).map (fun d => memRead d 6#4) =
    some 0xF#32 := by decide

/-- P8 step 1. -/
theorem test_wrSync : (after (.wrSync0 0x01020304#32) Dev.reset).map (fun d => d.conf.sync0) =
      some 0x01020304#32 ∧
    (after (.wrSync1 0x05060708#32) Dev.reset).map (fun d => d.conf.sync1) = some 0x05060708#32 := by
  decide

/-- V-S2. -/
theorem test_wrAmp : (after (.wrAmp0 0xC0000000#32) Dev.reset).map (fun d => d.conf.mapBit false) =
      some 0xC0000000#32 ∧
    (after (.wrAmp1 0x40000000#32) Dev.reset).map (fun d => d.conf.mapBit true) = some 0x40000000#32 := by
  decide

/-- V-C5, in UNCONF and in RUN. -/
theorem test_refused_writes : statusAfter (.wrRo 11#4 0#32) Dev.reset = some 0x2000#32 ∧
    statusAfter (.wrUnmapped 13#4 1#32) (devIn .run Conf.reset []) = some 0x2001#32 ∧
    statusAfter (.cmdRsvd 7#4) (devIn .halt Conf.reset []) = some 0x2003#32 := by decide

/-- V-C7: the rows that pass, and one with two errors. -/
theorem test_commit : statusAfter .commit Dev.reset = some 0x1#32 ∧
    statusAfter .commit { Dev.reset with conf := { Conf.reset with scr := 1#2, syncLen := 8#4 } } =
      some 0x1#32 ∧
    statusAfter .commit { Dev.reset with conf := { Conf.reset with scr := 1#2, syncLen := 9#4 } } =
      some 0x100#32 ∧
    statusAfter .commit { Dev.reset with conf := { Conf.reset with mode := 2#4, scr := 2#2 } } =
      some 0x300#32 := by decide

/-- V-C6. -/
theorem test_commit_in_run : statusAfter .commit (devIn .run Conf.reset []) = some 0x2001#32 := by decide

/-- R115's example. -/
theorem test_stop : after .stop (devIn .run Conf.reset [msg 1#16 [0xA6#8] 1#17 true,
      msg 3#16 [1#8] 1#17 false]) =
    some (devIn .drain Conf.reset [msg 1#16 [0xA6#8] 1#17 true]) := by decide

/-- V-C6. -/
theorem test_stop_refused : statusAfter .stop (devIn .drain Conf.reset []) = some 0x2002#32 := by decide

/-- R116's example. -/
theorem test_abort : after .abort busyDev = some (devIn .halt (confPS 1#16 2#4) []) := by decide

/-- V-C6. -/
theorem test_abort_refused : statusAfter .abort Dev.reset = some 0x2000#32 := by decide

/-- V-R1. -/
theorem test_srst : after .srst busyDev = some Dev.reset := by decide

/-- V-I2, and V-I6 for a HEAD with a record open. -/
theorem test_head : after (.head 2#16) (devIn .run Conf.reset []) =
      some (devIn .run Conf.reset [msg 2#16 [] 0#17 false]) ∧
    statusAfter (.head 5#16) (devIn .run Conf.reset [msg 3#16 [1#8] 1#17 false]) = some 0x1001#32 := by
  decide

/-- V-I4: the byte after the last declared one is counted and not stored. -/
theorem test_data : after (.data 8#8) (devIn .run Conf.reset [msg 1#16 [9#8] 1#17 false]) =
    some (devIn .run Conf.reset [msg 1#16 [9#8] 2#17 false]) := by decide

/-- V-I8. -/
theorem test_data_saturates : after (.data 0#8) (devIn .run Conf.reset [msg 0#16 [] 65536#17 false]) =
    some (devIn .run Conf.reset [msg 0#16 [] 65536#17 false]) := by decide

/-- V-I2, and V-I6 for an END with no record open. -/
theorem test_end : after .msgEnd (devIn .run Conf.reset [msg 2#16 [0xA6#8, 1#8] 2#17 false]) =
      some (devIn .run Conf.reset [msg 2#16 [0xA6#8, 1#8] 2#17 true]) ∧
    statusAfter .msgEnd (devIn .run Conf.reset []) = some 0x1001#32 := by decide

/-- V-I6. -/
theorem test_rsvd : statusAfter .rsvd (devIn .run Conf.reset [msg 3#16 [1#8] 1#17 false]) =
    some 0x1001#32 := by decide

/-- V-F5 and V-F9. -/
theorem test_drop : (after .drop { devIn .run Conf.reset [msg 2#16 [1#8] 1#17 true] with
      ferrcnt := 0xFFFFFFFF#32 }).map (fun d => (d.mq, d.ferrcnt, memRead d 2#4)) =
    some ([], 0xFFFFFFFF#32, 0x401#32) := by decide

/-- V-F1. -/
theorem test_start : (after .start (devIn .run Conf.reset [msg 1#16 [0xA6#8] 1#17 true])).map
    (fun d => d.fbc) = some { phase := .pre, cnt := 50#16, sof := true, tag := 55#32 } := by decide

/-- V-F6. -/
theorem test_start_empty : (after .start (devIn .run (confPS 0#16 0#4) [msg 0#16 [] 0#17 true])).map
    (fun d => (d.mq, d.framecnt, d.fbc)) = some ([], 1#32, Fbc.reset) := by decide

/-- V-F3: the first item of a message carries the sideband. -/
theorem test_emitPre : (after .emitPre { devIn .run Conf.reset [msg 1#16 [0xA6#8] 1#17 true] with
      fbc := { phase := .pre, cnt := 50#16, sof := true, tag := 55#32 } }).map
    (fun d => (d.bch, d.fbc.cnt, d.fbc.sof)) = some ([item 0xAA#8 true 55#32], 49#16, false) := by decide

/-- V-F2: with no syncword the last preamble byte leads to PAY. -/
theorem test_emitPre_last : (after .emitPre { devIn .run (confPS 2#16 0#4) [msg 1#16 [0xA6#8] 1#17 true] with
      fbc := { phase := .pre, cnt := 1#16, sof := false, tag := 3#32 } }).map
    (fun d => (d.fbc.phase, d.fbc.cnt)) = some (.pay, 1#16) := by decide

/-- V-F4: the first byte of an eight-byte syncword, and the last. -/
theorem test_emitSync (k : BitVec 16) (b : Byte) (h : (k, b) = (8#16, 1#8) ∨ (k, b) = (1#16, 8#8)) :
    (after .emitSync { devIn .run { confPS 0#16 8#4 with sync0 := 0x01020304#32, sync1 := 0x05060708#32 }
      [msg 1#16 [0xA6#8] 1#17 true] with
      fbc := { phase := .sync, cnt := k, sof := false, tag := 9#32 } }).map (fun d => d.bch) =
    some [item b false 0#32] := by
  rcases h with h | h <;> cases h <;> decide

/-- P7 step 2. -/
theorem test_emitPay : (after .emitPay { devIn .run (confPS 0#16 0#4) [msg 1#16 [0xA6#8] 1#17 true] with
      fbc := { phase := .pay, cnt := 1#16, sof := true, tag := 1#32 } }).map
    (fun d => (d.mq, d.fbc, d.bch, d.framecnt)) =
    some ([], { phase := .idle, cnt := 0#16, sof := false, tag := 1#32 }, [item 0xA6#8 true 1#32], 1#32) := by
  decide

/-- V-F10. -/
theorem test_drainDone : statusAfter .drainDone (devIn .drain Conf.reset []) = some 0x3#32 := by decide

/-- V-B2. -/
theorem test_load : (after .load { devIn .run Conf.reset [] with bch := [item 0xA6#8 true 1#32] }).map
    (fun d => (d.bch, d.brp)) = some ([], { byte := 0xA6#8, cnt := 8#4, sof := true, tag := 1#32 }) := by
  decide

/-- V-B3. -/
theorem test_shift : (after .shift { devIn .run Conf.reset [] with
      brp := { byte := 0xA6#8, cnt := 8#4, sof := true, tag := 1#32 } }).map (fun d => (d.oq, d.brp)) =
    some ([sym 0x3F800000#32 true 1#32], { byte := 0xA6#8, cnt := 7#4, sof := false, tag := 1#32 }) := by
  decide

/-- W4: `0xA6` least significant bit first begins with a 0. -/
theorem test_shift_lsb : (after .shift { devIn .run { Conf.reset with bitord := true } [] with
      brp := { byte := 0xA6#8, cnt := 8#4, sof := false, tag := 1#32 } }).map (fun d => d.oq) =
    some [sym 0xBF800000#32 false 0#32] := by decide

/-- V-S1. -/
theorem test_map :
    (∃ t, exec (.map false) State.reset = .next t ∧ t.env.mapResult = some 0xBF800000#32) ∧
    (∃ t, exec (.map true) State.reset = .next t ∧ t.env.mapResult = some 0x3F800000#32 ∧
      t.dev = Dev.reset) := ⟨⟨_, rfl, by decide⟩, ⟨_, rfl, by decide⟩⟩

/-- V-S4. -/
theorem test_pop : ∃ t, exec .pop (at_ { Dev.reset with
      oq := [sym 0x3F800000#32 true 55#32, sym 0xBF800000#32 false 0#32] } []) = .next t ∧
    t.env.delivered = [sym 0x3F800000#32 true 55#32] ∧ t.dev.oq = [sym 0xBF800000#32 false 0#32] :=
  ⟨_, rfl, by decide⟩

/-- V-E1: an enabled flag raises the interrupt line. -/
theorem test_irq : (after (.wrIen 0x400#32) (flagged { Flags.reset with framingErr := true } Dev.reset)).map
    Dev.irq = some true := by decide

/-- V-I7: a full MQ holds back HEAD alone. -/
theorem test_inReady : let d := devIn .run Conf.reset [msg 0#16 [] 0#17 true]
    let p : Params := { Params.default with qmsgs := 1 }
    inReady p d .head = false ∧ inReady p d .data = true ∧ inReady p d .msgEnd = true ∧
    inReady p d .rsvd = true ∧ inReady Params.default (devIn .drain Conf.reset []) .rsvd = false := by decide

/-- A word placed by `withFetchWord` is what the next step performs. -/
theorem test_withFetchWord : ∃ t, step (State.reset.withFetchWord 40 0x1100000001) = .next t ∧
    t.dev.lc = .run ∧ t.env.hostQ = [] := ⟨_, rfl, by decide⟩

/-- R83, R84: the fields of the two internal formats. -/
theorem test_words : BItem.word (item 0xA6#8 true 1#32) = 0x100000001A6#41 ∧
    SItem.word (sym 0x3F800000#32 true 55#32) = 0x1000000373F800000#65 := by decide

/-! ### Hypotheses that are met -/

theorem witness_EncodedOperationDecodesToItself :
    (Instr.wrRo 12#4 5#32).wf = true ∧ (Instr.wrUnmapped 15#4 5#32).wf = true ∧
    (Instr.cmdRsvd 15#4).wf = true ∧ (Instr.cmdRsvd 15#4).portSelected = true ∧
    Instr.drop.wf = true ∧ Instr.drop.portSelected = false := by decide

theorem witness_StepPerformsTheDecodedOperation :
    (busy [0x1100000003#37] [] [.host]).nextTurn = .host ∧
    (busy [0x1100000003#37] [] [.host]).env.hostQ = [0x1100000003#37] ∧
    (busy [] [0x10000#18] [.producer]).nextTurn = .producer ∧
    (busy [] [0x10000#18] [.producer]).env.beatQ = [0x10000#18] ∧
    inReady Params.default busyDev (beatKind 0x10000#18) = true ∧
    (busy [] [] [.fbc]).nextTurn = .fbc ∧ fbcOp Params.default busyDev = some .emitPay ∧
    (busy [] [] [.brp]).nextTurn = .brp ∧ brpOp Params.default busyDev = some .shift ∧
    (busy [] [] [.consumer]).nextTurn = .consumer ∧ busyDev.oq ≠ [] := by decide

theorem witness_WaitingAgentChangesNothing :
    (at_ Dev.reset [.host]).nextTurn = .host ∧ (at_ Dev.reset [.host]).env.hostQ = [] ∧
    (at_ Dev.reset [.producer]).nextTurn = .producer ∧ (at_ Dev.reset [.producer]).env.beatQ = [] ∧
    inReady Params.default Dev.reset (beatKind 0x10000#18) = false ∧
    (at_ Dev.reset [.fbc]).nextTurn = .fbc ∧ fbcOp Params.default Dev.reset = none ∧
    (at_ Dev.reset [.brp]).nextTurn = .brp ∧ brpOp Params.default Dev.reset = none ∧
    (at_ Dev.reset [.consumer]).nextTurn = .consumer ∧ Dev.reset.oq = [] := by decide

theorem witness_PlacedWordIsPerformedNext :
    0x1FFFFFFFFF < 2 ^ 37 ∧ 0x3FFFF < 2 ^ 18 ∧ State.reset.env.params.legal = true := by decide

theorem witness_ReadReturnsTheSlot : 13 ≤ (13#4).toNat ∧ 13 ≤ (15#4).toNat ∧ ¬ 13 ≤ (12#4).toNat := by
  decide

theorem witness_ConfigurationWriteStoresItsFieldsUnlessLocked :
    Dev.reset.lc = .unconf ∧ busyDev.lc ≠ .unconf ∧
    Instr.wrAmp1 0#32 ∈ [Instr.wrCfg 0#32, .wrPre 0#32, .wrSyncLen 0#32, .wrSync0 0#32, .wrSync1 0#32,
      .wrAmp0 0#32, .wrAmp1 0#32] := by decide

theorem witness_ReadBackIsTheMaskedWrite : Dev.reset.lc = .unconf ∧
    (Instr.wrPre 7#32, 5#4, 0xFFFF00FF#32) ∈ [(Instr.wrIen 7#32, 3#4, 0x00003F00#32),
      (.wrCfg 7#32, 4#4, 0x0000033F#32), (.wrPre 7#32, 5#4, 0xFFFF00FF#32),
      (.wrSyncLen 7#32, 6#4, 0x0000000F#32), (.wrSync0 7#32, 7#4, 0xFFFFFFFF#32),
      (.wrSync1 7#32, 8#4, 0xFFFFFFFF#32), (.wrAmp0 7#32, 9#4, 0xFFFFFFFF#32),
      (.wrAmp1 7#32, 10#4, 0xFFFFFFFF#32)] ∧ (0#4 : BitVec 4) ≠ 5#4 := by decide

theorem witness_RefusedWriteSetsAccErrAlone : Instr.cmdRsvd 0#4 ∈
    [Instr.wrRo 0#4 1#32, .wrUnmapped 0#4 1#32, .cmdRsvd 0#4] := by decide

theorem witness_CommitChecksTheConfiguration : Dev.reset.lc = .unconf ∧ busyDev.lc ≠ .unconf := by decide

theorem witness_StopBeginsTheFlush :
    (busyDev.lc = .run ∧ busyDev.mq = busyDev.mq.dropLast ++ [msg 2#16 [5#8, 6#8] 2#17 false] ∧
      (msg 2#16 [5#8, 6#8] 2#17 false).closed = false) ∧
    ((devIn .run Conf.reset []).lc = .run ∧
      ∀ q r, (devIn .run Conf.reset []).mq = q ++ [r] → r.closed = true) ∧
    Dev.reset.lc ≠ .run := by
  refine ⟨by decide, ⟨rfl, ?_⟩, by decide⟩
  intro q r h
  simp [devIn] at h

theorem witness_AbortEmptiesThePipeline :
    (busyDev.lc = .run ∨ busyDev.lc = .drain) ∧ (Dev.reset.lc = .unconf ∨ Dev.reset.lc = .halt) := by decide

theorem witness_CommandWritePerformsItsCode :
    (0x11000000F1#37).toNat / 2 ^ 32 = 0x11 ∧ busyDev.lc ≠ .unconf ∧ Dev.reset.lc ≠ .run ∧
    Dev.reset.lc ≠ .drain := by decide

/-- The second clause with nothing enabled, the third with each of the six flags. -/
theorem witness_IrqIsTheOrOfEnabledFlags :
    (∀ k, k < 6 → (State.reset.dev.ien).getLsbD k = true → (0#32 : Word).getLsbD (k + 8) = true) ∧
    (∀ k, k < 6 → (Flags.mk true true true true true true).bits.getLsbD k = true ∧
      (0x3F00#32 : Word).getLsbD (k + 8) = true) := by decide

theorem witness_OutputPinsFollowTheState : busyDev.oq = [sym 0x3F800000#32 false 0#32] := by decide

/-- The two records an ingress operation meets: one open, or none. -/
def openDev (k : BitVec 17) : Dev := devIn .run Conf.reset [msg 2#16 [1#8] k false]

theorem witness_open_record : (openDev 1#17).lc = .run ∧
    (openDev 1#17).mq = [] ++ [msg 2#16 [1#8] 1#17 false] ∧ (msg 2#16 [1#8] 1#17 false).closed = false ∧
    usedBytes (openDev 1#17).mq < Params.default.qbytes := by decide

theorem witness_no_open_record : (devIn .run Conf.reset []).lc = .run ∧
    (∀ q r, (devIn .run Conf.reset []).mq = q ++ [r] → r.closed = true) ∧
    (devIn .run Conf.reset []).mq.length < Params.default.qmsgs := by
  refine ⟨rfl, ?_, by decide⟩
  intro q r h
  simp [devIn] at h

/-- The clauses of HEAD: no record open and room for one more, and a record open. -/
theorem witness_HeadOpensARecord :
    ((devIn .run Conf.reset []).lc = .run ∧
      (∀ q r, (devIn .run Conf.reset []).mq = q ++ [r] → r.closed = true) ∧
      (devIn .run Conf.reset []).mq.length < Params.default.qmsgs) ∧
    ((openDev 1#17).lc = .run ∧ (openDev 1#17).mq = [] ++ [msg 2#16 [1#8] 1#17 false] ∧
      (msg 2#16 [1#8] 1#17 false).closed = false) :=
  ⟨witness_no_open_record, by decide⟩

/-- The clauses of END: a record open, none open, and an open head that FBC does not see. -/
theorem witness_EndClosesTheOpenRecord :
    ((openDev 1#17).lc = .run ∧ (openDev 1#17).mq = [] ++ [msg 2#16 [1#8] 1#17 false]) ∧
    ((devIn .run Conf.reset []).lc = .run ∧
      ∀ q r, (devIn .run Conf.reset []).mq = q ++ [r] → r.closed = true) ∧
    ((openDev 1#17).mq = msg 2#16 [1#8] 1#17 false :: [] ∧ (msg 2#16 [1#8] 1#17 false).closed = false ∧
      (openDev 1#17).fbc.phase = .idle) :=
  ⟨by decide, ⟨witness_no_open_record.1, witness_no_open_record.2.1⟩, by decide⟩

theorem witness_ReservedBeatSetsProtoErrAlone : busyDev.lc = .run := by decide

/-- `in_ready` of DATA at the last stored byte, and of HEAD at the last free record. -/
theorem witness_InReadyFollowsItsRule :
    inReady { Params.default with qbytes := 1 } (openDev 1#17) .data = false ∧
    inReady { Params.default with qbytes := 2 } (openDev 1#17) .data = true ∧
    inReady { Params.default with qbytes := 1 } (openDev 2#17) .data = true ∧
    inReady { Params.default with qmsgs := 1 } (openDev 1#17) .head = true ∧
    inReady { Params.default with qmsgs := 0 } (devIn .run Conf.reset []) .head = false ∧
    inReady { Params.default with qmsgs := 1 } (devIn .run Conf.reset []) .head = true := by decide

/-- The clauses of DATA at their boundaries: the last byte stored, the first not stored, the top. -/
theorem witness_DataCountsAndStoresTheByte :
    let m (k : BitVec 17) : Msg := msg 2#16 [1#8] k false
    ((openDev 1#17).mq = [] ++ [m 1#17] ∧ (m 1#17).cnt.toNat < (m 1#17).decl.toNat) ∧
    ((openDev 2#17).mq = [] ++ [m 2#17] ∧ (m 2#17).decl.toNat ≤ (m 2#17).cnt.toNat) ∧
    ((openDev 65536#17).mq = [] ++ [m 65536#17] ∧ (m 65536#17).decl.toNat ≤ (m 65536#17).cnt.toNat) ∧
    (openDev 65536#17).lc = .run ∧ (m 65536#17).closed = false := by decide

theorem witness_NoBeatIsAcceptedOutsideRun : (at_ Dev.reset [.producer]).dev.lc ≠ .run ∧
    (at_ Dev.reset [.producer]).nextTurn = .producer := by decide

theorem witness_DropRemovesABadMessage :
    let r := msg 2#16 [1#8] 1#17 true
    let d := devIn .drain Conf.reset [r]
    (d.lc = .run ∨ d.lc = .drain) ∧ d.fbc.phase = .idle ∧ d.mq = r :: [] ∧ r.closed = true ∧
    r.cnt.toNat ≠ r.decl.toNat := by decide

/-- What START needs of a device and its head record. -/
def startReady (d : Dev) (r : Msg) : Bool :=
  decide (d.lc = .run ∨ d.lc = .drain) && decide (d.fbc.phase = .idle) && decide (d.mq = r :: []) &&
    r.closed && decide (r.cnt.toNat = r.decl.toNat)

/-- Each clause of START: a preamble, a syncword alone, a payload alone, nothing. -/
theorem witness_StartEntersTheFirstPhaseWithBytes :
    let r := msg 1#16 [1#8] 1#17 true
    let e := msg 0#16 [] 0#17 true
    (startReady (devIn .run (confPS 1#16 0#4) [r]) r = true ∧ (confPS 1#16 0#4).preCount ≠ 0#16) ∧
    (startReady (devIn .run (confPS 0#16 1#4) [r]) r = true ∧ (confPS 0#16 1#4).preCount = 0#16 ∧
      (confPS 0#16 1#4).syncLen ≠ 0#4) ∧
    (startReady (devIn .drain (confPS 0#16 0#4) [r]) r = true ∧ (confPS 0#16 0#4).preCount = 0#16 ∧
      (confPS 0#16 0#4).syncLen = 0#4 ∧ r.decl ≠ 0#16) ∧
    (startReady (devIn .run (confPS 0#16 0#4) [e]) e = true ∧ e.decl = 0#16) := by decide

/-- A device in the middle of a phase. -/
def phaseDev (ph : Phase) (c : Conf) (k : BitVec 16) (r : Msg) : Dev :=
  { devIn .run c [r] with fbc := { phase := ph, cnt := k, sof := true, tag := 9#32 } }

/-- What the EMIT operation of a phase needs of a device and its head record. -/
def emitReady (ph : Phase) (d : Dev) (r : Msg) : Bool :=
  decide (d.lc = .run ∨ d.lc = .drain) && decide (d.fbc.phase = ph) &&
    decide (d.bch.length < Params.default.bcap) && decide (d.mq = r :: [])

/-- Each clause of EMIT_PRE: not the last byte, and the last before SYNC, PAY and IDLE. -/
theorem witness_EmitPreSendsOnePreambleByte :
    let r := msg 1#16 [1#8] 1#17 true
    let e := msg 0#16 [] 0#17 true
    (emitReady .pre (phaseDev .pre (confPS 2#16 1#4) 2#16 r) r = true ∧ 2 ≤ (2#16).toNat) ∧
    (emitReady .pre (phaseDev .pre (confPS 2#16 1#4) 1#16 r) r = true ∧ (confPS 2#16 1#4).syncLen ≠ 0#4) ∧
    (emitReady .pre (phaseDev .pre (confPS 2#16 0#4) 1#16 r) r = true ∧ (confPS 2#16 0#4).syncLen = 0#4 ∧
      r.decl ≠ 0#16) ∧
    (emitReady .pre (phaseDev .pre (confPS 2#16 0#4) 1#16 e) e = true ∧ e.decl = 0#16) := by decide

/-- Each clause of EMIT_SYNC: the first of eight bytes, and the last before PAY and IDLE. -/
theorem witness_EmitSyncSendsOneSyncwordByte :
    let r := msg 1#16 [1#8] 1#17 true
    let e := msg 0#16 [] 0#17 true
    (confPS 0#16 8#4).syncLen.toNat ≤ 8 ∧
    (emitReady .sync (phaseDev .sync (confPS 0#16 8#4) 8#16 r) r = true ∧ 2 ≤ (8#16).toNat ∧
      (8#16).toNat ≤ (confPS 0#16 8#4).syncLen.toNat) ∧
    (emitReady .sync (phaseDev .sync (confPS 0#16 8#4) 1#16 r) r = true ∧ 1 ≤ (1#16).toNat ∧
      (1#16).toNat ≤ (confPS 0#16 8#4).syncLen.toNat ∧ r.decl ≠ 0#16) ∧
    (emitReady .sync (phaseDev .sync (confPS 0#16 8#4) 1#16 e) e = true ∧ e.decl = 0#16) := by decide

/-- Each clause of EMIT_PAY: not the last byte, and the last. -/
theorem witness_EmitPaySendsOnePayloadByte :
    let r := msg 2#16 [1#8, 2#8] 2#17 true
    let e := msg 2#16 [2#8] 2#17 true
    (emitReady .pay (phaseDev .pay (confPS 0#16 0#4) 2#16 r) r = true ∧ r.data = 1#8 :: [2#8] ∧
      2 ≤ (2#16).toNat) ∧
    (emitReady .pay (phaseDev .pay (confPS 0#16 0#4) 1#16 e) e = true ∧ e.data = 2#8 :: []) := by decide

theorem witness_DrainDoneHalts : (devIn .drain Conf.reset []).lc = .drain ∧
    (devIn .drain Conf.reset []).empty := ⟨rfl, rfl, rfl, rfl, rfl, rfl⟩

theorem witness_EachInternalAgentHasAtMostOneOperation :
    (Dev.reset.lc = .unconf ∨ Dev.reset.lc = .halt) ∧
    ((devIn .run Conf.reset []).lc = .run ∧ (devIn .run Conf.reset []).fbc.phase = .idle ∧
      (devIn .run Conf.reset []).mq = []) ∧
    ((openDev 1#17).fbc.phase = .idle ∧ (openDev 1#17).mq = [msg 2#16 [1#8] 1#17 false] ∧
      (msg 2#16 [1#8] 1#17 false).closed = false) := by decide

/-- BRP empty, a whole byte and a part of one in BCH. -/
theorem witness_LoadTakesTheOldestItem :
    let d : Dev := { devIn .run Conf.reset [] with bch := [item 0xA6#8 true 1#32] }
    (d.lc = .run ∨ d.lc = .drain) ∧ d.brp.cnt = 0#4 ∧ d.bch = item 0xA6#8 true 1#32 :: [] ∧
    brpOp Params.default d = some .load ∧ Dev.reset.brp.cnt = 0#4 ∧ Dev.reset.bch = [] ∧
    (item 0xA6#8 true 1#32).width = 8 ∧ ({ item 0xA6#8 true 1#32 with width := 7 } : BItem).width ≠ 8 := by
  decide

/-- SHIFT at the first and at the last bit; eight of them in a row where OQ has room. -/
theorem witness_ShiftSendsOneBit :
    let d (k : BitVec 4) : Dev := { devIn .run Conf.reset [] with
      brp := { byte := 0xA6#8, cnt := k, sof := true, tag := 1#32 } }
    ((d 8#4).lc = .run ∧ 1 ≤ (d 8#4).brp.cnt.toNat ∧ (d 8#4).brp.cnt.toNat ≤ 8 ∧
      (d 8#4).oq.length < Params.default.ocap) ∧
    ((d 1#4).lc = .run ∧ 1 ≤ (d 1#4).brp.cnt.toNat ∧ (d 1#4).brp.cnt.toNat ≤ 8 ∧
      (d 1#4).oq.length < Params.default.ocap) ∧
    ((d 8#4).brp.cnt = 8#4 ∧ (d 8#4).oq.length + 8 ≤ ({ Params.default with ocap := 8 } : Params).ocap) := by
  decide

theorem witness_PartialByteRaisesAlignmentError :
    let x : BItem := { item 0xA6#8 true 1#32 with width := 7 }
    let d : Dev := { devIn .run Conf.reset [] with bch := [x] }
    (d.lc = .run ∨ d.lc = .drain) ∧ d.brp.cnt = 0#4 ∧ d.bch = x :: [] ∧ x.width ≠ 8 := by decide

theorem witness_EightShiftsSendTheByte :
    let d : Dev := { devIn .drain Conf.reset [] with
      brp := { byte := 0xA6#8, cnt := 8#4, sof := true, tag := 1#32 } }
    (d.lc = .run ∨ d.lc = .drain) ∧ d.brp.cnt = 8#4 ∧
    d.oq.length + 8 ≤ ({ Params.default with ocap := 8 } : Params).ocap := by decide

theorem witness_PopDeliversTheOldestItem :
    busyDev.oq = sym 0x3F800000#32 false 0#32 :: [] ∧ Dev.reset.oq = [] := by decide

theorem witness_BothResetsRestoreEveryRegister : (busy [] [] [.rst]).nextTurn = .rst := by decide

/-- Operations that answer a next state: one that meets the lock, one that resets. -/
theorem witness_ConfigurationIsLockedOutsideUnconf :
    (∃ t, exec (.wrCfg 0x101#32) (busy [] [] []) = .next t) ∧ busyDev.lc ≠ .unconf ∧
    Instr.wrCfg 0x101#32 ≠ .srst ∧
    (∃ t, step (busy [] [] [.rst]) = .next t ∧ t.dev.conf ≠ busyDev.conf) :=
  ⟨⟨_, rfl⟩, by decide, by decide, ⟨_, rfl, by decide⟩⟩

/-- One move of `LC` for each way the statement lists. -/
theorem witness_LifecycleMovesOnlyAsListed :
    (∃ t, exec .commit State.reset = .next t ∧ t.dev.lc ≠ State.reset.dev.lc) ∧
    (∃ t, exec .stop (busy [] [] []) = .next t ∧ t.dev.lc ≠ busyDev.lc) ∧
    (∃ t, exec .abort (busy [] [] []) = .next t ∧ t.dev.lc ≠ busyDev.lc) ∧
    (∃ t, exec .drainDone (at_ (devIn .drain Conf.reset []) []) = .next t ∧ t.dev.lc ≠ .drain) ∧
    (∃ t, exec .srst (busy [] [] []) = .next t ∧ t.dev.lc ≠ busyDev.lc) :=
  ⟨⟨_, rfl, by decide⟩, ⟨_, rfl, by decide⟩, ⟨_, rfl, by decide⟩, ⟨_, rfl, by decide⟩, ⟨_, rfl, by decide⟩⟩

/-- A flag kept, a flag left at 0 by WR STATUS, and each of the six set by a cause of its own. -/
theorem witness_FlagsChangeOnlyAsListed :
    (∃ t, exec .shift (at_ (flagged { Flags.reset with accErr := true } busyDev) []) = .next t ∧
      t.dev.flags.bits.getLsbD 5 = true) ∧
    (∃ t, exec (.wrStatus 0#32) (at_ (flagged { Flags.reset with accErr := true } busyDev) []) = .next t ∧
      t.dev.flags.bits.getLsbD 5 = true) ∧
    (after .commit (Dev.reset.setConf { Conf.reset with mode := 2#4, scr := 2#2 })).map Dev.flags =
      some { Flags.reset with cfgErr := true, unsupErr := true } ∧
    (after .drop (devIn .run Conf.reset [msg 2#16 [1#8] 1#17 true])).map Dev.flags =
      some { Flags.reset with framingErr := true } ∧
    (after .load { busyDev with bch := [{ item 1#8 false 0#32 with width := 5 }], brp := Brp.reset }).map
      Dev.flags = some { Flags.reset with alignErr := true } ∧
    (after .rsvd busyDev).map Dev.flags = some { Flags.reset with protoErr := true } ∧
    (after (.wrCfg 0#32) busyDev).map Dev.flags = some { Flags.reset with accErr := true } :=
  ⟨⟨_, rfl, by decide⟩, ⟨_, rfl, by decide⟩, by decide, by decide, by decide, by decide, by decide⟩

theorem witness_CountersCountOnlyTheirEvents :
    ∃ t, exec .emitPay (busy [] [] []) = .next t ∧ Instr.emitPay ≠ .srst ∧
      t.dev.framecnt ≠ busyDev.framecnt := ⟨_, rfl, by decide, by decide⟩

theorem witness_VerboseChangesNoOperationButTheReadOfCfg :
    Instr.rd 5#4 ≠ .rd 4#4 ∧ Instr.commit ≠ .rd 4#4 := by decide

/-! ### The invariant is met in the middle of things -/

theorem busyDev_inv : busyDev.Inv Params.default where
  sizes := by decide
  idle_iff := by decide
  head_good := fun _ => ⟨_, _, rfl, rfl, by decide, by decide, by decide⟩
  pay_left := by decide
  pre_left := by decide
  sync_left := by decide
  stored := by decide
  counted := by decide
  one_open := by decide
  all_closed := by decide
  mq_len := by decide
  mq_used := by decide
  bch_len := by decide
  oq_len := by decide
  bits_left := by decide
  still_empty := by intro h; exact absurd h (by decide)
  whole := by decide
  aligned := by decide
  accepted := by decide
  bch_tags := by decide
  oq_tags := by decide
  sof_idle := by decide

theorem witness_busy_inv (h : List (BitVec 37)) (b : List (BitVec 18)) (ts : List Turn) :
    (busy h b ts).Inv := busyDev_inv

theorem witness_EveryByteTakenGivesEightSymbols :
    (busy [] [] []).Inv ∧ Instr.shift ≠ .abort ∧ Instr.shift ≠ .srst ∧
    ∃ t, exec .shift (busy [] [] []) = .next t ∧ t.dev.oq.length = 2 :=
  ⟨busyDev_inv, by decide, by decide, _, rfl, by decide⟩

theorem witness_EveryStepKeepsTheInvariant :
    (busy [] [] [.fbc]).Inv ∧ ∃ t, step (busy [] [] [.fbc]) = .next t ∧ t.dev.framecnt = 1#32 :=
  ⟨busyDev_inv, _, rfl, by decide⟩

theorem witness_NoStepStopsUnderTheInvariant : (busy [] [] [.fbc]).Inv := busyDev_inv

/-- The last payload byte of a message: the step counts it, and the bad record and the open one stay. -/
theorem witness_CountedMessageIsWhollyBehindFbc :
    (busy [] [] [.fbc]).Inv ∧ ∃ t, step (busy [] [] [.fbc]) = .next t ∧
      busyDev.framecnt.toNat < t.dev.framecnt.toNat ∧ t.dev.mq.length = 2 ∧ t.dev.bch.length = 2 :=
  ⟨busyDev_inv, _, rfl, by decide, by decide, by decide⟩

theorem witness_InternalStepsKeepTheSymbolStream :
    (busy [] [] [.brp]).Inv ∧ (busy [] [] [.brp]).nextTurn.internal = true ∧
    ∃ t, step (busy [] [] [.brp]) = .next t ∧ t.dev.oq.length = 2 :=
  ⟨busyDev_inv, rfl, _, rfl, by decide⟩

/-- The END of a good message. -/
theorem witness_ArrivalAppendsOneFrame :
    (busy [] [0x10000#18] [.producer]).Inv ∧ (busy [] [0x10000#18] [.producer]).nextTurn = .producer ∧
    (∃ t, step (busy [] [0x10000#18] [.producer]) = .next t) ∧ beatKind 0x10000#18 = .msgEnd ∧
    busyDev.lc = .run ∧ busyDev.mq = busyDev.mq.dropLast ++ [msg 2#16 [5#8, 6#8] 2#17 false] ∧
    (msg 2#16 [5#8, 6#8] 2#17 false).cnt.toNat = (msg 2#16 [5#8, 6#8] 2#17 false).decl.toNat :=
  ⟨busyDev_inv, rfl, ⟨_, rfl⟩, by decide, rfl, rfl, by decide⟩

/-- A beat that is no END. -/
theorem witness_ArrivalAppendsNothing :
    (∃ t, step (busy [] [0x000A6#18] [.producer]) = .next t) ∧
    (∀ (q : List Msg) (r : Msg) w ws, (busy [] [0x000A6#18] [.producer]).env.beatQ = w :: ws →
      beatKind w = .msgEnd → busyDev.lc = .run → busyDev.mq = q ++ [r] → r.closed = false →
      r.cnt.toNat ≠ r.decl.toNat) := by
  refine ⟨⟨_, rfl⟩, ?_⟩
  intro q r w ws h hk
  cases h
  exact absurd hk (by decide)

theorem witness_OnlyAbortAndResetCutTheStream :
    (busy [0x1100000003#37] [] [.host]).Inv ∧ (busy [0x1100000003#37] [] [.host]).nextTurn = .host ∧
    ∃ t, step (busy [0x1100000003#37] [] [.host]) = .next t ∧ t.dev.lc = .halt :=
  ⟨busyDev_inv, rfl, _, rfl, by decide⟩

/-- All three agents have an enabled operation at once. -/
theorem witness_InternalAgentsCommute :
    fbcOp Params.default busyDev = some .emitPay ∧ brpOp Params.default busyDev = some .shift ∧
    consumerOp busyDev = some .pop ∧ (∃ t, exec .emitPay (busy [] [] []) = .next t) ∧
    (∃ t, exec .shift (busy [] [] []) = .next t) ∧ (∃ t, exec .pop (busy [] [] []) = .next t) :=
  ⟨by decide, by decide, by decide, ⟨_, rfl⟩, ⟨_, rfl⟩, ⟨_, rfl⟩⟩

/-- A device in RUN with nothing in flight and neither preamble nor syncword. -/
theorem quietDev_inv (p : Params) (h : p.legal = true) : (devIn .run (confPS 0#16 0#4) []).Inv p where
  sizes := h
  idle_iff := by decide
  head_good := by intro hp; exact absurd rfl hp
  pay_left := by decide
  pre_left := by decide
  sync_left := by decide
  stored := by decide
  counted := by decide
  one_open := by decide
  all_closed := by decide
  mq_len := Nat.zero_le _
  mq_used := Nat.zero_le _
  bch_len := Nat.zero_le _
  oq_len := Nat.zero_le _
  bits_left := by decide
  still_empty := fun _ => ⟨rfl, rfl, rfl, rfl, rfl⟩
  whole := by decide
  aligned := by decide
  accepted := by decide
  bch_tags := by decide
  oq_tags := by decide
  sof_idle := by decide

/-- An empty message offered, under sizes and turns of its own. -/
def quiet (p : Params) (ts : List Turn) : State :=
  { dev := devIn .run (confPS 0#16 0#4) []
    env := { Env.reset with params := p, schedule := ts, beatQ := [0x20000#18, 0x10000#18] } }

def smallSizes : Params := { qmsgs := 1, qbytes := 65535, bcap := 1, ocap := 1 }

/-- Two orders of turns, two sets of sizes, both at rest at the end. -/
theorem witness_EgressDoesNotDependOnTheSchedule :
    (quiet Params.default [.producer, .producer, .fbc]).Inv ∧
    (quiet smallSizes [.producer, .brp, .producer, .fbc]).Inv ∧
    (∃ t, Sys2Proof.core.run 3 (quiet Params.default [.producer, .producer, .fbc]) = .next t ∧
      State.quiescent t) ∧
    (∃ t, Sys2Proof.core.run 4 (quiet smallSizes [.producer, .brp, .producer, .fbc]) = .next t ∧
      State.quiescent t) :=
  ⟨quietDev_inv _ rfl, quietDev_inv _ rfl, ⟨_, rfl, rfl, rfl, rfl, rfl, rfl, rfl, rfl⟩,
    ⟨_, rfl, rfl, rfl, rfl, rfl, rfl, rfl, rfl⟩⟩

/-- A flush with one symbol left. -/
def lastSymbol : Dev :=
  { devIn .drain (confPS 0#16 0#4) [] with oq := [sym 0x3F800000#32 false 0#32] }

theorem lastSymbol_inv : lastSymbol.Inv Params.default where
  sizes := by decide
  idle_iff := by decide
  head_good := by intro hp; exact absurd rfl hp
  pay_left := by decide
  pre_left := by decide
  sync_left := by decide
  stored := by decide
  counted := by decide
  one_open := by decide
  all_closed := by decide
  mq_len := by decide
  mq_used := by decide
  bch_len := by decide
  oq_len := by decide
  bits_left := by decide
  still_empty := by intro h; exact absurd h (by decide)
  whole := by decide
  aligned := by decide
  accepted := by decide
  bch_tags := by decide
  oq_tags := by decide
  sof_idle := by decide

theorem witness_FlushDeliversEverythingOwed :
    (at_ lastSymbol [.consumer, .fbc]).Inv ∧ lastSymbol.lc = .drain ∧
    (∀ x ∈ [Turn.consumer, .fbc], x.internal = true) ∧
    ∃ t : State, Sys2Proof.core.run 2 (at_ lastSymbol [.consumer, .fbc]) = .next t ∧ t.dev.lc = .halt :=
  ⟨lastSymbol_inv, rfl, by decide, _, rfl, rfl⟩

/-- In DRAIN with a symbol left, and in RUN with nothing to move. -/
theorem witness_SomeAgentCanMoveWhileDataIsInFlight :
    (at_ lastSymbol []).Inv ∧ lastSymbol.lc = .drain ∧ (quiet Params.default []).Inv ∧
    (quiet Params.default []).dev.lc = .run ∧ (quiet Params.default []).canMove = false :=
  ⟨lastSymbol_inv, rfl, quietDev_inv _ rfl, rfl, by decide⟩

theorem witness_EveryInternalOperationUsesUpWork :
    (busy [] [] []).Inv ∧ fbcOp Params.default busyDev = some .emitPay ∧
    ∃ t, exec .emitPay (busy [] [] []) = .next t ∧ t.dev.work + 1 = busyDev.work :=
  ⟨busyDev_inv, by decide, _, rfl, by decide⟩

/-! ### A fair run: MQ is full of a bad and an empty message, a symbol is owed, a HEAD is offered -/

def fairTurns : Nat → Turn
  | 0 => .producer
  | 1 => .consumer
  | 2 => .fbc
  | 3 => .fbc
  | 4 => .producer
  | _ => .host

def fairStart : Dev :=
  { devIn .run (confPS 0#16 0#4) [msg 1#16 [] 0#17 true, msg 0#16 [] 0#17 true] with
    oq := [sym 0x3F800000#32 false 0#32] }

/-- The HEAD waits, the symbol goes, the bad message is dropped, the empty one is done, the HEAD is
accepted; from then on no agent has an operation. -/
def fairDev : Nat → Dev
  | 0 => fairStart
  | 1 => fairStart
  | 2 => fairStart.setOq []
  | 3 => { devIn .run (confPS 0#16 0#4) [msg 0#16 [] 0#17 true] with
      ferrcnt := 1#32, flags := { Flags.reset with framingErr := true } }
  | 4 => { devIn .run (confPS 0#16 0#4) [] with
      ferrcnt := 1#32, flags := { Flags.reset with framingErr := true }, framecnt := 1#32 }
  | _ => { devIn .run (confPS 0#16 0#4) [msg 0#16 [] 0#17 false] with
      ferrcnt := 1#32, flags := { Flags.reset with framingErr := true }, framecnt := 1#32 }

def fairRun (n : Nat) : State :=
  { dev := fairDev n
    env := { Env.reset with
      params := { qmsgs := 2, qbytes := 65535, bcap := 1, ocap := 1 }
      turnNo := n
      beatQ := if n ≤ 4 then [0x20000#18] else []
      delivered := if n ≤ 1 then [] else [sym 0x3F800000#32 false 0#32] } }

theorem fairRun_isRun : IsRun fairTurns fairRun
  | 0 => ⟨_, [], [], rfl, rfl⟩
  | 1 => ⟨_, [], [], rfl, rfl⟩
  | 2 => ⟨_, [], [], rfl, by decide⟩
  | 3 => ⟨_, [], [], rfl, by decide⟩
  | 4 => ⟨_, [], [], rfl, by decide⟩
  | _ + 5 => ⟨_, [], [], rfl, rfl⟩

/-- No agent has an operation from the fifth step on, so the run is weakly fair to each. -/
theorem fairRun_rests (n : Nat) (t : Turn) : (fairRun (n + 5)).enabledOp t = none := by
  cases t <;> rfl

theorem fairRun_weaklyFair (t : Turn) : WeaklyFair fairTurns fairRun t := by
  intro n i h
  have := h (n + 5) (Nat.le_add_right n 5)
  rw [fairRun_rests] at this
  cases this

theorem fairRun_uncut : ∀ m, ¬ (fairRun m).cutBy (fairTurns m)
  | 0 => by unfold State.cutBy; decide
  | 1 => by unfold State.cutBy; decide
  | 2 => by unfold State.cutBy; decide
  | 3 => by unfold State.cutBy; decide
  | 4 => by unfold State.cutBy; decide
  | m + 5 => by unfold State.cutBy; rw [fairRun_rests]; simp [fairTurns]

theorem fairRun_inv : (fairRun 0).Inv where
  sizes := by decide
  idle_iff := by decide
  head_good := by intro hp; exact absurd rfl hp
  pay_left := by decide
  pre_left := by decide
  sync_left := by decide
  stored := by decide
  counted := by decide
  one_open := by decide
  all_closed := by decide
  mq_len := by decide
  mq_used := by decide
  bch_len := by decide
  oq_len := by decide
  bits_left := by decide
  still_empty := by intro h; exact absurd h (by decide)
  whole := by decide
  aligned := by decide
  accepted := by decide
  bch_tags := by decide
  oq_tags := by decide
  sof_idle := by decide

/-- A symbol owed, and two messages waiting, one behind the other. -/
theorem witness_FairRunsDropOrEmitEveryArrivedMessage :
    IsRun fairTurns fairRun ∧ (fairRun 0).Inv ∧ (∀ t, WeaklyFair fairTurns fairRun t) ∧
    (∀ m, 0 ≤ m → ¬ (fairRun m).cutBy (fairTurns m)) ∧ (fairRun 0).stream.length = 1 ∧
    waiting (fairRun 0).dev = [] ++ msg 1#16 [] 0#17 true :: [msg 0#16 [] 0#17 true] ∧
    waiting (fairRun 0).dev = [msg 1#16 [] 0#17 true] ++ msg 0#16 [] 0#17 true :: [] :=
  ⟨fairRun_isRun, fairRun_inv, fairRun_weaklyFair, fun m _ => fairRun_uncut m, by decide, rfl, rfl⟩

/-- The HEAD offered is not accepted at first. -/
theorem witness_FairRunsAcceptEveryOfferedBeat :
    IsRun fairTurns fairRun ∧ (fairRun 0).Inv ∧ (∀ t, WeaklyFair fairTurns fairRun t) ∧
    (∀ m, 0 ≤ m → (fairRun m).dev.lc = .run) ∧ (fairRun 0).env.beatQ = 0x20000#18 :: [] ∧
    inReady (fairRun 0).env.params (fairRun 0).dev (beatKind 0x20000#18) = false := by
  refine ⟨fairRun_isRun, fairRun_inv, fairRun_weaklyFair, fun m _ => ?_, rfl, by decide⟩
  rcases m with _ | _ | _ | _ | _ | m <;> rfl

end Sys2Proof.Tests
end

section
/-! What one turn of each agent comes to, and what a word placed for the next step becomes. -/

namespace Sys2Proof.Machine

open Sys2Proof

/-! ### A step from what its turn fetches -/

section
variable {s u : State} {t : Turn} {i : Instr}

theorem step_of_fetch_run (ht : s.nextTurn = t) (hf : fetch t s.takeTurn = .run i u) :
    step s = exec i u := by
  simp only [step, ht, hf]

theorem step_of_fetch_wait (ht : s.nextTurn = t) (hf : fetch t s.takeTurn = .wait) :
    step s = .next s.takeTurn := by
  simp only [step, ht, hf, wait_eq]

end

/-! ### What the turn of each agent fetches -/

section
variable {s : State} {i : Instr}

theorem fetch_host_nil (hq : s.env.hostQ = []) : fetch .host s = .wait := by
  simp only [fetch, fetchHost, hq]

theorem fetch_host_cons {w : BitVec 37} {ws : List (BitVec 37)} (hq : s.env.hostQ = w :: ws) :
    fetch .host s = .run (decodeCtl w) (s.setHostQ ws) := by
  simp only [fetch, fetchHost, hq]

theorem fetch_producer_nil (hq : s.env.beatQ = []) : fetch .producer s = .wait := by
  simp only [fetch, fetchProducer, hq]

/-- A beat at the head of the queue is performed exactly when it is accepted (R130). -/
theorem fetch_producer_cons {w : BitVec 18} {ws : List (BitVec 18)} (hq : s.env.beatQ = w :: ws) :
    fetch .producer s =
      if inReady s.env.params s.dev (beatKind w) then .run (decodeBeat w) (s.setBeatQ ws)
      else .wait := by
  simp only [fetch, fetchProducer, hq]

theorem fetch_producer_accepted {w : BitVec 18} {ws : List (BitVec 18)}
    (hq : s.env.beatQ = w :: ws) (hr : inReady s.env.params s.dev (beatKind w) = true) :
    fetch .producer s = .run (decodeBeat w) (s.setBeatQ ws) := by
  rw [fetch_producer_cons hq, if_pos hr]

theorem fetch_producer_held {w : BitVec 18} {ws : List (BitVec 18)}
    (hq : s.env.beatQ = w :: ws) (hr : inReady s.env.params s.dev (beatKind w) = false) :
    fetch .producer s = .wait := by
  rw [fetch_producer_cons hq, if_neg (Bool.eq_false_iff.mp hr)]

theorem fetch_fbc_some (ho : fbcOp s.env.params s.dev = some i) : fetch .fbc s = .run i s := by
  simp only [fetch, fetchSelected, ho]

theorem fetch_fbc_none (ho : fbcOp s.env.params s.dev = none) : fetch .fbc s = .wait := by
  simp only [fetch, fetchSelected, ho]

theorem fetch_brp_some (ho : brpOp s.env.params s.dev = some i) : fetch .brp s = .run i s := by
  simp only [fetch, fetchSelected, ho]

theorem fetch_brp_none (ho : brpOp s.env.params s.dev = none) : fetch .brp s = .wait := by
  simp only [fetch, fetchSelected, ho]

theorem consumerOp_eq_none {d : Dev} : consumerOp d = none ↔ d.oq = [] := by
  simp [consumerOp]

theorem fetch_consumer_of_oq_ne_nil (hq : s.dev.oq ≠ []) : fetch .consumer s = .run .pop s := by
  simp only [fetch, fetchSelected, consumerOp_eq_some.mpr ⟨rfl, hq⟩]

theorem fetch_consumer_of_oq_nil (hq : s.dev.oq = []) : fetch .consumer s = .wait := by
  simp only [fetch, fetchSelected, consumerOp_eq_none.mpr hq]

end

/-! ### A word placed for the next step -/

/-- The device `placeWord` prepares accepts the beat: either it did so already, or it is in RUN with an
empty `MQ`, where only a HEAD needs room, and one record is the least legal size (R5, R130). -/
theorem inReady_openedFor {p : Params} (hp : p.legal = true) (k : BeatKind) (d : Dev) :
    inReady p (openedFor p k d) k = true := by
  cases hr : inReady p d k with
  | true => rw [openedFor, if_pos hr, hr]
  | false =>
    rw [openedFor, if_neg (Bool.eq_false_iff.mp hr)]
    have hroom : 0 < p.qmsgs := by
      simp only [Params.legal, Bool.and_eq_true, decide_eq_true_eq] at hp
      omega
    cases k with
    | head => rw [inReady_head p rfl]; simp [hroom]
    | data => exact inReady_data_none p rfl rfl
    | msgEnd => exact inReady_msgEnd p rfl
    | rsvd => exact inReady_rsvd p rfl

theorem withFetchWord_ctl (s : State) {w : Nat} (hw : w < 2 ^ 37) :
    s.withFetchWord 40 w = s.placeWord (.ctl (BitVec.ofNat 37 w)) := by
  simp only [State.withFetchWord, portWord, if_pos hw]

theorem withFetchWord_beat (s : State) {w : Nat} (hw : w < 2 ^ 18) :
    s.withFetchWord 24 w = s.placeWord (.beat (BitVec.ofNat 18 w)) := by
  simp only [State.withFetchWord, portWord, if_pos hw]

/-- The placed word is taken off its queue and its turn off the schedule: only the count of turns is left
of the placing. -/
theorem step_placeWord_ctl (s : State) (w : BitVec 37) :
    step (s.placeWord (.ctl w)) =
      exec (decodeCtl w) { s with env := { s.env with turnNo := s.env.turnNo + 1 } } :=
  step_of_fetch_run (t := .host) rfl (fetch_host_cons rfl)

theorem step_placeWord_beat (s : State) (w : BitVec 18) (hp : s.env.params.legal = true) :
    step (s.placeWord (.beat w)) =
      exec (decodeBeat w)
        { dev := openedFor s.env.params (beatKind w) s.dev
          env := { s.env with turnNo := s.env.turnNo + 1 } } :=
  step_of_fetch_run (t := .producer) rfl
    (fetch_producer_accepted rfl (inReady_openedFor hp (beatKind w) s.dev))

/-! ### The obligations -/

/-- Settles O5: each agent's turn fetches its operation, and `step` is `exec` of what it fetches. -/
theorem stepPerformsTheDecodedOperation : Obligations.StepPerformsTheDecodedOperation := fun s =>
  ⟨fun _ _ ht hq => step_of_fetch_run ht (fetch_host_cons (s := s.takeTurn) hq),
   fun _ _ ht hq hr => step_of_fetch_run ht (fetch_producer_accepted (s := s.takeTurn) hq hr),
   fun _ ht ho => step_of_fetch_run ht (fetch_fbc_some (s := s.takeTurn) ho),
   fun _ ht ho => step_of_fetch_run ht (fetch_brp_some (s := s.takeTurn) ho),
   fun ht hq => step_of_fetch_run ht (fetch_consumer_of_oq_ne_nil (s := s.takeTurn) hq)⟩

/-- Settles O6: each agent with nothing enabled fetches a wait, which only uses the turn. -/
theorem waitingAgentChangesNothing : Obligations.WaitingAgentChangesNothing := fun s =>
  ⟨fun ht hq => step_of_fetch_wait ht (fetch_host_nil (s := s.takeTurn) hq),
   fun ht hq => step_of_fetch_wait ht (fetch_producer_nil (s := s.takeTurn) hq),
   fun _ _ ht hq hr => step_of_fetch_wait ht (fetch_producer_held (s := s.takeTurn) hq hr),
   fun ht ho => step_of_fetch_wait ht (fetch_fbc_none (s := s.takeTurn) ho),
   fun ht ho => step_of_fetch_wait ht (fetch_brp_none (s := s.takeTurn) ho),
   fun ht hq => step_of_fetch_wait ht (fetch_consumer_of_oq_nil (s := s.takeTurn) hq),
   s.takeTurn_dev, s.takeTurn_hostQ, s.takeTurn_beatQ, s.takeTurn_reads, s.takeTurn_delivered,
   s.takeTurn_params⟩

/-- Settles O7: a placed Format C word is HOST's next transaction; a placed Format I word is PRODUCER's
next beat, on a device that accepts it. -/
theorem placedWordIsPerformedNext : Obligations.PlacedWordIsPerformedNext := by
  intro s w
  constructor
  · intro hw
    rw [withFetchWord_ctl s hw, step_placeWord_ctl]
  · intro hw hp
    rw [withFetchWord_beat s hw, step_placeWord_beat s _ hp]

end Sys2Proof.Machine
end

section
/-! The invariant (spec/10_state.md R43) under each named update and each operation of the device. -/

namespace Sys2Proof.Machine

open Sys2Proof

/-! ### COMMIT as its checks and its move (R114) -/

/-- An error raised where its check fails. -/
def raiseIf (c : Bool) (e : Err) (d : Dev) : Dev := if c then raise e d else d

@[simp] theorem raiseIf_conf (c : Bool) (e : Err) (d : Dev) : (raiseIf c e d).conf = d.conf := by
  cases c
  · rfl
  · exact raise_conf e d

/-- The checks of COMMIT, both of them, and the errors they raise. -/
def commitChecks (d : Dev) : Dev :=
  raiseIf d.conf.modeRs .unsupportedMode
    (raiseIf (d.conf.modeBad || d.conf.scrBad || d.conf.syncBad) .configuration d)

@[simp] theorem commitChecks_conf (d : Dev) : (commitChecks d).conf = d.conf := by
  simp [commitChecks]

theorem commitDev_eq (d : Dev) : commitDev d =
    if d.conf.legal then (commitChecks d).setLc .run else commitChecks d := rfl

/-! ### What the invariant says of the lifecycle -/

section
variable {p : Params} {d : Dev}

/-- FBC is inside a message only in RUN and DRAIN. -/
theorem Dev.Inv.moving_of_busy (h : d.Inv p) (hp : d.fbc.phase ≠ .idle) :
    d.lc = .run ∨ d.lc = .drain := by
  by_contra hlc
  have hstill : d.lc = .unconf ∨ d.lc = .halt := by
    cases hl : d.lc <;> simp [hl] at hlc ⊢
  obtain ⟨-, -, -, hidle, -⟩ := h.still_empty hstill
  exact hp hidle

theorem Dev.not_still {d : Dev} (hm : d.lc = .run ∨ d.lc = .drain) :
    ¬ (d.lc = .unconf ∨ d.lc = .halt) := by
  rcases hm with hm | hm <;> simp [hm]

/-- In RUN and DRAIN the configuration is one COMMIT accepted (R72). -/
theorem Dev.Inv.legal_of_moving (h : d.Inv p) (hm : d.lc = .run ∨ d.lc = .drain) :
    d.conf.legal = true :=
  h.accepted (by rcases hm with hm | hm <;> simp [hm])

/-- A record still open has not been begun: the one FBC sends is closed. -/
theorem Dev.Inv.ne_nil_before_open (h : d.Inv p) {l : List Msg} {r : Msg} (hq : d.mq = l ++ [r])
    (hr : r.closed = false) (hp : d.fbc.phase ≠ .idle) : l ≠ [] := by
  rintro rfl
  obtain ⟨x, rest, hx, hc, -⟩ := h.head_good hp
  rw [hq, List.nil_append, List.cons.injEq] at hx
  rw [← hx.1, hr] at hc
  cases hc

/-! ### Updates of one field -/

theorem Dev.Inv.setFlags (h : d.Inv p) {f : Flags} (hf : f.alignErr = false) :
    (d.setFlags f).Inv p :=
  { h with aligned := hf }

theorem Dev.Inv.setIen (h : d.Inv p) (x : BitVec 6) : (d.setIen x).Inv p := { h with }

/-- No error but AlignmentError touches anything the invariant speaks of (R200). -/
theorem Dev.Inv.raise (h : d.Inv p) {e : Err} (he : e ≠ .alignment) : (raise e d).Inv p := by
  cases e
  case alignment => exact absurd rfl he
  all_goals exact { h with }

theorem Dev.Inv.acknowledge (h : d.Inv p) (v : Word) : (acknowledge d v).Inv p :=
  h.setFlags (by simp [Flags.clear, h.aligned])

theorem Dev.Inv.setConf (h : d.Inv p) (hlc : d.lc = .unconf) (c : Conf) : (d.setConf c).Inv p := by
  obtain ⟨-, -, -, hidle, -⟩ := h.still_empty (.inl hlc)
  exact
    { h with
      head_good := fun hp => absurd hidle hp
      pre_left := fun hp => by simp [hidle] at hp
      sync_left := fun hp => by simp [hidle] at hp
      accepted := fun hne => absurd hlc hne }

/-- Into RUN: what COMMIT does to a configuration it accepts (R114). -/
theorem Dev.Inv.setLc_run (h : d.Inv p) (hc : d.conf.legal = true) : (d.setLc .run).Inv p :=
  { h with
    all_closed := fun hne => absurd rfl hne
    still_empty := fun hl => by simp at hl
    accepted := fun _ => hc }

/-- Into DRAIN: no record is open any more (R115). -/
theorem Dev.Inv.setLc_drain (h : d.Inv p) (hlc : d.lc = .run) (hq : ∀ r ∈ d.mq, r.closed = true) :
    (d.setLc .drain).Inv p :=
  { h with
    all_closed := fun _ => hq
    still_empty := fun hl => by simp at hl
    accepted := fun _ => h.legal_of_moving (.inl hlc) }

/-- Into HALT: nothing is in flight (R157). -/
theorem Dev.Inv.setLc_halt (h : d.Inv p) (hlc : d.lc = .drain) (he : d.empty) :
    (d.setLc .halt).Inv p :=
  { h with
    all_closed := fun _ => h.all_closed (by simp [hlc])
    still_empty := fun _ => he
    accepted := fun _ => h.legal_of_moving (.inr hlc) }

/-- A device with nothing in flight, whatever its flags, counters and enables are. -/
theorem Dev.Inv.of_empty (hp : p.legal = true) (hmq : d.mq = []) (hfbc : d.fbc = Fbc.reset)
    (hbch : d.bch = []) (hbrp : d.brp.cnt = 0#4) (hoq : d.oq = []) (hal : d.flags.alignErr = false)
    (hc : d.lc ≠ .unconf → d.conf.legal = true) : d.Inv p where
  sizes := hp
  idle_iff := by simp [hfbc, Fbc.reset]
  head_good := by simp [hfbc, Fbc.reset]
  pay_left := by simp [hfbc, Fbc.reset]
  pre_left := by simp [hfbc, Fbc.reset]
  sync_left := by simp [hfbc, Fbc.reset]
  stored := by simp [waiting, hfbc, Fbc.reset, hmq]
  counted := by simp [hmq]
  one_open := by simp [hmq]
  all_closed := by simp [hmq]
  mq_len := by simp [hmq]
  mq_used := by simp [hmq]
  bch_len := by simp [hbch]
  oq_len := by simp [hoq]
  bits_left := by simp [hbrp]
  still_empty := fun _ => ⟨hmq, hbch, hoq, by rw [hfbc]; rfl, hbrp⟩
  whole := by simp [hbch]
  aligned := hal
  accepted := hc
  bch_tags := by simp [hbch]
  oq_tags := by simp [hoq]
  sof_idle := by simp [hfbc, Fbc.reset]

/-- The reset values (R42). -/
theorem Dev.inv_reset (hp : p.legal = true) : Dev.reset.Inv p :=
  .of_empty hp rfl rfl rfl rfl rfl rfl (fun h => absurd rfl h)

/-! ### The operations of HOST -/

theorem Dev.Inv.raiseIf (h : d.Inv p) (c : Bool) {e : Err} (he : e ≠ .alignment) :
    (raiseIf c e d).Inv p := by
  cases c
  · exact h
  · exact h.raise he

theorem Dev.Inv.commit (h : d.Inv p) : (commitDev d).Inv p := by
  have hc : (commitChecks d).Inv p := (h.raiseIf _ (by decide)).raiseIf _ (by decide)
  rw [commitDev_eq]
  split
  · next hl => exact hc.setLc_run (by rwa [commitChecks_conf])
  · exact hc

theorem Dev.Inv.abort (h : d.Inv p) (hm : d.lc = .run ∨ d.lc = .drain) : (abortDev d).Inv p :=
  .of_empty h.sizes rfl rfl rfl rfl rfl h.aligned (fun _ => h.legal_of_moving hm)

/-! ### The newest records of `MQ` replaced, in RUN -/

/-- Behind the record FBC sends, records may come and go: those that take the place of `q` are stored and
counted as R34 says, leave room, and only the last may be open. -/
theorem Dev.Inv.setNewest (h : d.Inv p) {l q q' : List Msg} (hq : d.mq = l ++ q)
    (hlc : d.lc = .run) (hl : d.fbc.phase ≠ .idle → l ≠ [])
    (hstored : ∀ r ∈ q', r.data.length = min r.cnt.toNat r.decl.toNat)
    (hcounted : ∀ r ∈ q', r.cnt.toNat ≤ Config.cntMax)
    (hopen : ∀ r ∈ (l ++ q').dropLast, r.closed = true)
    (hlen : (l ++ q').length ≤ p.qmsgs) (hused : usedBytes (l ++ q') ≤ p.qbytes) :
    (d.setMq (l ++ q')).Inv p := by
  have hhead : d.fbc.phase ≠ .idle → ∃ x xs, l = x :: xs := fun hp =>
    List.exists_cons_of_ne_nil (hl hp)
  refine
    { h with
      head_good := fun hp => ?_
      pay_left := fun hp => ?_
      stored := fun r hr => ?_
      counted := fun r hr => ?_
      one_open := hopen
      all_closed := fun hne => absurd hlc hne
      mq_len := hlen
      mq_used := hused
      still_empty := fun hs => absurd hs (Dev.not_still (.inl hlc)) }
  · obtain ⟨x, xs, rfl⟩ := hhead hp
    obtain ⟨r, rest, hr, hrest⟩ := h.head_good hp
    rw [hq, List.cons_append, List.cons.injEq] at hr
    exact ⟨r, xs ++ q', by simp [hr.1], hrest⟩
  · obtain ⟨x, xs, rfl⟩ := hhead (by rw [show d.fbc.phase = .pay from hp]; decide)
    simpa [hq] using h.pay_left hp
  · have hw : ∀ r ∈ waiting (d.setMq (l ++ q')), r ∈ waiting d ∨ r ∈ q' := by
      intro r hr
      by_cases hp : d.fbc.phase = .idle
      · rw [waiting_idle hp, hq]
        rw [waiting_idle (d := d.setMq (l ++ q')) hp, Dev.setMq_mq, List.mem_append] at hr
        exact hr.imp_left (List.mem_append_left q)
      · obtain ⟨x, xs, rfl⟩ := hhead hp
        rw [waiting_busy hp, hq]
        rw [waiting_busy (d := d.setMq (x :: xs ++ q')) hp, Dev.setMq_mq, List.cons_append, List.tail_cons,
          List.mem_append] at hr
        exact hr.imp_left (List.mem_append_left q)
    exact (hw r hr).elim (h.stored r) (hstored r)
  · rw [Dev.setMq_mq, List.mem_append] at hr
    exact hr.elim (fun hl => h.counted r (by simp [hq, hl])) (hcounted r)

/-- The open record rewritten: its new form is stored and counted as R34 says, and leaves room. -/
theorem Dev.Inv.setOpen (h : d.Inv p) {l : List Msg} {r r' : Msg} (hq : d.mq = l ++ [r])
    (hr : r.closed = false) (hlc : d.lc = .run)
    (hstored : r'.data.length = min r'.cnt.toNat r'.decl.toNat)
    (hcounted : r'.cnt.toNat ≤ Config.cntMax) (hused : usedBytes (l ++ [r']) ≤ p.qbytes) :
    (d.setMq (l ++ [r'])).Inv p :=
  h.setNewest hq hlc (h.ne_nil_before_open hq hr) (by simpa using hstored) (by simpa using hcounted)
    (by simpa [hq] using h.one_open) (by simpa [hq] using h.mq_len) hused

/-- The open record as the invariant knows it: not begun, so stored as R34 says. -/
theorem Dev.Inv.open_stored (h : d.Inv p) {l : List Msg} {r : Msg} (hq : d.mq = l ++ [r])
    (hr : r.closed = false) : r.data.length = min r.cnt.toNat r.decl.toNat := by
  refine h.stored r ?_
  by_cases hp : d.fbc.phase = .idle
  · simp [waiting_idle hp, hq]
  · obtain ⟨x, xs, rfl⟩ := List.exists_cons_of_ne_nil (h.ne_nil_before_open hq hr hp)
    simp [waiting_busy hp, hq]

/-- All records are closed when the newest is, or when there is none. -/
theorem Dev.Inv.closed_of_none_open (h : d.Inv p) (ho : openMsg d.mq = none) :
    ∀ r ∈ d.mq, r.closed = true := by
  intro r hr
  rcases List.eq_nil_or_concat d.mq with hq | ⟨l, x, hq⟩
  · simp [hq] at hr
  · rw [List.concat_eq_append] at hq
    have hl := h.one_open
    rw [hq, List.dropLast_concat] at hl
    rw [hq, List.mem_append, List.mem_singleton] at hr
    rcases hr with hr | rfl
    · exact hl r hr
    · exact openMsg_eq_none.mp ho l r hq

theorem Dev.Inv.stop (h : d.Inv p) (hlc : d.lc = .run) : (stopDev d).Inv p := by
  unfold stopDev
  cases ho : openMsg d.mq with
  | none => exact h.setLc_drain hlc (h.closed_of_none_open ho)
  | some r =>
    obtain ⟨hq, hr⟩ := openMsg_eq_some.mp ho
    have hlen : d.mq.dropLast.length ≤ p.qmsgs := by
      have := h.mq_len
      rw [List.length_dropLast]; omega
    have hused : usedBytes d.mq.dropLast ≤ p.qbytes := by
      have := h.mq_used
      rw [hq, usedBytes_append] at this; omega
    have hd : (d.setMq (d.mq.dropLast ++ [])).Inv p :=
      h.setNewest hq hlc (h.ne_nil_before_open hq hr) (by simp) (by simp)
        (fun x hx => h.one_open x (List.mem_of_mem_dropLast (by simpa using hx)))
        (by simpa using hlen) (by simpa using hused)
    rw [List.append_nil] at hd
    exact hd.setLc_drain hlc h.one_open

/-! ### The operations of PRODUCER -/

theorem Dev.Inv.head (h : d.Inv p) (hr : inReady p d .head = true) (n : BitVec 16) :
    (headDev n d).Inv p := by
  have hlc := run_of_inReady hr
  unfold headDev
  cases ho : openMsg d.mq with
  | some r => exact h.raise (by decide)
  | none =>
    have hroom : d.mq.length < p.qmsgs := by simpa [inReady_head p hlc, ho] using hr
    refine h.setNewest (q := []) (List.append_nil _).symm hlc ?_ (by simp [Msg.fresh])
      (by simp [Msg.fresh]) ?_ (by simp; omega) (by simpa [Msg.fresh] using h.mq_used)
    · intro hp hnil
      obtain ⟨x, rest, hx, -⟩ := h.head_good hp
      simp [hnil] at hx
    · simpa using h.closed_of_none_open ho

/-- One more DATA beat counted keeps what R34 says of a record. -/
theorem Msg.addByte_stored {r : Msg} (b : Byte) (h : r.data.length = min r.cnt.toNat r.decl.toNat) :
    (r.addByte b).data.length = min (r.addByte b).cnt.toNat (r.addByte b).decl.toNat := by
  have hd := r.decl.isLt
  simp only [Msg.addByte, satIncCnt_toNat]
  split
  · simp only [List.length_append, List.length_singleton, h]; omega
  · simp only [h]; omega

/-- An accepted DATA finds room for what it stores (R130). -/
theorem Dev.Inv.addByte_used (h : d.Inv p) {l : List Msg} {r : Msg} (hq : d.mq = l ++ [r])
    (ho : openMsg d.mq = some r) (hr : inReady p d .data = true) (b : Byte) :
    usedBytes (l ++ [r.addByte b]) ≤ p.qbytes := by
  have hu := h.mq_used
  rw [inReady_data_open p (run_of_inReady hr) ho] at hr
  simp only [hq, usedBytes_append, usedBytes_cons, usedBytes_nil] at hu hr
  simp only [usedBytes_append, usedBytes_cons, usedBytes_nil, Msg.addByte]
  split
  · next hlt =>
    simp only [hlt, if_true, decide_eq_true_eq] at hr
    simp only [List.length_append, List.length_singleton]
    omega
  · exact hu

theorem Dev.Inv.data (h : d.Inv p) (hr : inReady p d .data = true) (b : Byte) :
    (dataDev b d).Inv p := by
  unfold dataDev
  cases ho : openMsg d.mq with
  | none => exact h.raise (by decide)
  | some r =>
    obtain ⟨hq, hopen⟩ := openMsg_eq_some.mp ho
    refine h.setOpen hq hopen (run_of_inReady hr)
      (Msg.addByte_stored b (h.open_stored hq hopen)) ?_ (h.addByte_used hq ho hr b)
    simp only [Msg.addByte, satIncCnt_toNat, Config.cntMax]
    omega

theorem Dev.Inv.msgEnd (h : d.Inv p) (hr : inReady p d .msgEnd = true) : (endDev d).Inv p := by
  unfold endDev
  cases ho : openMsg d.mq with
  | none => exact h.raise (by decide)
  | some r =>
    obtain ⟨hq, hopen⟩ := openMsg_eq_some.mp ho
    have hstored := h.open_stored hq hopen
    refine h.setOpen (r' := { r with closed := true }) hq hopen (run_of_inReady hr) hstored
      (h.counted r (by rw [hq]; simp)) ?_
    have hu := h.mq_used
    rw [hq] at hu
    simpa using hu

/-! ### The operations of BRP and CONSUMER -/

/-- LOAD meets a whole byte (R43 (g)), so it never raises AlignmentError. -/
theorem Dev.Inv.load (h : d.Inv p) (hg : loadEnabled d = true) : (loadDev d).Inv p := by
  obtain ⟨hm, -, -⟩ := (loadEnabled_iff d).mp hg
  unfold loadDev
  cases hq : d.bch with
  | nil => exact h
  | cons x rest =>
    have hsub : ∀ y ∈ rest, y ∈ d.bch := fun y hy => by simp [hq, hy]
    have hlen := h.bch_len
    rw [hq, List.length_cons] at hlen
    simp only [h.whole x (by simp [hq]), if_true]
    exact
      { h with
        bch_len := by simp; omega
        bits_left := by simp
        still_empty := fun hs => absurd hs (Dev.not_still hm)
        whole := fun y hy => h.whole y (hsub y hy)
        bch_tags := fun y hy => h.bch_tags y (hsub y hy) }

theorem Dev.Inv.setOq_append (h : d.Inv p) (hm : d.lc = .run ∨ d.lc = .drain) {x : SItem}
    (hlen : d.oq.length < p.ocap) (ht : x.sof = false → x.tag = 0#32) :
    (d.setOq (d.oq ++ [x])).Inv p :=
  { h with
    oq_len := by simp; omega
    still_empty := fun hs => absurd hs (Dev.not_still hm)
    oq_tags := fun y hy => by
      rw [Dev.setOq_oq, List.mem_append, List.mem_singleton] at hy
      rcases hy with hy | rfl
      · exact h.oq_tags y hy
      · exact ht }

theorem Dev.Inv.setBrp (h : d.Inv p) (hm : d.lc = .run ∨ d.lc = .drain) {x : Brp}
    (hx : x.cnt.toNat ≤ 8) : (d.setBrp x).Inv p :=
  { h with
    bits_left := hx
    still_empty := fun hs => absurd hs (Dev.not_still hm) }

/-- SHIFT meets a bit index in range (R43 (e)). -/
theorem Dev.Inv.shift (h : d.Inv p) (hg : shiftEnabled p d = true) :
    ∃ e, shiftDev d = .ok e ∧ e.Inv p := by
  obtain ⟨hm, -, hlen⟩ := (shiftEnabled_iff p d).mp hg
  have hbits := h.bits_left
  refine ⟨_, by rw [shiftDev, if_pos hbits], ?_⟩
  refine (h.setOq_append hm hlen ?_).setBrp hm (by simp only [decCnt_toNat]; omega)
  intro hs
  simp only [shiftItem] at hs ⊢
  simp [hs]

theorem Dev.Inv.pop (h : d.Inv p) {x : SItem} {rest : List SItem} (hq : d.oq = x :: rest) :
    (d.setOq rest).Inv p := by
  have hsub : ∀ y ∈ rest, y ∈ d.oq := fun y hy => by simp [hq, hy]
  have hlen := h.oq_len
  rw [hq, List.length_cons] at hlen
  exact
    { h with
      oq_len := by simp; omega
      still_empty := fun hs => by
        obtain ⟨-, -, hoq, -⟩ := h.still_empty hs
        simp [hq] at hoq
      oq_tags := fun y hy => h.oq_tags y (hsub y hy) }

end

end Sys2Proof.Machine
end

section
/-! The invariant through the operations of FBC (spec/42_fbc_ops.md), and the two headline results: every
step from a state that meets the invariant answers a state that meets it. -/

namespace Sys2Proof.Machine

open Sys2Proof

/-! ### A device that is sending a message -/

/-- FBC sends the head record `r` and is in, or has just come to the end of, the phase `ph`. What the
invariant says but for FBC's count is said of the device that `finish` leaves. -/
structure Dev.Sending (p : Params) (ph : Phase) (r : Msg) (rest : List Msg) (d : Dev) : Prop where
  mq : d.mq = r :: rest
  moving : d.lc = .run ∨ d.lc = .drain
  finished : (finished rest d).Inv p
  closed : r.closed = true
  good : r.good = true
  unsent : ph ≠ .pay → r.data.length = r.decl.toNat
  tag : d.fbc.tag = d.conf.tagFor r.decl
  mq_len : d.mq.length ≤ p.qmsgs
  mq_used : usedBytes d.mq ≤ p.qbytes

/-- With `n` bytes left of the phase FBC is in, FBC has what it still needs (R43 (c), R13 (e)). -/
structure Dev.Fits (d : Dev) (r : Msg) (n : Nat) : Prop where
  pre : d.fbc.phase = .pre → n ≤ d.conf.preLen
  sync : d.fbc.phase = .sync → n ≤ d.conf.syncLenNat
  pay : d.fbc.phase = .pay → r.data.length = n

section
variable {p : Params} {ph : Phase} {r : Msg} {rest : List Msg} {d e : Dev}

theorem toNat_pos_iff_ne_zero {n : Nat} {x : BitVec n} : 1 ≤ x.toNat ↔ x ≠ 0#n := by
  rw [Nat.one_le_iff_ne_zero, ne_eq, ne_eq, ← BitVec.toNat_inj, BitVec.toNat_zero]

/-- Inside a message, with a count that fits the phase, the whole invariant holds. -/
theorem Dev.Sending.inv (h : d.Sending p d.fbc.phase r rest) (hp : d.fbc.phase ≠ .idle)
    (h1 : 1 ≤ d.fbc.cnt.toNat) (hf : d.Fits r d.fbc.cnt.toNat) : d.Inv p := by
  obtain ⟨hmq, hm, hfin, hclosed, hgood, hunsent, htag, hlen, hused⟩ := h
  have hcnt : r.cnt.toNat ≤ Config.cntMax := by
    have := r.decl.isLt
    rw [(Msg.good_iff r).mp hgood, Config.cntMax]; omega
  exact
    { hfin with
      idle_iff := iff_of_false hp (toNat_pos_iff_ne_zero.mp h1)
      head_good := fun _ => ⟨r, rest, hmq, hclosed, hgood, hunsent, htag⟩
      pay_left := fun hpay => by rw [hmq, headData_cons, hf.pay hpay]
      pre_left := hf.pre
      sync_left := hf.sync
      stored := by
        rw [waiting_busy hp, hmq, List.tail_cons]
        exact hfin.stored
      counted := by
        rw [hmq, List.forall_mem_cons]
        exact ⟨hcnt, hfin.counted⟩
      one_open := by
        cases rest with
        | nil => simp [hmq]
        | cons x xs =>
          rw [hmq, List.dropLast_cons_cons, List.forall_mem_cons]
          exact ⟨hclosed, hfin.one_open⟩
      all_closed := fun hne => by
        rw [hmq, List.forall_mem_cons]
        exact ⟨hclosed, hfin.all_closed hne⟩
      mq_len := hlen
      mq_used := hused
      still_empty := fun hs => absurd hs (Dev.not_still hm)
      sof_idle := fun hidle => absurd hidle hp }

/-- With its head record gone and FBC idle, a device still meets the invariant. -/
theorem Dev.Inv.finished (h : d.Inv p) (hm : d.lc = .run ∨ d.lc = .drain) (hq : d.mq = r :: rest)
    (hw : ∀ x ∈ rest, x ∈ waiting d) : (Machine.finished rest d).Inv p := by
  have hsub : ∀ x ∈ rest, x ∈ d.mq := fun x hx => by simp [hq, hx]
  have hlen := h.mq_len
  have hused := h.mq_used
  rw [hq, List.length_cons] at hlen
  rw [hq, usedBytes_cons] at hused
  exact
    { h with
      idle_iff := iff_of_true rfl rfl
      head_good := fun hp => absurd rfl hp
      pay_left := fun hp => by cases hp
      pre_left := fun hp => by cases hp
      sync_left := fun hp => by cases hp
      stored := fun x hx => h.stored x (hw x hx)
      counted := fun x hx => h.counted x (hsub x hx)
      one_open := fun x hx => h.one_open x (by
        rw [hq]
        cases rest with
        | nil => simp at hx
        | cons y ys => exact List.mem_cons_of_mem r hx)
      all_closed := fun hne x hx => h.all_closed hne x (hsub x hx)
      mq_len := by rw [finished_mq]; omega
      mq_used := by rw [finished_mq]; omega
      still_empty := fun hs => absurd hs (Dev.not_still hm)
      sof_idle := fun _ => rfl }

/-- While FBC is not idle the device is sending its head record, with a count that fits. -/
theorem Dev.Inv.sending (h : d.Inv p) (hp : d.fbc.phase ≠ .idle) :
    ∃ r rest, d.Sending p d.fbc.phase r rest ∧ 1 ≤ d.fbc.cnt.toNat ∧ d.Fits r d.fbc.cnt.toNat := by
  obtain ⟨r, rest, hmq, hclosed, hgood, hunsent, htag⟩ := h.head_good hp
  have hm := h.moving_of_busy hp
  have hw : ∀ x ∈ rest, x ∈ waiting d := fun x hx => by simp [waiting_busy hp, hmq, hx]
  refine ⟨r, rest, ⟨hmq, hm, h.finished hm hmq hw, hclosed, hgood, hunsent, htag, h.mq_len, h.mq_used⟩,
    toNat_pos_iff_ne_zero.mpr fun h0 => hp (h.idle_iff.mpr h0),
    h.pre_left, h.sync_left, fun hpay => ?_⟩
  rw [← h.pay_left hpay, hmq, headData_cons]

/-- START's first two writes (R152). -/
def latched (r : Msg) (d : Dev) : Dev :=
  d.setFbc { d.fbc with sof := true, tag := d.conf.tagFor r.decl }

/-- A good head record has all the bytes it declared, so START may begin to send it. -/
theorem Dev.Inv.sending_latched (h : d.Inv p) (hg : startEnabled d = true) (hq : d.mq = r :: rest) :
    (latched r d).Sending p .pre r rest := by
  obtain ⟨hm, hidle, r', rest', hq', hclosed, hgood⟩ := (startEnabled_iff d).mp hg
  obtain ⟨rfl, rfl⟩ : r = r' ∧ rest = rest' := by simpa [hq] using hq'
  have hw : ∀ x ∈ r :: rest, x ∈ waiting d := by simp [waiting_idle hidle, hq]
  have hfin := h.finished hm hq fun x hx => hw x (by simp [hx])
  exact
    { mq := hq
      moving := hm
      finished := { hfin with head_good := fun hp => absurd rfl hp }
      closed := hclosed
      good := (Msg.good_iff r).mpr hgood
      unsent := fun _ => by rw [h.stored r (hw r (by simp)), hgood, Nat.min_self]
      tag := rfl
      mq_len := h.mq_len
      mq_used := h.mq_used }

/-- Entering a phase leaves the message being sent. -/
theorem Dev.Sending.enterPhase (h : d.Sending p ph r rest) {ph' : Phase} (n : BitVec 16)
    (hu : ph' ≠ .pay → ph ≠ .pay) : (enterPhase ph' n d).Sending p ph' r rest :=
  { h with
    finished := { h.finished with }
    unsent := fun hp => h.unsent (hu hp) }

/-- Pushing a byte, where BCH has room, leaves the message being sent. -/
theorem Dev.Sending.pushByte (h : d.Sending p ph r rest) (hroom : d.bch.length < p.bcap) (b : Byte) :
    (pushByte b d).Sending p ph r rest :=
  { h with
    finished :=
      { h.finished with
        bch_len := by simp; omega
        still_empty := fun hs => absurd hs (Dev.not_still h.moving)
        whole := fun x hx => by
          rw [finished_bch, pushByte_bch, List.mem_append, List.mem_singleton] at hx
          rcases hx with hx | rfl
          · exact h.finished.whole x hx
          · rfl
        bch_tags := fun x hx => by
          rw [finished_bch, pushByte_bch, List.mem_append, List.mem_singleton] at hx
          rcases hx with hx | rfl
          · exact h.finished.bch_tags x hx
          · intro hs
            simp only [emitItem] at hs ⊢
            simp [hs] } }

/-- Popping a payload byte leaves the message being sent. -/
theorem Dev.Sending.popByte (h : d.Sending p .pay r rest) {b : Byte} {bs : List Byte}
    (hb : r.data = b :: bs) :
    (d.setMq ({ r with data := bs } :: rest)).Sending p .pay { r with data := bs } rest := by
  have hlen := h.mq_len
  have hused := h.mq_used
  rw [h.mq, usedBytes_cons, hb, List.length_cons] at hused
  rw [h.mq] at hlen
  exact
    { h with
      mq := rfl
      finished := { h.finished with }
      closed := h.closed
      good := h.good
      unsent := fun hp => absurd rfl hp
      tag := h.tag
      mq_len := hlen
      mq_used := by rw [Dev.setMq_mq, usedBytes_cons]; simp only; omega }

/-- The end of a phase: the next phase that has a byte, or the end of the message. -/
theorem Dev.Sending.advance (h : d.Sending p ph r rest) (he : advance ph d = .ok e) : e.Inv p := by
  rcases advance_cases he with ⟨rfl, hs, rfl⟩ | ⟨r', rest', hq, hp, -, hl, rfl⟩ |
    ⟨r', rest', hq, -, -, rfl⟩
  · have hcnt := d.conf.syncLen_in_cnt
    exact (h.enterPhase _ (fun _ => by decide)).inv (by simp) (hcnt.symm ▸ hs)
      ⟨fun hp => (by cases hp), fun _ => hcnt.le, fun hp => (by cases hp)⟩
  · obtain ⟨rfl, rfl⟩ : r = r' ∧ rest = rest' := by simpa [h.mq] using hq
    exact (h.enterPhase _ (fun hne => absurd rfl hne)).inv (by simp) hl
      ⟨fun hp => (by cases hp), fun hp => (by cases hp), fun _ => h.unsent hp⟩
  · obtain ⟨rfl, rfl⟩ : r = r' ∧ rest = rest' := by simpa [h.mq] using hq
    exact h.finished

/-- `emit`, from inside a phase and with room in BCH. -/
theorem Dev.Sending.emit (h : d.Sending p d.fbc.phase r rest) (hp : d.fbc.phase ≠ .idle)
    (hroom : d.bch.length < p.bcap) (hf : d.Fits r (d.fbc.cnt.toNat - 1)) (b : Byte) :
    ∃ e, emit b d = .ok e ∧ e.Inv p := by
  obtain ⟨e, he⟩ := emit_ok (b := b) h.mq
  refine ⟨e, he, ?_⟩
  have hs := h.pushByte hroom b
  rcases emit_cases he with ⟨-, ha⟩ | ⟨h2, rfl⟩
  · exact hs.advance ha
  · have hcnt : (Machine.pushByte b d).fbc.cnt.toNat = d.fbc.cnt.toNat - 1 := decCnt_toNat d.fbc.cnt
    exact hs.inv hp (by omega) (hcnt.symm ▸ ⟨hf.pre, hf.sync, hf.pay⟩)

/-! ### The operations of FBC -/

theorem Dev.Inv.drop (h : d.Inv p) (hg : dropEnabled d = true) : (dropDev d).Inv p := by
  obtain ⟨hm, hidle, r, rest, hq, -⟩ := (dropEnabled_iff d).mp hg
  have hw : ∀ x ∈ rest, x ∈ waiting d := fun x hx => by simp [waiting_idle hidle, hq, hx]
  have hfin := h.finished hm hq hw
  have hd : (d.setMq rest).Inv p :=
    { hfin with
      idle_iff := h.idle_iff
      head_good := fun hp => absurd hidle hp
      pay_left := fun hp => by simp [hidle] at hp
      pre_left := h.pre_left
      sync_left := h.sync_left
      stored := by
        rw [waiting_idle (d := d.setMq rest) hidle]
        exact fun x hx => h.stored x (hw x hx)
      still_empty := fun hs => absurd hs (Dev.not_still hm)
      sof_idle := h.sof_idle }
  rw [dropDev, hq, List.tail_cons]
  exact hd.raise (by decide)

theorem Dev.Inv.start (h : d.Inv p) (hg : startEnabled d = true) (hq : d.mq = r :: rest) :
    ∃ e, startDev r d = .ok e ∧ e.Inv p := by
  have hs := h.sending_latched hg hq
  rw [startDev_eq, ← latched]
  split
  · next hpre =>
    exact ⟨_, rfl, (hs.enterPhase _ (fun _ => by decide)).inv (by simp) hpre
      ⟨fun _ => le_rfl, fun hp => (by cases hp), fun hp => (by cases hp)⟩⟩
  · obtain ⟨e, he⟩ := advance_ok (p := .pre) hs.mq
    exact ⟨e, he, hs.advance he⟩

theorem Dev.Inv.emitPre (h : d.Inv p) (hg : emitEnabled p .pre d = true) :
    ∃ e, Machine.emit d.conf.preByte d = .ok e ∧ e.Inv p := by
  obtain ⟨-, hph, hroom⟩ := (emitEnabled_iff p .pre d).mp hg
  have hp : d.fbc.phase ≠ .idle := by simp [hph]
  obtain ⟨r, rest, hs, -, hf⟩ := h.sending hp
  exact hs.emit hp hroom
    ⟨fun hp => (Nat.sub_le _ _).trans (hf.pre hp), by simp [hph], by simp [hph]⟩ _

/-- EMIT_SYNC meets a byte index in range (R154). -/
theorem Dev.Inv.emitSync (h : d.Inv p) (hg : emitEnabled p .sync d = true) :
    ∃ e, emitSyncDev d = .ok e ∧ e.Inv p := by
  obtain ⟨hm, hph, hroom⟩ := (emitEnabled_iff p .sync d).mp hg
  have hp : d.fbc.phase ≠ .idle := by simp [hph]
  obtain ⟨r, rest, hs, h1, hf⟩ := h.sending hp
  obtain ⟨-, -, hlen⟩ := d.conf.legal_iff.mp (h.legal_of_moving hm)
  have hle := hf.sync hph
  have hindex : d.conf.syncLenNat - d.fbc.cnt.toNat < Config.syncMax := by
    simp only [Conf.syncLenNat, Config.syncMax] at hle ⊢; omega
  rw [emitSyncDev, if_pos ⟨hle, hindex⟩]
  exact hs.emit hp hroom ⟨by simp [hph], fun _ => (Nat.sub_le _ _).trans hle, by simp [hph]⟩ _

/-- EMIT_PAY meets a payload byte (R43 (c)). -/
theorem Dev.Inv.emitPay (h : d.Inv p) (hg : emitEnabled p .pay d = true) :
    ∃ e, emitPayDev d = .ok e ∧ e.Inv p := by
  obtain ⟨-, hph, hroom⟩ := (emitEnabled_iff p .pay d).mp hg
  have hp : d.fbc.phase ≠ .idle := by simp [hph]
  obtain ⟨r, rest, hs, h1, hf⟩ := h.sending hp
  have hlen := hf.pay hph
  obtain ⟨b, bs, hb⟩ := List.exists_cons_of_length_pos (l := r.data) (by omega)
  rw [hb, List.length_cons] at hlen
  simp only [emitPayDev, hs.mq, hb]
  have hpop : (d.setMq ({ r with data := bs } :: rest)).Sending p d.fbc.phase
      { r with data := bs } rest := by
    rw [hph] at hs ⊢
    exact hs.popByte hb
  exact Dev.Sending.emit (d := d.setMq ({ r with data := bs } :: rest)) hpop hp hroom
    ⟨by simp [hph], by simp [hph], fun _ => by simp only [Dev.setMq_fbc]; omega⟩ b

theorem Dev.Inv.drainDone (h : d.Inv p) (hg : drainDoneEnabled d = true) : (d.setLc .halt).Inv p := by
  obtain ⟨hlc, hmq, hidle, hbch, hbrp, hoq⟩ := (drainDoneEnabled_iff d).mp hg
  exact h.setLc_halt hlc ⟨hmq, hbch, hoq, hidle, hbrp⟩

end

/-! ### Every operation -/

/-- The operation answers a next state, and that state meets the invariant. -/
def Lands (o : Res) : Prop := ∃ t, o = .next t ∧ t.Inv

section
variable {s : State}

theorem lands_wait (h : s.Inv) : Lands (wait s) := ⟨s, rfl, h⟩

theorem lands_toDev {d : Dev} (h : d.Inv s.env.params) : Lands (toDev s d) := ⟨s.setDev d, rfl, h⟩

theorem lands_ofDev {o : Except Fault Dev} (h : ∃ e, o = .ok e ∧ e.Inv s.env.params) :
    Lands (ofDev s o) := by
  obtain ⟨e, rfl, he⟩ := h
  exact ⟨s.setDev e, rfl, he⟩

/-- An operation under a guard lands when it does where the guard holds: elsewhere it waits. -/
theorem lands_guarded {g : Prop} [Decidable g] {o : Res} (h : s.Inv) (ho : g → Lands o) :
    Lands (if g then o else wait s) := by
  split
  · next hg => exact ho hg
  · exact lands_wait h

theorem lands_refuseAccess (h : s.Inv) : Lands (refuseAccess s) :=
  lands_toDev (Dev.Inv.raise h (by decide))

/-- A command under a lifecycle condition lands when it does where the condition holds: elsewhere it is
refused. -/
theorem lands_command {g : Prop} [Decidable g] {o : Res} (h : s.Inv) (ho : g → Lands o) :
    Lands (if g then o else refuseAccess s) := by
  split
  · next hg => exact ho hg
  · exact lands_refuseAccess h

theorem lands_writeConf (h : s.Inv) (c : Conf) : Lands (writeConf s c) :=
  lands_command h fun hlc => lands_toDev (Dev.Inv.setConf h hlc c)

theorem lands_start (h : s.Inv) : Lands (execStart s) := by
  refine lands_guarded h fun hg => ?_
  obtain ⟨-, -, r, rest, hq, -⟩ := (startEnabled_iff s.dev).mp hg
  rw [hq]
  exact lands_ofDev (Dev.Inv.start h hg hq)

theorem lands_pop (h : s.Inv) : Lands (execPop s) := by
  unfold execPop
  split
  · exact lands_wait h
  · next x rest hq => exact ⟨_, rfl, Dev.Inv.pop h hq⟩

/-- From a state that meets the invariant every operation, enabled or not, lands in one that does. -/
theorem exec_lands (i : Instr) (h : s.Inv) : Lands (exec i s) :=
  match i with
  | .rd _ => ⟨_, rfl, h⟩
  | .map _ => ⟨_, rfl, h⟩
  | .wrStatus v => lands_toDev (Dev.Inv.acknowledge h v)
  | .wrIen v => lands_toDev (Dev.Inv.setIen h (flagSlice v))
  | .wrCfg _ | .wrPre _ | .wrSyncLen _ | .wrSync0 _ | .wrSync1 _ | .wrAmp0 _ | .wrAmp1 _ =>
    lands_writeConf h _
  | .wrRo _ _ | .wrUnmapped _ _ | .cmdRsvd _ => lands_refuseAccess h
  | .commit => lands_command h fun _ => lands_toDev (Dev.Inv.commit h)
  | .stop => lands_command h fun hlc => lands_toDev (Dev.Inv.stop h hlc)
  | .abort => lands_command h fun hm => lands_toDev (Dev.Inv.abort h (s.dev.moving_iff.mp hm))
  | .srst => lands_toDev (Dev.inv_reset (Dev.Inv.sizes h))
  | .head n => lands_guarded h fun hr => lands_toDev (Dev.Inv.head h hr n)
  | .data b => lands_guarded h fun hr => lands_toDev (Dev.Inv.data h hr b)
  | .msgEnd => lands_guarded h fun hr => lands_toDev (Dev.Inv.msgEnd h hr)
  | .rsvd => lands_guarded h fun _ => lands_toDev (Dev.Inv.raise h (by decide))
  | .drop => lands_guarded h fun hg => lands_toDev (Dev.Inv.drop h hg)
  | .start => lands_start h
  | .emitPre => lands_guarded h fun hg => lands_ofDev (Dev.Inv.emitPre h hg)
  | .emitSync => lands_guarded h fun hg => lands_ofDev (Dev.Inv.emitSync h hg)
  | .emitPay => lands_guarded h fun hg => lands_ofDev (Dev.Inv.emitPay h hg)
  | .drainDone => lands_guarded h fun hg => lands_toDev (Dev.Inv.drainDone h hg)
  | .load => lands_guarded h fun hg => lands_toDev (Dev.Inv.load h hg)
  | .shift => lands_guarded h fun hg => lands_ofDev (Dev.Inv.shift h hg)
  | .pop => lands_pop h

/-- Taking a port word off its queue leaves the device and the sizes. -/
theorem fetch_run_inv {t : Turn} {u : State} {i : Instr} (h : s.Inv) (hf : fetch t s = .run i u) :
    u.Inv := by
  rcases fetch_run_cases hf with ⟨-, w, ws, -, -, rfl⟩ | ⟨-, w, ws, -, -, -, rfl⟩ | ⟨-, -, rfl⟩ |
    ⟨-, -, rfl⟩ | ⟨-, -, rfl⟩ <;> exact h

/-- Every step from a state that meets the invariant answers a state that meets it. -/
theorem step_lands (h : s.Inv) : Lands (step s) := by
  have ht : s.takeTurn.Inv := h
  unfold step
  cases hf : fetch s.nextTurn s.takeTurn with
  | wait => exact lands_wait ht
  | reset => exact lands_toDev (Dev.inv_reset (Dev.Inv.sizes ht))
  | run i u => exact exec_lands i (fetch_run_inv ht hf)

theorem Lands.inv {o : Res} {t : State} (h : Lands o) (ho : o = .next t) : t.Inv := by
  obtain ⟨u, hu, hinv⟩ := h
  rw [ho] at hu
  cases hu
  exact hinv

theorem exec_keeps_inv {i : Instr} {t : State} (h : s.Inv) (hx : exec i s = .next t) : t.Inv :=
  (exec_lands i h).inv hx

theorem step_keeps_inv {t : State} (h : s.Inv) (hx : step s = .next t) : t.Inv :=
  (step_lands h).inv hx

end

/-! ### The obligations -/

/-- Settles O48: the step lands in a state that meets the invariant. -/
theorem everyStepKeepsTheInvariant : Obligations.EveryStepKeepsTheInvariant :=
  fun _ _ h hx => step_keeps_inv h hx

/-- Settles O49: the step lands. -/
theorem noStepStopsUnderTheInvariant : Obligations.NoStepStopsUnderTheInvariant := fun s h => by
  obtain ⟨t, ht, -⟩ := step_lands (s := s) h
  exact ⟨t, ht⟩

/-- Settles O47: nothing is in flight after reset, and the default sizes are in range. -/
theorem invariantHoldsAtReset : Obligations.InvariantHoldsAtReset := Dev.inv_reset rfl

end Sys2Proof.Machine
end

section
/-! Everything an operation can do to a state, said once; then who moves `LC`, who sets and clears a flag,
who counts, and what becomes of the bits BRP takes. -/

namespace Sys2Proof.Machine

open Sys2Proof

/-! ### When a write, a command or a beat is an error -/

/-- The writes under the configuration lock (R119). -/
def lockedWrites : List String :=
  ["WR.CFG", "WR.PRE", "WR.SYNCLEN", "WR.SYNC0", "WR.SYNC1", "WR.AMP0", "WR.AMP1"]

/-- The writes and commands that are refused in a lifecycle state (R206). -/
def Refused (i : Instr) (lc : LC) : Prop :=
  i.mnemonic ∈ ["WR.RO", "WR.UNMAPPED", "CMD.RSVD"] ∨
  (i.mnemonic ∈ lockedWrites ++ ["COMMIT"] ∧ lc ≠ .unconf) ∨
  (i = .stop ∧ lc ≠ .run) ∨
  (i = .abort ∧ lc ≠ .run ∧ lc ≠ .drain)

/-- The beats that are reserved or out of sequence (R205). -/
def OutOfSequence (i : Instr) (q : List Msg) : Prop :=
  i = .rsvd ∨
  ((∃ n, i = .head n) ∧ ∃ l r, q = l ++ [r] ∧ r.closed = false) ∨
  (((∃ b, i = .data b) ∨ i = .msgEnd) ∧ ∀ l r, q = l ++ [r] → r.closed = true)

/-! ### The effect of an operation -/

/-- Everything the operation `i` can do to a state, with the guard under which it does it. -/
inductive Effect : Instr → State → State → Prop
  /-- The operation is not enabled and its agent waits. -/
  | same {i s} : Effect i s s
  | read {s} (a) : Effect (.rd a) s (s.returnRead (memRead s.dev a))
  | map {s} (b) : Effect (.map b) s (s.returnMap (s.dev.conf.mapBit b))
  | refuse {i s} (h : Refused i s.dev.lc) : Effect i s (s.setDev (raise .access s.dev))
  | acknowledge {s} (v) : Effect (.wrStatus v) s (s.setDev (acknowledge s.dev v))
  | setIen {s} (v) : Effect (.wrIen v) s (s.setDev (s.dev.setIen (flagSlice v)))
  | setConf {i s} (c) (hi : i.mnemonic ∈ lockedWrites) (hlc : s.dev.lc = .unconf) :
      Effect i s (s.setDev (s.dev.setConf c))
  | commit {s} (hlc : s.dev.lc = .unconf) : Effect .commit s (s.setDev (commitDev s.dev))
  | stop {s} (hlc : s.dev.lc = .run) : Effect .stop s (s.setDev (stopDev s.dev))
  | abort {s} (hlc : s.dev.lc = .run ∨ s.dev.lc = .drain) :
      Effect .abort s (s.setDev (abortDev s.dev))
  | srst {s} : Effect .srst s (resetDev s)
  | openRecord {s} (n) (hlc : s.dev.lc = .run) (ho : openMsg s.dev.mq = none) :
      Effect (.head n) s (s.setDev (s.dev.setMq (s.dev.mq ++ [Msg.fresh n])))
  | countByte {s} (b r) (hlc : s.dev.lc = .run) (ho : openMsg s.dev.mq = some r) :
      Effect (.data b) s (s.setDev (s.dev.setMq (setLast s.dev.mq (r.addByte b))))
  | closeRecord {s} (r) (hlc : s.dev.lc = .run) (ho : openMsg s.dev.mq = some r) :
      Effect .msgEnd s (s.setDev (s.dev.setMq (setLast s.dev.mq { r with closed := true })))
  | discard {i s} (hlc : s.dev.lc = .run) (h : OutOfSequence i s.dev.mq) :
      Effect i s (s.setDev (raise .protocol s.dev))
  | drop {s} (hg : dropEnabled s.dev = true) : Effect .drop s (s.setDev (dropDev s.dev))
  | emission {i s d} (hi : i = .start ∨ i = .emitPre ∨ i = .emitSync ∨ i = .emitPay)
      (h : s.dev.SameButEmission d) : Effect i s (s.setDev d)
  | drainDone {s} (hlc : s.dev.lc = .drain) : Effect .drainDone s (s.setDev (s.dev.setLc .halt))
  | load {s} (x rest) (hc : s.dev.brp.cnt = 0#4) (hq : s.dev.bch = x :: rest) (hx : x.width = 8) :
      Effect .load s (s.setDev
        ((s.dev.setBch rest).setBrp { byte := x.byte, cnt := 8#4, sof := x.sof, tag := x.tag }))
  | misaligned {s} (x rest) (hq : s.dev.bch = x :: rest) (hx : x.width ≠ 8) :
      Effect .load s (s.setDev (raise .alignment s.dev))
  | shift {s} (h0 : s.dev.brp.cnt ≠ 0#4) : Effect .shift s (s.setDev
        ((s.dev.setOq (s.dev.oq ++ [shiftItem s.dev (8 - s.dev.brp.cnt.toNat)])).setBrp
          { s.dev.brp with sof := false, cnt := decCnt s.dev.brp.cnt }))
  | pop {s} (x rest) (hq : s.dev.oq = x :: rest) :
      Effect .pop s ((s.setDev (s.dev.setOq rest)).deliver x)

section
variable {i : Instr} {s t : State}

/-- Under a guard: the operation where it holds, a wait elsewhere. -/
theorem effect_guarded {g : Prop} [Decidable g] {o : Res} (h : (if g then o else wait s) = .next t)
    (ho : g → o = .next t → Effect i s t) : Effect i s t := by
  split at h
  · next hg => exact ho hg h
  · cases h; exact .same

/-- Under a lifecycle condition: the command where it holds, a refusal elsewhere. -/
theorem effect_command {g : Prop} [Decidable g] {o : Res}
    (h : (if g then o else refuseAccess s) = .next t) (hr : ¬ g → Refused i s.dev.lc)
    (ho : g → o = .next t → Effect i s t) : Effect i s t := by
  split at h
  · next hg => exact ho hg h
  · next hg => cases h; exact .refuse (hr hg)

theorem effect_writeConf {c : Conf} (h : writeConf s c = .next t) (hi : i.mnemonic ∈ lockedWrites) :
    Effect i s t :=
  effect_command h (fun hlc => .inr (.inl ⟨List.mem_append_left _ hi, hlc⟩))
    fun hlc h => by cases h; exact .setConf c hi hlc

theorem effect_refuse (h : refuseAccess s = .next t)
    (hi : i.mnemonic ∈ ["WR.RO", "WR.UNMAPPED", "CMD.RSVD"]) : Effect i s t := by
  cases h; exact .refuse (.inl hi)

theorem effect_head {n : BitVec 16} (h : execHead n s = .next t) : Effect (.head n) s t :=
  effect_guarded h fun hr h => by
    have hlc := run_of_inReady hr
    cases h
    unfold headDev
    cases ho : openMsg s.dev.mq with
    | none => exact .openRecord n hlc ho
    | some r =>
      obtain ⟨hq, hc⟩ := openMsg_eq_some.mp ho
      exact .discard hlc (.inr (.inl ⟨⟨n, rfl⟩, _, r, hq, hc⟩))

theorem effect_data {b : Byte} (h : execData b s = .next t) : Effect (.data b) s t :=
  effect_guarded h fun hr h => by
    have hlc := run_of_inReady hr
    cases h
    unfold dataDev
    cases ho : openMsg s.dev.mq with
    | none => exact .discard hlc (.inr (.inr ⟨.inl ⟨b, rfl⟩, openMsg_eq_none.mp ho⟩))
    | some r => exact .countByte b r hlc ho

theorem effect_msgEnd (h : execMsgEnd s = .next t) : Effect .msgEnd s t :=
  effect_guarded h fun hr h => by
    have hlc := run_of_inReady hr
    cases h
    unfold endDev
    cases ho : openMsg s.dev.mq with
    | none => exact .discard hlc (.inr (.inr ⟨.inr rfl, openMsg_eq_none.mp ho⟩))
    | some r => exact .closeRecord r hlc ho

/-- START and the three EMIT operations touch nothing around the device. -/
theorem exec_emission_env (hi : i = .start ∨ i = .emitPre ∨ i = .emitSync ∨ i = .emitPay)
    (h : exec i s = .next t) : t.env = s.env := by
  rcases exec_env h with e | ⟨a, rfl, -⟩ | ⟨b, rfl, -⟩ | ⟨x, rest, rfl, -, -⟩
  · exact e
  all_goals simp at hi

theorem effect_emission (hi : i = .start ∨ i = .emitPre ∨ i = .emitSync ∨ i = .emitPay)
    (h : exec i s = .next t) : Effect i s t := by
  have ht : t = s.setDev t.dev := by
    rw [State.setDev, ← exec_emission_env hi h]
  rw [ht]
  exact .emission hi (exec_emission_keeps hi h)

theorem effect_load (h : execLoad s = .next t) : Effect .load s t :=
  effect_guarded h fun hg h => by
    obtain ⟨-, hc, hne⟩ := (loadEnabled_iff s.dev).mp hg
    obtain ⟨x, rest, hq⟩ := List.exists_cons_of_ne_nil hne
    cases h
    simp only [loadDev, hq]
    split
    · next hx => exact .load x rest hc hq hx
    · next hx => exact .misaligned x rest hq hx

theorem effect_shift (h : execShift s = .next t) : Effect .shift s t :=
  effect_guarded h fun hg h => by
    obtain ⟨-, h0, -⟩ := (shiftEnabled_iff s.env.params s.dev).mp hg
    obtain ⟨d, hd, rfl⟩ := ofDev_next h
    unfold shiftDev at hd
    split at hd
    · cases hd; exact .shift h0
    · cases hd

theorem effect_pop (h : execPop s = .next t) : Effect .pop s t := by
  unfold execPop at h
  split at h
  · cases h; exact .same
  · next x rest hq => cases h; exact .pop x rest hq

/-- The inversion of `exec`: an operation that answers a next state has one of the effects listed. -/
theorem exec_effect (h : exec i s = .next t) : Effect i s t :=
  match i, h with
  | .rd a, h => by cases h; exact .read a
  | .map b, h => by cases h; exact .map b
  | .wrStatus v, h => by cases h; exact .acknowledge v
  | .wrIen v, h => by cases h; exact .setIen v
  | .wrCfg _, h | .wrPre _, h | .wrSyncLen _, h | .wrSync0 _, h | .wrSync1 _, h | .wrAmp0 _, h
  | .wrAmp1 _, h => effect_writeConf h (by simp [lockedWrites, Instr.mnemonic])
  | .wrRo _ _, h | .wrUnmapped _ _, h | .cmdRsvd _, h => effect_refuse h (by simp [Instr.mnemonic])
  | .commit, h => effect_command h (fun hlc => .inr (.inl ⟨by decide, hlc⟩))
      fun hlc h => by cases h; exact .commit hlc
  | .stop, h => effect_command h (fun hlc => .inr (.inr (.inl ⟨rfl, hlc⟩)))
      fun hlc h => by cases h; exact .stop hlc
  | .abort, h => effect_command h
      (fun hm => .inr (.inr (.inr ⟨rfl, not_or.mp (hm ∘ s.dev.moving_iff.mpr)⟩)))
      fun hm h => by cases h; exact .abort (s.dev.moving_iff.mp hm)
  | .srst, h => by cases h; exact .srst
  | .head _, h => effect_head h
  | .data _, h => effect_data h
  | .msgEnd, h => effect_msgEnd h
  | .rsvd, h => effect_guarded h fun hr h => by
      cases h; exact .discard (run_of_inReady hr) (.inl rfl)
  | .drop, h => effect_guarded h fun hg h => by cases h; exact .drop hg
  | .start, h => effect_emission (by simp) h
  | .emitPre, h => effect_emission (by simp) h
  | .emitSync, h => effect_emission (by simp) h
  | .emitPay, h => effect_emission (by simp) h
  | .drainDone, h => effect_guarded h fun hg h => by
      cases h; exact .drainDone ((drainDoneEnabled_iff s.dev).mp hg).1
  | .load, h => effect_load h
  | .shift, h => effect_shift h
  | .pop, h => effect_pop h

end

/-! ### One flag at a time (R22) -/

/-- The flag an error sets. -/
def Flags.has (f : Flags) : Err → Bool
  | .configuration => f.cfgErr
  | .unsupportedMode => f.unsupErr
  | .framing => f.framingErr
  | .alignment => f.alignErr
  | .protocol => f.protoErr
  | .access => f.accErr

/-- The place of that flag in `STATUS[13:8]` (R85). -/
def Err.bit : Err → Nat
  | .configuration => 0
  | .unsupportedMode => 1
  | .framing => 2
  | .alignment => 3
  | .protocol => 4
  | .access => 5

theorem Err.exists_bit {k : Nat} (hk : k < 6) : ∃ x : Err, x.bit = k :=
  match k, hk with
  | 0, _ => ⟨.configuration, rfl⟩
  | 1, _ => ⟨.unsupportedMode, rfl⟩
  | 2, _ => ⟨.framing, rfl⟩
  | 3, _ => ⟨.alignment, rfl⟩
  | 4, _ => ⟨.protocol, rfl⟩
  | 5, _ => ⟨.access, rfl⟩

theorem Flags.bits_getLsbD_bit (f : Flags) (x : Err) : f.bits.getLsbD x.bit = f.has x := by
  obtain ⟨h0, h1, h2, h3, h4, h5⟩ := f.bits_getLsbD
  cases x <;> assumption

theorem Flags.clear_has (f : Flags) (m : BitVec 6) (x : Err) :
    (f.clear m).has x = (f.has x && !m.getLsbD x.bit) := by
  cases x <;> rfl

@[simp] theorem Flags.reset_has (x : Err) : Flags.reset.has x = false := by cases x <;> rfl

/-- An error sets its own flag (R211). -/
theorem raise_has (e x : Err) (d : Dev) :
    (raise e d).flags.has x = (d.flags.has x || decide (x = e)) := by
  cases x <;> simp [raise_flags, Flags.has, eq_comm]

theorem raiseIf_has (c : Bool) (e x : Err) (d : Dev) :
    (raiseIf c e d).flags.has x = (d.flags.has x || (c && decide (x = e))) := by
  cases c
  · simp [raiseIf]
  · simp [raiseIf, raise_has]

/-- COMMIT writes the flags and `LC` and nothing else. -/
theorem commitDev_update (d : Dev) :
    commitDev d = (d.setFlags (commitDev d).flags).setLc (commitDev d).lc := by
  rw [commitDev_eq]
  unfold commitChecks raiseIf
  split <;> split <;> split <;> rfl

/-- The checks of COMMIT that fail set their flags (R114). -/
theorem commitDev_has (d : Dev) (x : Err) : (commitDev d).flags.has x =
    (d.flags.has x || ((d.conf.modeBad || d.conf.scrBad || d.conf.syncBad) && decide (x = .configuration)) ||
      (d.conf.modeRs && decide (x = .unsupportedMode))) := by
  have hf : (commitDev d).flags = (commitChecks d).flags := by
    rw [commitDev_eq]; split <;> rfl
  rw [hf, commitChecks, raiseIf_has, raiseIf_has]

/-- What COMMIT finds wrong, in the terms of R200. -/
theorem Conf.faulty_iff (c : Conf) : (c.modeBad || c.scrBad || c.syncBad) = true ↔
    (c.mode ≠ 1#4 ∧ c.mode ≠ 2#4) ∨ 2 ≤ c.scr.toNat ∨ 8 < c.syncLen.toNat := by
  have hscr : (c.scr = 2#2 ∨ c.scr = 3#2) ↔ 2 ≤ c.scr.toNat := by
    generalize c.scr = x; revert x; decide
  have hsync : c.syncBad = true ↔ 8 < c.syncLen.toNat := decide_eq_true_iff
  rw [← hscr, ← hsync]
  simp [Conf.modeBad, Conf.modeOk, Conf.modeRs, Conf.scrBad, or_assoc]

/-- What sets the flag of each error, with the device before and after (R200 to R206). -/
def Caused (i : Instr) (d e : Dev) : Err → Prop
  | .configuration => i = .commit ∧ d.lc = .unconf ∧ ((d.conf.mode ≠ 1#4 ∧ d.conf.mode ≠ 2#4) ∨
      2 ≤ d.conf.scr.toNat ∨ 8 < d.conf.syncLen.toNat)
  | .unsupportedMode => i = .commit ∧ d.lc = .unconf ∧ d.conf.mode = 2#4
  | .framing => i = .drop ∧ ∃ r, d.mq = r :: e.mq ∧ r.closed = true ∧ r.cnt.toNat ≠ r.decl.toNat
  | .alignment => i = .load ∧ ∃ x rest, d.bch = x :: rest ∧ x.width ≠ 8
  | .protocol => d.lc = .run ∧ OutOfSequence i d.mq
  | .access => Refused i d.lc

section
variable {i : Instr} {s t : State}

/-- A flag that was not set and is set now was set by its cause. -/
theorem Effect.caused (h : Effect i s t) {x : Err} (hset : t.dev.flags.has x = true)
    (hnot : s.dev.flags.has x = false) : Caused i s.dev t.dev x := by
  have same : t.dev.flags = s.dev.flags → Caused i s.dev t.dev x := fun e => by
    rw [e, hnot] at hset; cases hset
  have raised {e : Err} {d : Dev} (hd : d.flags = s.dev.flags) (h : (raise e d).flags.has x = true) :
      x = e := by
    simpa [raise_has, hd, hnot] using h
  cases h with
  | refuse hr => obtain rfl := raised rfl hset; exact hr
  | discard hlc hseq => obtain rfl := raised rfl hset; exact ⟨hlc, hseq⟩
  | misaligned y rest hq hy => obtain rfl := raised rfl hset; exact ⟨rfl, y, rest, hq, hy⟩
  | drop hg =>
    obtain rfl := raised (d := s.dev.setMq s.dev.mq.tail) rfl hset
    obtain ⟨-, -, r, rest, hq, hc, hbad⟩ := (dropEnabled_iff s.dev).mp hg
    exact ⟨rfl, r, by simp [dropDev, hq], hc, hbad⟩
  | commit hlc =>
    rw [State.setDev_dev, commitDev_has, hnot] at hset
    cases x with
    | configuration =>
      exact ⟨rfl, hlc, s.dev.conf.faulty_iff.mp (by simpa using hset)⟩
    | unsupportedMode => exact ⟨rfl, hlc, by simpa [Conf.modeRs] using hset⟩
    | _ => simp at hset
  | acknowledge v => simp [Machine.acknowledge, Flags.clear_has, hnot] at hset
  | srst => rw [resetDev_dev, Dev.reset, Flags.reset_has] at hset; cases hset
  | emission _ hk => exact same hk.flags
  | _ => exact same rfl

/-- Only WR STATUS and SRST clear a flag (R22). -/
theorem Effect.flag_kept (h : Effect i s t) (hsrst : i ≠ .srst) (hack : ∀ v, i ≠ .wrStatus v) {x : Err}
    (hx : s.dev.flags.has x = true) : t.dev.flags.has x = true := by
  cases h with
  | refuse | discard | misaligned | drop => simp [dropDev, raise_has, hx]
  | commit => simp [commitDev_has, hx]
  | acknowledge v => exact absurd rfl (hack v)
  | srst => exact absurd rfl hsrst
  | emission _ hk => rw [State.setDev_dev, hk.flags, hx]
  | _ => exact hx

/-- WR STATUS and SRST set no flag. -/
theorem exec_sets_no_flag (h : exec i s = .next t) (hi : i = .srst ∨ ∃ v, i = .wrStatus v) {x : Err}
    (hx : t.dev.flags.has x = true) : s.dev.flags.has x = true := by
  rcases hi with rfl | ⟨v, rfl⟩
  · cases h
    rw [resetDev_dev, Dev.reset, Flags.reset_has] at hx
    cases hx
  · cases h
    rw [State.setDev_dev, acknowledge, Dev.setFlags_flags, Flags.clear_has, Bool.and_eq_true] at hx
    exact hx.1

/-- `LC` moves only as R21 lists. -/
theorem Effect.lc_cases (h : Effect i s t) : t.dev.lc = s.dev.lc ∨
    (i = .commit ∧ s.dev.lc = .unconf ∧ t.dev.lc = .run) ∨
    (i = .stop ∧ s.dev.lc = .run ∧ t.dev.lc = .drain) ∨
    (i = .abort ∧ (s.dev.lc = .run ∨ s.dev.lc = .drain) ∧ t.dev.lc = .halt) ∨
    (i = .drainDone ∧ s.dev.lc = .drain ∧ t.dev.lc = .halt) ∨
    (i = .load ∧ t.dev.flags.alignErr = true ∧ t.dev.lc = .halt) ∨
    (i = .srst ∧ t.dev.lc = .unconf) := by
  cases h with
  | commit hlc =>
    rw [State.setDev_dev, commitDev_eq]
    split
    · exact .inr (.inl ⟨rfl, hlc, rfl⟩)
    · refine .inl ?_
      unfold commitChecks raiseIf
      split <;> split <;> rfl
  | stop hlc => exact .inr (.inr (.inl ⟨rfl, hlc, rfl⟩))
  | abort hlc => exact .inr (.inr (.inr (.inl ⟨rfl, hlc, rfl⟩)))
  | drainDone hlc => exact .inr (.inr (.inr (.inr (.inl ⟨rfl, hlc, rfl⟩))))
  | misaligned => exact .inr (.inr (.inr (.inr (.inr (.inl ⟨rfl, rfl, rfl⟩)))))
  | srst => exact .inr (.inr (.inr (.inr (.inr (.inr ⟨rfl, rfl⟩)))))
  | emission _ hk => exact .inl hk.lc
  | _ => exact .inl rfl

/-- FERRCNT counts the DROPs (R29). -/
theorem Effect.ferrcnt_cases (h : Effect i s t) (hi : i ≠ .srst) : t.dev.ferrcnt = s.dev.ferrcnt ∨
    (i = .drop ∧ t.dev.mq.length + 1 = s.dev.mq.length ∧
      t.dev.ferrcnt.toNat = min (s.dev.ferrcnt.toNat + 1) 0xFFFFFFFF) := by
  cases h with
  | drop hg =>
    obtain ⟨-, -, r, rest, hq, -⟩ := (dropEnabled_iff s.dev).mp hg
    exact .inr ⟨rfl, by simp [dropDev, hq], satInc32_toNat s.dev.ferrcnt⟩
  | commit => exact .inl (by rw [State.setDev_dev, commitDev_update]; rfl)
  | srst => exact absurd rfl hi
  | emission _ hk => exact .inl hk.ferrcnt
  | _ => exact .inl rfl

/-- FRAMECNT counts the messages FBC finishes (R30). -/
theorem Effect.framecnt_cases (h : Effect i s t) (hi : i ≠ .srst) : t.dev.framecnt = s.dev.framecnt ∨
    ((i = .start ∨ i = .emitPre ∨ i = .emitSync ∨ i = .emitPay) ∧
      t.dev.mq.length + 1 = s.dev.mq.length ∧ t.dev.fbc.phase = .idle ∧
      t.dev.framecnt.toNat = min (s.dev.framecnt.toNat + 1) 0xFFFFFFFF) := by
  cases h with
  | commit => exact .inl (by rw [State.setDev_dev, commitDev_update]; rfl)
  | srst => exact absurd rfl hi
  | emission hi hk =>
    refine hk.framecnt.imp id fun ⟨hlen, hidle, hcnt⟩ => ⟨hi, hlen, hidle, ?_⟩
    rw [State.setDev_dev, hcnt, satInc32_toNat]
  | _ => exact .inl rfl

/-- The symbols CONSUMER has received and OQ holds, and the bits BRP has left, are eight more for the byte
a LOAD takes and the same otherwise (R43 (h), R171). -/
theorem Effect.symbols (h : Effect i s t) (hinv : s.Inv) (habort : i ≠ .abort) (hsrst : i ≠ .srst) :
    t.env.delivered.length + t.dev.oq.length + t.dev.brp.cnt.toNat =
      s.env.delivered.length + s.dev.oq.length + s.dev.brp.cnt.toNat +
        (if i = .load then 8 * (s.dev.bch.length - t.dev.bch.length) else 0) := by
  have same (hd : t.env.delivered = s.env.delivered) (hoq : t.dev.oq = s.dev.oq)
      (hbrp : t.dev.brp = s.dev.brp) (hbch : i = .load → t.dev.bch = s.dev.bch) :
      t.env.delivered.length + t.dev.oq.length + t.dev.brp.cnt.toNat =
        s.env.delivered.length + s.dev.oq.length + s.dev.brp.cnt.toNat +
          (if i = .load then 8 * (s.dev.bch.length - t.dev.bch.length) else 0) := by
    rw [hd, hoq, hbrp]
    split
    · next hi => rw [hbch hi]; simp
    · rfl
  cases h with
  | load x rest hc hq hx => simp [hc, hq]
  | misaligned x rest hq hx => exact absurd (Dev.Inv.whole hinv x (by simp [hq])) hx
  | shift h0 =>
    have h1 := toNat_pos_iff_ne_zero.mpr h0
    simp [decCnt_toNat]; omega
  | pop x rest hq => simp [hq]; omega
  | abort => exact absurd rfl habort
  | srst => exact absurd rfl hsrst
  | commit =>
    rw [State.setDev_dev, commitDev_update] at same ⊢
    exact same rfl rfl rfl fun _ => rfl
  | emission hi hk => exact same rfl hk.oq hk.brp (by rintro rfl; simp at hi)
  | _ => exact same rfl rfl rfl fun _ => rfl

end

/-! ### The obligations -/

/-- Settles O37: by the effect of the operation; the invariant rules out AlignmentError. -/
theorem everyByteTakenGivesEightSymbols : Obligations.EveryByteTakenGivesEightSymbols :=
  fun _ _ _ hinv h habort hsrst => (exec_effect h).symbols hinv habort hsrst

/-- Settles O42: by the effect of the operation. -/
theorem lifecycleMovesOnlyAsListed : Obligations.LifecycleMovesOnlyAsListed :=
  fun _ _ _ h hne => (exec_effect h).lc_cases.resolve_left hne

/-- Settles O43: a flag set has its cause, and only WR STATUS and SRST clear one. -/
theorem flagsChangeOnlyAsListed : Obligations.FlagsChangeOnlyAsListed := by
  intro i s t h
  have he := exec_effect h
  refine ⟨fun hsrst hack k hk hx => ?_, fun hi k hk hx => ?_, he.caused (x := .configuration),
    he.caused (x := .unsupportedMode), he.caused (x := .framing), he.caused (x := .alignment),
    he.caused (x := .protocol), he.caused (x := .access)⟩
  · obtain ⟨x, rfl⟩ := Err.exists_bit hk
    rw [Flags.bits_getLsbD_bit] at hx ⊢
    exact he.flag_kept hsrst hack hx
  · obtain ⟨x, rfl⟩ := Err.exists_bit hk
    rw [Flags.bits_getLsbD_bit] at hx ⊢
    exact exec_sets_no_flag h hi hx

/-- Settles O44: by the effect of the operation on each counter. -/
theorem countersCountOnlyTheirEvents : Obligations.CountersCountOnlyTheirEvents := by
  intro i s t h hi
  have he := exec_effect h
  refine ⟨he.ferrcnt_cases hi, (he.framecnt_cases hi).imp id fun ⟨hmem, hrest⟩ => ⟨?_, hrest⟩⟩
  simpa using hmem

end Sys2Proof.Machine
end

section
/-! What CFG.VERBOSE drives (spec/10_state.md R24, spec/60_exceptions.md R215), the output pins and the
reset values. -/

namespace Sys2Proof.Machine

open Sys2Proof

/-! ### A device with `CFG.VERBOSE` replaced -/

/-- The device of `State.withVerbose`. -/
def Dev.withVerbose (b : Bool) (d : Dev) : Dev := d.setConf { d.conf with verbose := b }

/-- An outcome whose next state has `CFG.VERBOSE` replaced. -/
def withVerboseOutcome (b : Bool) : Res → Res
  | .next t => .next (t.withVerbose b)
  | .fault f => .fault f
  | .refused r => .refused r

section
variable (b : Bool)

theorem withVerboseOutcome_ofDev (s : State) (o : Except Fault Dev) :
    ofDev (s.withVerbose b) (o.map (Dev.withVerbose b)) = withVerboseOutcome b (ofDev s o) := by
  cases o <;> rfl

/-- A choice between two outcomes that do not read the bit does not read it. -/
theorem withVerboseOutcome_ite {g g' : Prop} [Decidable g] [Decidable g'] {o₁ o₂ o₁' o₂' : Res}
    (hg : g' ↔ g) (h₁ : o₁' = withVerboseOutcome b o₁) (h₂ : o₂' = withVerboseOutcome b o₂) :
    (if g' then o₁' else o₂') = withVerboseOutcome b (if g then o₁ else o₂) := by
  by_cases h : g
  · rw [if_pos h, if_pos (hg.mpr h), h₁]
  · rw [if_neg h, if_neg (mt hg.mp h), h₂]

@[simp] theorem Dev.withVerbose_mq (d : Dev) : (d.withVerbose b).mq = d.mq := rfl
@[simp] theorem Dev.withVerbose_bch (d : Dev) : (d.withVerbose b).bch = d.bch := rfl
@[simp] theorem Dev.withVerbose_syncLenNat (d : Dev) :
    (d.withVerbose b).conf.syncLenNat = d.conf.syncLenNat := rfl

theorem ite_map_withVerbose {g : Prop} [Decidable g] {o₁ o₂ o₁' o₂' : Except Fault Dev}
    (h₁ : o₁' = o₁.map (Dev.withVerbose b)) (h₂ : o₂' = o₂.map (Dev.withVerbose b)) :
    (if g then o₁' else o₂') = (if g then o₁ else o₂).map (Dev.withVerbose b) := by
  split
  · exact h₁
  · exact h₂

/-! ### The helpers of the operations do not read the bit -/

theorem memRead_withVerbose {a : BitVec 4} (ha : a ≠ 4#4) (d : Dev) :
    memRead (d.withVerbose b) a = memRead d a := by
  unfold memRead
  split
  case h_5 h4 => exact absurd (BitVec.eq_of_toNat_eq h4) ha
  all_goals rfl

theorem raise_withVerbose (e : Err) (d : Dev) :
    raise e (d.withVerbose b) = (raise e d).withVerbose b := by
  cases e <;> rfl

theorem raiseIf_withVerbose (c : Bool) (e : Err) (d : Dev) :
    raiseIf c e (d.withVerbose b) = (raiseIf c e d).withVerbose b := by
  cases c
  · rfl
  · exact raise_withVerbose b e d

theorem commitChecks_withVerbose (d : Dev) :
    commitChecks (d.withVerbose b) = (commitChecks d).withVerbose b := by
  unfold commitChecks
  rw [raiseIf_withVerbose, raiseIf_withVerbose]
  rfl

theorem commitDev_withVerbose (d : Dev) :
    commitDev (d.withVerbose b) = (commitDev d).withVerbose b := by
  rw [commitDev_eq, commitDev_eq, commitChecks_withVerbose,
    show (d.withVerbose b).conf.legal = d.conf.legal from rfl]
  split <;> rfl

theorem headDev_withVerbose (n : BitVec 16) (d : Dev) :
    headDev n (d.withVerbose b) = (headDev n d).withVerbose b := by
  simp only [headDev, Dev.withVerbose_mq]
  split <;> rfl

theorem dataDev_withVerbose (x : Byte) (d : Dev) :
    dataDev x (d.withVerbose b) = (dataDev x d).withVerbose b := by
  simp only [dataDev, Dev.withVerbose_mq]
  split <;> rfl

theorem endDev_withVerbose (d : Dev) : endDev (d.withVerbose b) = (endDev d).withVerbose b := by
  simp only [endDev, Dev.withVerbose_mq]
  split <;> rfl

theorem loadDev_withVerbose (d : Dev) : loadDev (d.withVerbose b) = (loadDev d).withVerbose b := by
  simp only [loadDev, Dev.withVerbose_bch]
  split
  · rfl
  · split <;> rfl

theorem shiftDev_withVerbose (d : Dev) :
    shiftDev (d.withVerbose b) = (shiftDev d).map (Dev.withVerbose b) :=
  ite_map_withVerbose b rfl rfl

theorem finish_withVerbose (d : Dev) :
    finish (d.withVerbose b) = (finish d).map (Dev.withVerbose b) := by
  simp only [finish, Dev.withVerbose_mq]
  split <;> rfl

theorem advance_withVerbose (p : Phase) (d : Dev) :
    advance p (d.withVerbose b) = (advance p d).map (Dev.withVerbose b) := by
  simp only [advance, Dev.withVerbose_mq, Dev.withVerbose_syncLenNat, finish_withVerbose]
  split
  · rfl
  · split
    · rfl
    · split <;> rfl

theorem emit_withVerbose (x : Byte) (d : Dev) :
    emit x (d.withVerbose b) = (emit x d).map (Dev.withVerbose b) :=
  ite_map_withVerbose b (advance_withVerbose b _ (pushByte x d)) rfl

theorem emitSyncDev_withVerbose (d : Dev) :
    emitSyncDev (d.withVerbose b) = (emitSyncDev d).map (Dev.withVerbose b) :=
  ite_map_withVerbose b (emit_withVerbose b _ d) rfl

theorem emitPayDev_withVerbose (d : Dev) :
    emitPayDev (d.withVerbose b) = (emitPayDev d).map (Dev.withVerbose b) := by
  simp only [emitPayDev, Dev.withVerbose_mq]
  split
  · rfl
  · split
    · rfl
    · next r rest _ _ x xs _ =>
      exact emit_withVerbose b x (d.setMq ({ r with data := xs } :: rest))

theorem startDev_withVerbose (r : Msg) (d : Dev) :
    startDev r (d.withVerbose b) = (startDev r d).map (Dev.withVerbose b) := by
  rw [startDev_eq, startDev_eq]
  exact ite_map_withVerbose b rfl (advance_withVerbose b .pre (latched r d))

/-! ### The guards do not read the bit -/

section
variable (s : State)

theorem inReady_withVerbose (k : BeatKind) :
    inReady (s.withVerbose b).env.params (s.withVerbose b).dev k = inReady s.env.params s.dev k := rfl

theorem dropEnabled_withVerbose : dropEnabled (s.withVerbose b).dev = dropEnabled s.dev := rfl

theorem startEnabled_withVerbose : startEnabled (s.withVerbose b).dev = startEnabled s.dev := rfl

theorem emitEnabled_withVerbose (ph : Phase) :
    emitEnabled (s.withVerbose b).env.params ph (s.withVerbose b).dev =
      emitEnabled s.env.params ph s.dev := rfl

theorem drainDoneEnabled_withVerbose :
    drainDoneEnabled (s.withVerbose b).dev = drainDoneEnabled s.dev := rfl

theorem loadEnabled_withVerbose : loadEnabled (s.withVerbose b).dev = loadEnabled s.dev := rfl

theorem shiftEnabled_withVerbose :
    shiftEnabled (s.withVerbose b).env.params (s.withVerbose b).dev = shiftEnabled s.env.params s.dev := rfl

end

/-! ### The operations do not read the bit -/

theorem execStart_withVerbose (s : State) :
    execStart (s.withVerbose b) = withVerboseOutcome b (execStart s) := by
  refine withVerboseOutcome_ite b (by rw [startEnabled_withVerbose]) ?_ rfl
  rw [show (s.withVerbose b).dev.mq = s.dev.mq from rfl]
  split
  · rfl
  · rw [← withVerboseOutcome_ofDev, ← startDev_withVerbose]
    rfl

theorem execPop_withVerbose (s : State) :
    execPop (s.withVerbose b) = withVerboseOutcome b (execPop s) := by
  unfold execPop
  rw [show (s.withVerbose b).dev.oq = s.dev.oq from rfl]
  split <;> rfl

section
variable {s : State}

/-- A device operation under a guard, neither of which reads the bit. -/
theorem guarded_toDev_withVerbose {g g' : Bool} (hg : g' = g) {e e' : Dev}
    (he : e' = e.withVerbose b) :
    (if g' then toDev (s.withVerbose b) e' else wait (s.withVerbose b)) =
      withVerboseOutcome b (if g then toDev s e else wait s) :=
  withVerboseOutcome_ite b (by rw [hg]) (by rw [he]; rfl) rfl

/-- A device operation that may stop, under a guard, neither of which reads the bit. -/
theorem guarded_ofDev_withVerbose {g g' : Bool} (hg : g' = g) {o o' : Except Fault Dev}
    (ho : o' = o.map (Dev.withVerbose b)) :
    (if g' then ofDev (s.withVerbose b) o' else wait (s.withVerbose b)) =
      withVerboseOutcome b (if g then ofDev s o else wait s) :=
  withVerboseOutcome_ite b (by rw [hg]) (by rw [ho, withVerboseOutcome_ofDev]) rfl

/-- A command under a lifecycle condition. -/
theorem command_withVerbose {g g' : Prop} [Decidable g] [Decidable g'] (hg : g' ↔ g) {e e' : Dev}
    (he : e' = e.withVerbose b) :
    (if g' then toDev (s.withVerbose b) e' else refuseAccess (s.withVerbose b)) =
      withVerboseOutcome b (if g then toDev s e else refuseAccess s) :=
  withVerboseOutcome_ite b hg (by rw [he]; rfl) rfl

end

/-- A write of another register keeps the bit it finds. -/
theorem writeConf_withVerbose (s : State) {c c' : Conf} (hc : c' = { c with verbose := b }) :
    writeConf (s.withVerbose b) c' = withVerboseOutcome b (writeConf s c) := by
  subst hc
  exact command_withVerbose b Iff.rfl rfl

/-- Every operation but the read of CFG and the two that write the bit leaves it as it is and does not
read it. -/
theorem exec_withVerbose {i : Instr} (s : State) (hrd : i ≠ .rd 4#4) (hwr : ∀ v, i ≠ .wrCfg v)
    (hsrst : i ≠ .srst) : exec i (s.withVerbose b) = withVerboseOutcome b (exec i s) := by
  cases i with
  | rd a =>
    have ha : a ≠ 4#4 := fun e => hrd (by rw [e])
    have hm : memRead (s.withVerbose b).dev a = memRead s.dev a := memRead_withVerbose b ha s.dev
    change Host.Outcome.next ((s.withVerbose b).returnRead (memRead (s.withVerbose b).dev a)) = _
    rw [hm]; rfl
  | wrCfg v => exact absurd rfl (hwr v)
  | srst => exact absurd rfl hsrst
  | map | wrStatus | wrIen | wrRo | wrUnmapped | cmdRsvd => rfl
  | wrPre | wrSyncLen | wrSync0 | wrSync1 | wrAmp0 | wrAmp1 => exact writeConf_withVerbose b s rfl
  | commit => exact command_withVerbose b Iff.rfl (commitDev_withVerbose b s.dev)
  | stop => exact command_withVerbose b Iff.rfl rfl
  | abort => exact command_withVerbose b Iff.rfl rfl
  | head n =>
    exact guarded_toDev_withVerbose b (inReady_withVerbose b s .head)
      (headDev_withVerbose b n s.dev)
  | data x =>
    exact guarded_toDev_withVerbose b (inReady_withVerbose b s .data)
      (dataDev_withVerbose b x s.dev)
  | msgEnd =>
    exact guarded_toDev_withVerbose b (inReady_withVerbose b s .msgEnd)
      (endDev_withVerbose b s.dev)
  | rsvd => exact guarded_toDev_withVerbose b (inReady_withVerbose b s .rsvd) rfl
  | drop => exact guarded_toDev_withVerbose b (dropEnabled_withVerbose b s) rfl
  | start => exact execStart_withVerbose b s
  | emitPre =>
    exact guarded_ofDev_withVerbose b (emitEnabled_withVerbose b s .pre)
      (emit_withVerbose b _ s.dev)
  | emitSync =>
    exact guarded_ofDev_withVerbose b (emitEnabled_withVerbose b s .sync)
      (emitSyncDev_withVerbose b s.dev)
  | emitPay =>
    exact guarded_ofDev_withVerbose b (emitEnabled_withVerbose b s .pay)
      (emitPayDev_withVerbose b s.dev)
  | drainDone => exact guarded_toDev_withVerbose b (drainDoneEnabled_withVerbose b s) rfl
  | load =>
    exact guarded_toDev_withVerbose b (loadEnabled_withVerbose b s)
      (loadDev_withVerbose b s.dev)
  | shift =>
    exact guarded_ofDev_withVerbose b (shiftEnabled_withVerbose b s)
      (shiftDev_withVerbose b s.dev)
  | pop => exact execPop_withVerbose b s

/-- WR.CFG stores the bit, so in UNCONF the two states end the same; elsewhere it is refused (R104). -/
theorem exec_wrCfg_withVerbose (v : Word) (s : State) :
    exec (.wrCfg v) (s.withVerbose b) =
      if s.dev.lc = .unconf then exec (.wrCfg v) s else withVerboseOutcome b (exec (.wrCfg v) s) := by
  simp only [exec, execWrCfg, writeConf_eq]
  rw [show (s.withVerbose b).dev.lc = s.dev.lc from rfl]
  split <;> rfl

end

/-! ### The obligations -/

/-- Settles O45: no operation but the read of CFG reads the bit, and of those that write it WR.CFG and
SRST write the same value whatever it was. -/
theorem verboseChangesNoOperationButTheReadOfCfg :
    Obligations.VerboseChangesNoOperationButTheReadOfCfg := by
  intro b i s hrd
  have hout : exec i (s.withVerbose b) = exec i s ∨
      exec i (s.withVerbose b) = withVerboseOutcome b (exec i s) := by
    by_cases hsrst : i = .srst
    · exact .inl (by rw [hsrst]; rfl)
    · by_cases hwr : ∃ v, i = .wrCfg v
      · obtain ⟨v, rfl⟩ := hwr
        rw [exec_wrCfg_withVerbose]
        split
        · exact .inl rfl
        · exact .inr rfl
      · exact .inr (exec_withVerbose b s hrd (not_exists.mp hwr) hsrst)
  rcases hout with h | h <;> rw [h] <;> cases exec i s <;> rfl

/-- Settles O19: each pin is the field it shows. -/
theorem outputPinsFollowTheState : Obligations.OutputPinsFollowTheState := fun s =>
  ⟨by simp [Dev.outValid], fun x rest hq => by rw [State.outItem, hq], by simp [Dev.fecEn],
   rfl, rfl, rfl⟩

/-- Settles O40: the reset state evaluated. -/
theorem resetLeavesTheTableOfResetValues : Obligations.ResetLeavesTheTableOfResetValues :=
  ⟨by decide, rfl, rfl, rfl, rfl, rfl, rfl, rfl, rfl, rfl,
   fun k => inReady_of_not_run State.reset.env.params k (by decide), rfl, rfl, rfl, rfl⟩

end Sys2Proof.Machine
end

section
/-! FBC moves what it owes into BCH and loses nothing of it; so a message counted in FRAMECNT is wholly
behind FBC (spec/10_state.md R30, spec/42_fbc_ops.md R156, spec/70_reset_and_hazards.md R239). -/

namespace Sys2Proof.Machine

open Sys2Proof

/-! ### What is owed, cut at FBC -/

/-- What is owed of the bytes FBC has pushed. -/
def behindFbc (d : Dev) : List SItem :=
  (d.oq ++ symbolsFrom d.conf d.brp.byte d.brp.cnt.toNat d.brp.sof d.brp.tag) ++
    itemSymbols d.conf d.bch

/-- What is owed of the bytes FBC has still to push and of the records it has not begun. -/
def beforeFbc (d : Dev) : List SItem :=
  itemSymbols d.conf (tagged d.fbc.sof d.fbc.tag (restBytes d)) ++ goodItems d.conf (waiting d)

theorem pending_eq (d : Dev) : pending d = behindFbc d ++ beforeFbc d :=
  List.append_assoc _ _ _

theorem itemSymbols_length (c : Conf) (xs : List BItem) :
    (itemSymbols c xs).length = 8 * xs.length := by
  induction xs with
  | nil => rfl
  | cons x xs ih => rw [itemSymbols_cons, List.length_append, symbolsFrom_length, ih,
      List.length_cons]; omega

/-- OQ, BRP and BCH hold no more than their sizes allow (R36 to R38). -/
theorem Dev.Inv.behindFbc_length {p : Params} {d : Dev} (h : d.Inv p) :
    (behindFbc d).length ≤ 8 * p.bcap + 8 + p.ocap := by
  have hoq := h.oq_len
  have hbits := h.bits_left
  have hbch := h.bch_len
  simp only [behindFbc, List.length_append, symbolsFrom_length, itemSymbols_length]
  omega

/-- An idle FBC owes the records of MQ and nothing else. -/
theorem beforeFbc_idle {d : Dev} (h : d.fbc.phase = .idle) : beforeFbc d = goodItems d.conf d.mq := by
  rw [beforeFbc, restBytes_idle h, waiting_idle h, tagged_nil, itemSymbols_nil, List.nil_append]

/-- What is owed of a message of which the bytes `bs` are still to push, and of the records behind it. -/
def owedOf (d : Dev) (bs : List Byte) (rest : List Msg) : List SItem :=
  itemSymbols d.conf (tagged d.fbc.sof d.fbc.tag bs) ++ goodItems d.conf rest

section
variable {p : Params} {ph : Phase} {r : Msg} {rest : List Msg} {d e : Dev}

theorem beforeFbc_busy (hp : d.fbc.phase ≠ .idle) (hq : d.mq = r :: rest) :
    beforeFbc d = owedOf d (restBytes d) rest := by
  rw [beforeFbc, waiting_busy hp, hq]
  rfl

theorem beforeFbc_enterPhase {n : BitVec 16} (hp : ph ≠ .idle) (hq : d.mq = r :: rest) :
    beforeFbc (enterPhase ph n d) = owedOf d (restBytes (enterPhase ph n d)) rest :=
  beforeFbc_busy (d := enterPhase ph n d) hp hq

/-! ### `advance` and START -/

theorem advance_bch (h : advance ph d = .ok e) : e.bch = d.bch := by
  rcases advance_cases h with ⟨-, -, rfl⟩ | ⟨r, rest, -, -, -, -, rfl⟩ | ⟨r, rest, -, -, -, rfl⟩ <;> rfl

/-- The bytes of the phases behind `ph`. -/
def bytesAfter (ph : Phase) (c : Conf) (payload : List Byte) : List Byte :=
  (if ph = .pre then c.syncBytes else []) ++ payload

theorem bytesAfter_of_no_sync {c : Conf} (h : ph = .pre → c.syncLenNat = 0) (payload : List Byte) :
    bytesAfter ph c payload = payload := by
  unfold bytesAfter
  split
  · next hph => rw [List.eq_nil_of_length_eq_zero (c.syncBytes_length.trans (h hph)), List.nil_append]
  · rfl

/-- With no byte of its phase left, FBC has the bytes of the phases behind it to push. -/
theorem restBytes_at_end (hp : d.fbc.phase ≠ .idle) (h0 : d.fbc.cnt.toNat = 0) :
    restBytes d = bytesAfter d.fbc.phase d.conf (headData d.mq) := by
  cases hph : d.fbc.phase with
  | idle => exact absurd hph hp
  | pre => simp [restBytes_pre hph, h0, bytesAfter]
  | sync =>
    rw [restBytes_sync hph, h0, List.drop_of_length_le (by simp)]
    rfl
  | pay => exact restBytes_pay hph

/-- Whatever phase `advance` enters, the bytes of the phases behind `ph` are owed, and no others. -/
theorem Dev.Sending.advance_beforeFbc (h : d.Sending p ph r rest) (hpay : ph = .pay → r.data = [])
    (he : Machine.advance ph d = .ok e) : beforeFbc e = owedOf d (bytesAfter ph d.conf r.data) rest := by
  rcases advance_cases he with ⟨rfl, -, rfl⟩ | ⟨r', rest', hq, -, hs, -, rfl⟩ |
    ⟨r', rest', hq, hs, hl, rfl⟩
  · rw [beforeFbc_enterPhase (by decide) h.mq, restBytes_sync rfl]
    simp only [enterPhase_fbc, enterPhase_conf, enterPhase_mq, d.conf.syncLen_in_cnt, Nat.sub_self,
      List.drop_zero, h.mq, headData_cons]
    rfl
  · rw [beforeFbc_enterPhase (by decide) h.mq, restBytes_pay rfl, bytesAfter_of_no_sync hs,
      enterPhase_mq, h.mq, headData_cons]
  · obtain ⟨rfl, rfl⟩ : r = r' ∧ rest = rest' := by simpa [h.mq] using hq
    have hdata : r.data = [] := by
      by_cases hph : ph = .pay
      · exact hpay hph
      · exact List.eq_nil_of_length_eq_zero ((h.unsent hph).trans (hl.resolve_left hph))
    rw [beforeFbc_idle (d := Machine.finished rest d) rfl, bytesAfter_of_no_sync hs, hdata, owedOf,
      tagged_nil]
    rfl

/-- Before START a good head record is owed as its whole frame, under the tag START latches. -/
theorem Dev.Inv.beforeFbc_startEnabled (h : d.Inv p) (hg : startEnabled d = true)
    (hq : d.mq = r :: rest) :
    beforeFbc d = owedOf (latched r d) (d.conf.frameBytes r.data) rest := by
  have hs := h.sending_latched hg hq
  obtain ⟨-, hidle, -⟩ := (startEnabled_iff d).mp hg
  rw [beforeFbc_idle hidle, hq, goodItems_cons, hs.closed, hs.good, Conf.frameItems,
    hs.unsent (by decide)]
  rfl

theorem pending_congr (hoq : e.oq = d.oq) (hbrp : e.brp = d.brp) (hconf : e.conf = d.conf)
    (hbch : e.bch = d.bch) (hbefore : beforeFbc e = beforeFbc d) : pending e = pending d := by
  rw [pending_eq, pending_eq, hbefore, behindFbc, behindFbc, hoq, hbrp, hconf, hbch]

/-- START begins what was owed of its record, whichever phase it enters. -/
theorem Dev.Inv.start_pending (h : d.Inv p) (hg : startEnabled d = true) (hq : d.mq = r :: rest)
    (he : startDev r d = .ok e) : pending e = pending d := by
  have hs := h.sending_latched hg hq
  have hd := h.beforeFbc_startEnabled hg hq
  rw [startDev_eq, ← latched] at he
  split at he
  · cases he
    refine pending_congr rfl rfl rfl rfl ?_
    rw [hd, beforeFbc_enterPhase (by decide) hs.mq, restBytes_pre rfl, enterPhase_mq, hs.mq]
    rfl
  · next hpre =>
    have hk := advance_keeps he
    refine pending_congr hk.oq hk.brp hk.conf (advance_bch (d := latched r d) he) ?_
    rw [hd, hs.advance_beforeFbc (by simp) he, Conf.frameBytes, Nat.eq_zero_of_not_pos hpre]
    rfl

/-! ### `emit` -/

/-- The phase that ends with a byte is left for the next with nothing lost. -/
theorem Dev.Sending.emit_pending (h : d.Sending p d.fbc.phase r rest) (hp : d.fbc.phase ≠ .idle)
    (hroom : d.bch.length < p.bcap) (hf : d.Fits r (d.fbc.cnt.toNat - 1)) {b : Byte}
    (he : Machine.emit b d = .ok e) : pending e = pending (Machine.pushByte b d) := by
  rcases emit_cases he with ⟨h1, ha⟩ | ⟨-, rfl⟩
  · have hs := h.pushByte hroom b
    have hk := advance_keeps ha
    have h0 : (Machine.pushByte b d).fbc.cnt.toNat = 0 := by
      simp only [pushByte_fbc, decCnt_toNat]; omega
    refine pending_congr hk.oq hk.brp hk.conf (advance_bch ha) ?_
    rw [hs.advance_beforeFbc (fun hpay => List.eq_nil_of_length_eq_zero (by rw [hf.pay hpay]; omega)) ha,
      beforeFbc_busy (d := Machine.pushByte b d) hp hs.mq,
      restBytes_at_end (d := Machine.pushByte b d) hp h0, hs.mq]
    rfl
  · rfl

/-- A byte pushed is a byte owed before and in BCH now. -/
theorem pending_pushByte {q : List Msg} {b : Byte}
    (hrest : restBytes d = b :: restBytes (pushByte b (d.setMq q)))
    (hw : waiting (pushByte b (d.setMq q)) = waiting d) :
    pending (pushByte b (d.setMq q)) = pending d := by
  rw [pending_eq, pending_eq, beforeFbc, beforeFbc, hw, hrest]
  simp only [behindFbc, pushByte_oq, pushByte_brp, pushByte_conf, pushByte_bch, pushByte_fbc,
    tagged_cons, itemSymbols_append, itemSymbols_cons, itemSymbols_nil, List.append_nil,
    List.append_assoc]
  rfl

theorem Dev.Inv.emitPre_pending (h : d.Inv p) (hg : emitEnabled p .pre d = true)
    (he : Machine.emit d.conf.preByte d = .ok e) : pending e = pending d := by
  obtain ⟨-, hph, hroom⟩ := (emitEnabled_iff p .pre d).mp hg
  have hp : d.fbc.phase ≠ .idle := by simp [hph]
  obtain ⟨r, rest, hs, h1, hf⟩ := h.sending hp
  rw [hs.emit_pending hp hroom
    ⟨fun hp => (Nat.sub_le _ _).trans (hf.pre hp), by simp [hph], by simp [hph]⟩ he]
  refine pending_pushByte (q := d.mq) ?_ rfl
  obtain ⟨n, hn⟩ := Nat.exists_eq_add_of_le' h1
  rw [restBytes_pre hph, restBytes_pre (d := Machine.pushByte _ (d.setMq d.mq)) hph]
  simp [decCnt_toNat, hn, List.replicate_succ]

theorem Dev.Inv.emitSync_pending (h : d.Inv p) (hg : emitEnabled p .sync d = true)
    (he : emitSyncDev d = .ok e) : pending e = pending d := by
  obtain ⟨-, hph, hroom⟩ := (emitEnabled_iff p .sync d).mp hg
  have hp : d.fbc.phase ≠ .idle := by simp [hph]
  obtain ⟨r, rest, hs, h1, hf⟩ := h.sending hp
  have hle := hf.sync hph
  have hnext : d.conf.syncLenNat - (d.fbc.cnt.toNat - 1) =
      d.conf.syncLenNat - d.fbc.cnt.toNat + 1 := by omega
  unfold emitSyncDev at he
  split at he
  · rw [hs.emit_pending hp hroom
      ⟨by simp [hph], fun _ => (Nat.sub_le _ _).trans hle, by simp [hph]⟩ he]
    refine pending_pushByte (q := d.mq) ?_ rfl
    rw [restBytes_sync hph, restBytes_sync (d := Machine.pushByte _ (d.setMq d.mq)) hph,
      Conf.syncBytes_drop (by omega)]
    simp [decCnt_toNat, hnext]
  · cases he

theorem Dev.Inv.emitPay_pending (h : d.Inv p) (hg : emitEnabled p .pay d = true)
    (he : emitPayDev d = .ok e) : pending e = pending d := by
  obtain ⟨-, hph, hroom⟩ := (emitEnabled_iff p .pay d).mp hg
  have hp : d.fbc.phase ≠ .idle := by simp [hph]
  obtain ⟨r, rest, hs, h1, hf⟩ := h.sending hp
  have hlen := hf.pay hph
  have hmq := hs.mq
  obtain ⟨b, bs, hb⟩ := List.exists_cons_of_length_pos (l := r.data) (by omega)
  rw [hb, List.length_cons] at hlen
  simp only [emitPayDev, hmq, hb] at he
  have hpop : (d.setMq ({ r with data := bs } :: rest)).Sending p d.fbc.phase
      { r with data := bs } rest := by
    rw [hph] at hs ⊢
    exact hs.popByte hb
  rw [Dev.Sending.emit_pending (d := d.setMq ({ r with data := bs } :: rest)) hpop hp hroom
    ⟨by simp [hph], by simp [hph], fun _ => by simp only [Dev.setMq_fbc]; omega⟩ he]
  refine pending_pushByte ?_ ?_
  · rw [restBytes_pay hph, hmq, headData_cons, hb, restBytes_pay
      (d := Machine.pushByte b (d.setMq ({ r with data := bs } :: rest))) hph]
    rfl
  · rw [waiting_busy hp, hmq, waiting_busy
      (d := Machine.pushByte b (d.setMq ({ r with data := bs } :: rest))) hp]
    rfl

end

/-! ### The steps that count a message -/

section
variable {i : Instr} {s t : State}

/-- A device operation that owes the same owes it under a guard and after a wait too. -/
theorem pending_of_guarded {g : Prop} [Decidable g] {o : Res}
    (hx : (if g then o else wait s) = .next t)
    (ho : g → o = .next t → pending t.dev = pending s.dev) : pending t.dev = pending s.dev := by
  split at hx
  · next hg => exact ho hg hx
  · cases hx; rfl

theorem pending_of_ofDev {o : Except Fault Dev} (hx : ofDev s o = .next t)
    (ho : ∀ e, o = .ok e → pending e = pending s.dev) : pending t.dev = pending s.dev := by
  obtain ⟨e, he, rfl⟩ := ofDev_next hx
  exact ho e he

/-- START and the three EMIT operations owe the egress the same before and after. -/
theorem exec_emission_pending (h : s.Inv)
    (hi : i = .start ∨ i = .emitPre ∨ i = .emitSync ∨ i = .emitPay) (hx : exec i s = .next t) :
    pending t.dev = pending s.dev := by
  rcases hi with rfl | rfl | rfl | rfl
  · refine pending_of_guarded hx fun hg hx => ?_
    split at hx
    · cases hx
    · next r rest hq =>
      exact pending_of_ofDev hx fun e he => Dev.Inv.start_pending h hg hq he
  · exact pending_of_guarded hx fun hg hx => pending_of_ofDev hx fun e he =>
      Dev.Inv.emitPre_pending h hg he
  · exact pending_of_guarded hx fun hg hx => pending_of_ofDev hx fun e he =>
      Dev.Inv.emitSync_pending h hg he
  · exact pending_of_guarded hx fun hg hx => pending_of_ofDev hx fun e he =>
      Dev.Inv.emitPay_pending h hg he

/-- Taking a port word off its queue leaves the device and what was delivered. -/
theorem fetch_run_dev {x : Turn} {u : State} (hf : fetch x s = .run i u) :
    u.dev = s.dev ∧ u.env.delivered = s.env.delivered := by
  rcases fetch_run_cases hf with ⟨-, w, ws, -, -, rfl⟩ | ⟨-, w, ws, -, -, -, rfl⟩ | ⟨-, -, rfl⟩ |
    ⟨-, -, rfl⟩ | ⟨-, -, rfl⟩ <;> exact ⟨rfl, rfl⟩

/-- A step that raises FRAMECNT performs an operation, and not SRST, which clears it. -/
theorem exec_of_step_counts (hx : step s = .next t)
    (hc : s.dev.framecnt.toNat < t.dev.framecnt.toNat) :
    ∃ i u, fetch s.nextTurn s.takeTurn = .run i u ∧ exec i u = .next t ∧ i ≠ .srst := by
  rcases step_cases hx with ⟨-, rfl⟩ | ⟨-, rfl⟩ | ⟨i, u, hf, hx⟩
  · exact absurd hc (Nat.lt_irrefl _)
  · exact absurd hc (Nat.not_lt_zero _)
  · refine ⟨i, u, hf, hx, ?_⟩
    rintro rfl
    cases hx
    exact absurd hc (Nat.not_lt_zero _)

end

/-! ### The obligation -/

/-- Settles O58: the step is the START or EMIT that ends the message; it keeps what is owed, and the
invariant bounds what OQ, BRP and BCH hold. -/
theorem countedMessageIsWhollyBehindFbc : Obligations.CountedMessageIsWhollyBehindFbc := by
  intro s t h hx hc
  have ht : t.Inv := step_keeps_inv h hx
  obtain ⟨i, u, hf, hx, hsrst⟩ := exec_of_step_counts hx hc
  have hu : u.Inv := fetch_run_inv (s := s.takeTurn) h hf
  obtain ⟨hdev, hdel⟩ := fetch_run_dev hf
  rw [State.takeTurn_dev] at hdev
  rw [State.takeTurn_delivered] at hdel
  obtain heq | ⟨hi, hlen, hidle, -⟩ := (exec_effect hx).framecnt_cases hsrst
  · rw [heq, hdev] at hc
    exact absurd hc (Nat.lt_irrefl _)
  · refine ⟨hdev ▸ hlen, hidle, restBytes_idle hidle, behindFbc t.dev, rfl, ?_, Dev.Inv.behindFbc_length ht⟩
    rw [State.stream, ← hdev, ← exec_emission_pending hu hi hx, ← hdel, exec_emission_env hi hx,
      pending_eq, beforeFbc_idle hidle, List.append_assoc]

end Sys2Proof.Machine
end

section
/-! The configuration registers outside UNCONF (spec/20_memory.md R72, spec/40_control_ops.md R119,
spec/70_reset_and_hazards.md R234). -/

namespace Sys2Proof.Machine

open Sys2Proof

section
variable {i : Instr} {s t : State}

/-- The effect that writes the configuration has UNCONF as its guard, and only SRST resets it. -/
theorem Effect.conf_kept (h : Effect i s t) (hlc : s.dev.lc ≠ .unconf) (hsrst : i ≠ .srst) :
    t.dev.conf = s.dev.conf := by
  cases h with
  | setConf c _ hunconf => exact absurd hunconf hlc
  | commit hunconf => exact absurd hunconf hlc
  | srst => exact absurd rfl hsrst
  | refuse | discard | misaligned => simp only [State.setDev_dev, raise_conf]
  | emission _ hk => exact hk.conf
  | _ => rfl

theorem exec_keeps_conf (hx : exec i s = .next t) (hlc : s.dev.lc ≠ .unconf) (hsrst : i ≠ .srst) :
    t.dev.conf = s.dev.conf :=
  (exec_effect hx).conf_kept hlc hsrst

/-- A step outside UNCONF keeps the configuration or resets the device. -/
theorem step_keeps_conf_or_resets (hx : step s = .next t) (hlc : s.dev.lc ≠ .unconf) :
    t.dev.conf = s.dev.conf ∨ t.dev = Dev.reset := by
  rcases step_cases hx with ⟨-, rfl⟩ | ⟨-, rfl⟩ | ⟨i, u, hf, hx⟩
  · exact .inl rfl
  · exact .inr rfl
  · obtain ⟨hdev, -⟩ := fetch_run_dev hf
    rw [State.takeTurn_dev] at hdev
    by_cases hsrst : i = .srst
    · subst hsrst; cases hx; exact .inr rfl
    · rw [← hdev] at hlc ⊢
      exact .inl (exec_keeps_conf hx hlc hsrst)

end

/-- Settles O41: no effect but SRST's writes the configuration outside UNCONF, and a step is a wait, a
reset or one operation. -/
theorem configurationIsLockedOutsideUnconf : Obligations.ConfigurationIsLockedOutsideUnconf :=
  ⟨fun _ _ _ hx hlc hsrst => exec_keeps_conf hx hlc hsrst,
   fun _ _ hx hlc hne => (step_keeps_conf_or_resets hx hlc).resolve_left hne⟩

end Sys2Proof.Machine
end

section
/-! The two input ports: the fields under a mask, what each decoder can answer, and the opcode table
(spec/30_encoding.md R80 to R96). -/

namespace Sys2Proof

/-! ### A mask over a field keeps the field -/

/-- The mask that is 1 on a field and 0 elsewhere leaves the field where it was. -/
theorem and_fieldAt_allOnes {w : Nat} (x : BitVec w) (lo n : Nat) :
    x &&& fieldAt w lo (BitVec.allOnes n) = fieldAt w lo (x.extractLsb' lo n) := by
  apply BitVec.eq_of_getLsbD_eq
  intro i hi
  simp only [BitVec.getLsbD_and, getLsbD_fieldAt, BitVec.getLsbD_allOnes, BitVec.getLsbD_extractLsb']
  by_cases hlo : lo ≤ i
  · rw [Nat.add_sub_cancel' hlo, Bool.and_comm, Bool.and_assoc]
  · simp [hlo]

/-- A field of one bit is that bit. -/
theorem ofBool_getLsbD {w : Nat} (x : BitVec w) (i : Nat) :
    BitVec.ofBool (x.getLsbD i) = x.extractLsb' i 1 := by
  apply BitVec.eq_of_getLsbD_eq
  intro j hj
  obtain rfl : j = 0 := by omega
  simp

/-- A narrow field placed in a wider one, at the bottom of both. -/
theorem fieldAt_zero_fieldAt_zero {w m n : Nat} (x : BitVec n) (h : n ≤ m) :
    fieldAt w 0 (fieldAt m 0 x) = fieldAt w 0 x := by
  simp only [fieldAt, BitVec.shiftLeft_zero]
  exact BitVec.setWidth_setWidth (by omega)

theorem cmdCode_ctlData (w : BitVec 37) : cmdCode (ctlData w) = w.extractLsb' 0 4 := by
  apply BitVec.eq_of_getLsbD_eq
  intro i hi
  simp only [cmdCode, ctlData, BitVec.getLsbD_extractLsb', Nat.zero_add]
  simp [Nat.lt_trans hi (show 4 < 32 by decide)]

/-- What R81 leaves of a read: its `we` and `a`. -/
theorem and_ctlIndexMask (w : BitVec 37) :
    w &&& 0x1F00000000#37 = ctlBits (ctlWe w) (ctlIndex w) 0#32 := by
  have hmask : 0x1F00000000#37 =
      fieldAt 37 36 (BitVec.allOnes 1) ||| fieldAt 37 32 (BitVec.allOnes 4) := by decide
  have hzero : fieldAt 37 0 0#32 = 0#37 := by decide
  rw [hmask, BitVec.and_or_distrib_left, and_fieldAt_allOnes, and_fieldAt_allOnes, ctlBits,
    ctlWe, ofBool_getLsbD, hzero, BitVec.or_zero, ctlIndex]

/-- What R113 leaves of a command: its `we`, `a` and code. -/
theorem and_ctlCodeMask (w : BitVec 37) :
    w &&& 0x1F0000000F#37 = ctlBits (ctlWe w) (ctlIndex w) (fieldAt 32 0 (cmdCode (ctlData w))) := by
  have hmask : 0x1F0000000F#37 = fieldAt 37 36 (BitVec.allOnes 1) ||| fieldAt 37 32 (BitVec.allOnes 4) |||
      fieldAt 37 0 (BitVec.allOnes 4) := by decide
  rw [hmask, BitVec.and_or_distrib_left, BitVec.and_or_distrib_left, and_fieldAt_allOnes,
    and_fieldAt_allOnes, and_fieldAt_allOnes, ctlBits, ctlWe, ofBool_getLsbD, ctlIndex,
    cmdCode_ctlData, fieldAt_zero_fieldAt_zero _ (by decide)]

/-- What R82 leaves of END and RSVD: the kind. -/
theorem and_beatKindMask (w : BitVec 18) :
    w &&& 0x30000#18 = beatBits (beatKindBits w) 0#16 := by
  have hmask : 0x30000#18 = fieldAt 18 16 (BitVec.allOnes 2) := by decide
  have hzero : fieldAt 18 0 0#16 = 0#18 := by decide
  rw [hmask, and_fieldAt_allOnes, beatBits, hzero, BitVec.or_zero, beatKindBits]

/-- What R82 leaves of DATA: the kind and the byte. -/
theorem and_beatByteMask (w : BitVec 18) :
    w &&& 0x300FF#18 = beatBits (beatKindBits w) (fieldAt 16 0 (beatByte w)) := by
  have hmask : 0x300FF#18 = fieldAt 18 16 (BitVec.allOnes 2) ||| fieldAt 18 0 (BitVec.allOnes 8) := by
    decide
  rw [hmask, BitVec.and_or_distrib_left, and_fieldAt_allOnes, and_fieldAt_allOnes, beatBits,
    beatKindBits, beatByte, fieldAt_zero_fieldAt_zero _ (by decide)]

/-! ### What the decoders answer -/

theorem roSlot_iff (a : BitVec 4) : roSlot a = true ↔ a = 0#4 ∨ a = 11#4 ∨ a = 12#4 := by
  simp [roSlot, or_assoc]

theorem unmappedSlot_iff : ∀ a : BitVec 4, unmappedSlot a = true ↔ 13 ≤ a.toNat := by decide

/-- An index from its value, as `decodeWrite` and `memRead` match on it. -/
theorem eq_ofNat_of_toNat_eq {n : Nat} {x : BitVec n} {k : Nat} (h : x.toNat = k) :
    x = BitVec.ofNat n k := by
  rw [← h, BitVec.ofNat_toNat, BitVec.setWidth_eq]

theorem decodeWrite_of_roSlot {a : BitVec 4} (h : roSlot a = true) (v : Word) :
    decodeWrite a v = .wrRo a v := by
  obtain rfl | rfl | rfl := (roSlot_iff a).mp h <;> rfl

theorem decodeWrite_of_unmappedSlot {a : BitVec 4} (h : unmappedSlot a = true) (v : Word) :
    decodeWrite a v = .wrUnmapped a v := by
  have ha := (unmappedSlot_iff a).mp h
  unfold decodeWrite
  split
  case h_14 => rfl
  all_goals omega

/-- A code that is no command decodes to the refusal that carries it (R118). -/
theorem decodeCmd_of_not_commandCode {v : Word} (h : commandCode (cmdCode v) = false) :
    decodeCmd v = .cmdRsvd (cmdCode v) := by
  rcases decodeCmd_cases v with ⟨hc, -⟩ | ⟨hc, -⟩ | ⟨hc, -⟩ | ⟨hc, -⟩ | ⟨-, hd⟩
  case inr.inr.inr.inr => exact hd
  all_goals rw [hc] at h; cases h

@[simp] theorem decodeCtl_ctlBits (we : Bool) (a : BitVec 4) (v : Word) :
    decodeCtl (ctlBits we a v) = if we then decodeWrite a v else .rd a := by
  simp only [decodeCtl, ctlWe_ctlBits, ctlIndex_ctlBits, ctlData_ctlBits]

/-- The kind of a beat and its two bits (R82). -/
theorem beatKind_cases (w : BitVec 18) :
    (beatKindBits w = 0#2 ∧ beatKind w = .data) ∨ (beatKindBits w = 1#2 ∧ beatKind w = .msgEnd) ∨
    (beatKindBits w = 2#2 ∧ beatKind w = .head) ∨ (beatKindBits w = 3#2 ∧ beatKind w = .rsvd) := by
  unfold beatKind
  generalize beatKindBits w = k
  revert k
  decide

/-! ### Encode, then decode -/

theorem encode_isSome (i : Instr) : (encode i).isSome = i.portSelected := by cases i <;> rfl

theorem decode_ctlWord_true (a : BitVec 4) (v : Word) : decode (ctlWord true a v) = decodeWrite a v :=
  decodeCtl_ctlBits true a v

theorem decode_cmdWord (c : BitVec 4) : decode (cmdWord c) = decodeCmd (fieldAt 32 0 c) :=
  decode_ctlWord_true 1#4 (fieldAt 32 0 c)

theorem decode_beatWord_head (n : BitVec 16) : decode (beatWord 2#2 n) = .head n := by
  simp [decode, beatWord, decodeBeat, beatKind]

theorem decode_beatWord_data (b : Byte) : decode (beatWord 0#2 (fieldAt 16 0 b)) = .data b := by
  simp [decode, beatWord, decodeBeat, beatKind]

/-- The round trip from an operation (R81, R82, R90). -/
theorem decode_of_encode {i : Instr} {w : PortWord} (hwf : i.wf = true) (h : encode i = some w) :
    decode w = i := by
  cases i with
  | rd a => cases h; exact decodeCtl_ctlBits false a 0#32
  | wrRo a v => cases h; rw [decode_ctlWord_true, decodeWrite_of_roSlot hwf]
  | wrUnmapped a v => cases h; rw [decode_ctlWord_true, decodeWrite_of_unmappedSlot hwf]
  | wrStatus v | wrIen v | wrCfg v | wrPre v | wrSyncLen v | wrSync0 v | wrSync1 v | wrAmp0 v
  | wrAmp1 v => cases h; exact decode_ctlWord_true _ v
  | commit | stop | abort | srst | msgEnd | rsvd => cases h; decide
  | cmdRsvd c =>
    cases h
    have hc : commandCode c = false := by simpa [Instr.wf] using hwf
    rw [decode_cmdWord, decodeCmd_of_not_commandCode (by rwa [cmdCode_fieldAt]), cmdCode_fieldAt]
  | head n => cases h; exact decode_beatWord_head n
  | data b => cases h; exact decode_beatWord_data b
  | drop | start | emitPre | emitSync | emitPay | drainDone | load | shift | map | pop => cases h

/-- Settles O1: `encode` answers exactly for the port-selected operations, and its word decodes back. -/
theorem encodedOperationDecodesToItself : Obligations.EncodedOperationDecodesToItself := by
  intro i hwf
  have hsome := encode_isSome i
  constructor
  · intro hport
    obtain ⟨w, hw⟩ := Option.isSome_iff_exists.mp (hsome.trans hport)
    exact ⟨w, hw, decode_of_encode hwf hw⟩
  · intro hport
    rwa [hport, Option.isSome_eq_false_iff, Option.isNone_iff_eq_none] at hsome

/-! ### Decode, then encode -/

/-- The operation has operands in the table's ranges, a port word selects it, and `p` is its word. -/
def Instr.EncodesTo (i : Instr) (p : PortWord) : Prop :=
  i.wf = true ∧ i.portSelected = true ∧ encode i = some p

/-- No bit of a write is dropped but a command's (R91 (f)). -/
theorem decodeWrite_encodesTo {a : BitVec 4} (ha : a ≠ 1#4) (v : Word) :
    (decodeWrite a v).EncodesTo (ctlWord true a v) := by
  unfold decodeWrite
  split
  case h_2 h => exact absurd (BitVec.eq_of_toNat_eq h) ha
  case h_14 =>
    have hslot : 13 ≤ a.toNat := by simp only [imp_false] at *; omega
    exact ⟨(unmappedSlot_iff a).mpr hslot, rfl, rfl⟩
  all_goals
    next h =>
      obtain rfl := eq_ofNat_of_toNat_eq h
      exact ⟨rfl, rfl, rfl⟩

/-- A command keeps its code alone (R113). -/
theorem decodeCmd_encodesTo (v : Word) : (decodeCmd v).EncodesTo (cmdWord (cmdCode v)) := by
  rcases decodeCmd_cases v with ⟨hc, hd⟩ | ⟨hc, hd⟩ | ⟨hc, hd⟩ | ⟨hc, hd⟩ | ⟨hc, hd⟩
  case inr.inr.inr.inr =>
    rw [hd]
    exact ⟨by rw [Instr.wf, hc]; rfl, rfl, rfl⟩
  all_goals
    rw [hd, hc]
    exact ⟨rfl, rfl, rfl⟩

theorem decodeCtl_encodesTo (w : BitVec 37) : (decodeCtl w).EncodesTo (.ctl
    (if ctlWe w = false then w &&& 0x1F00000000#37
     else if ctlIndex w = 1#4 then w &&& 0x1F0000000F#37 else w)) := by
  cases hwe : ctlWe w with
  | false =>
    rw [if_pos rfl, and_ctlIndexMask, decodeCtl, hwe]
    exact ⟨rfl, rfl, rfl⟩
  | true =>
    rw [if_neg Bool.noConfusion, decodeCtl, if_pos hwe]
    split
    · next ha =>
      rw [and_ctlCodeMask, hwe, ha]
      exact decodeCmd_encodesTo (ctlData w)
    · next ha =>
      have hw : PortWord.ctl w = ctlWord true (ctlIndex w) (ctlData w) := by
        rw [ctlWord, ← hwe, ctlBits_fields]
      rw [hw]
      exact decodeWrite_encodesTo ha (ctlData w)

theorem decodeBeat_encodesTo (w : BitVec 18) : (decodeBeat w).EncodesTo (.beat
    (match beatKind w with
      | .head => w
      | .data => w &&& 0x300FF#18
      | .msgEnd => w &&& 0x30000#18
      | .rsvd => w &&& 0x30000#18)) := by
  rw [decodeBeat_of_kind]
  rcases beatKind_cases w with ⟨hb, hk⟩ | ⟨hb, hk⟩ | ⟨hb, hk⟩ | ⟨hb, hk⟩ <;> rw [hk]
  · simp only [and_beatByteMask, hb]
    exact ⟨rfl, rfl, rfl⟩
  · simp only [and_beatKindMask, hb]
    exact ⟨rfl, rfl, rfl⟩
  · have hw : PortWord.beat w = beatWord 2#2 (beatLen w) := by rw [beatWord, ← hb, beatBits_fields]
    simp only [hw]
    exact ⟨rfl, rfl, rfl⟩
  · simp only [and_beatKindMask, hb]
    exact ⟨rfl, rfl, rfl⟩

/-- Settles O3: a word is its fields, and the masks keep exactly those its operation carries. -/
theorem decodingDropsOnlyIgnoredBits : Obligations.DecodingDropsOnlyIgnoredBits :=
  ⟨decodeCtl_encodesTo, decodeBeat_encodesTo⟩

/-! ### The rows of the opcode table -/

/-- The mnemonics of the rows that select a word. -/
def matching (rows : List TableRow) (w : Nat) : List String :=
  (rows.filter fun r => r.selects w).map TableRow.mnemonic

theorem matching_append (rows rows' : List TableRow) (w : Nat) :
    matching (rows ++ rows') w = matching rows w ++ matching rows' w := by
  simp only [matching, List.filter_append, List.map_append]

/-- Rows whose masks lie within `m` see no other bit of a word. -/
theorem matching_and {rows : List TableRow} {n : Nat} (m : BitVec n)
    (h : ∀ r ∈ rows, m.toNat &&& r.mask = r.mask) (w : BitVec n) :
    matching rows w.toNat = matching rows (w &&& m).toNat := by
  have hsel : ∀ r ∈ rows, r.selects w.toNat = r.selects (w &&& m).toNat := by
    intro r hr
    rw [TableRow.selects, TableRow.selects, BitVec.toNat_and, Nat.land_assoc, h r hr]
  rw [matching, matching, List.filter_congr hsel]

/-- Of a write outside `CMD` the index alone gives the mnemonic (R101). -/
theorem decodeWrite_mnemonic {a : BitVec 4} (ha : a ≠ 1#4) (v v' : Word) :
    (decodeWrite a v).mnemonic = (decodeWrite a v').mnemonic := by
  unfold decodeWrite
  split
  case h_2 h => exact absurd (BitVec.eq_of_toNat_eq h) ha
  all_goals rfl

/-- Of a write to `CMD` the code alone gives the operation (R113). -/
theorem decodeCmd_congr {v v' : Word} (h : cmdCode v = cmdCode v') : decodeCmd v = decodeCmd v' := by
  rw [decodeCmd, decodeCmd, h]

theorem matching_ctlRegisterRows_fields : ∀ (we : Bool) (a : BitVec 4),
    matching ctlRegisterRows (ctlBits we a 0#32).toNat =
      if we = true ∧ a = 1#4 then [] else [(decodeCtl (ctlBits we a 0#32)).mnemonic] := by decide

/-- Exactly one register row selects a word that is no command (R101). -/
theorem matching_ctlRegisterRows (w : BitVec 37) : matching ctlRegisterRows w.toNat =
    if ctlWe w = true ∧ ctlIndex w = 1#4 then [] else [(decodeCtl w).mnemonic] := by
  rw [matching_and 0x1F00000000#37 (by decide), and_ctlIndexMask, matching_ctlRegisterRows_fields]
  split
  · rfl
  · next hcmd =>
    rw [decodeCtl_ctlBits, decodeCtl]
    cases hwe : ctlWe w with
    | false => rfl
    | true =>
      simp only [if_true, decodeWrite_mnemonic (fun ha => hcmd ⟨hwe, ha⟩) 0#32 (ctlData w)]

theorem matching_ctlCommandRows_code : ∀ c : BitVec 4,
    matching ctlCommandRows (ctlBits true 1#4 (fieldAt 32 0 c)).toNat =
      [(decodeCmd (fieldAt 32 0 c)).mnemonic] := by decide

theorem command_of_ctlBits : ∀ (we : Bool) (a : BitVec 4),
    (ctlBits we a 0#32).toNat = 0x1100000000 → we = true ∧ a = 1#4 := by decide

/-- A command row selects writes to `CMD` only: the row fixes `we` and `a`. -/
theorem command_of_selects {r : TableRow} (hr : r ∈ ctlCommandRows) {w : BitVec 37}
    (h : r.selects w.toNat = true) : ctlWe w = true ∧ ctlIndex w = 1#4 := by
  have hrow : ∀ r ∈ ctlCommandRows,
      r.mask &&& 0x1F00000000 = 0x1F00000000 ∧ r.pat &&& 0x1F00000000 = 0x1100000000 := by decide
  obtain ⟨hmask, hpat⟩ := hrow r hr
  have hw : w.toNat &&& r.mask = r.pat := by simpa [TableRow.selects] using h
  apply command_of_ctlBits
  calc (ctlBits (ctlWe w) (ctlIndex w) 0#32).toNat
      = w.toNat &&& 0x1F00000000 := by rw [← and_ctlIndexMask, BitVec.toNat_and]; rfl
    _ = (w.toNat &&& r.mask) &&& 0x1F00000000 := by rw [Nat.land_assoc, hmask]
    _ = 0x1100000000 := by rw [hw, hpat]

/-- Exactly one command row selects a write to `CMD`, and none any other word (R113, R118). -/
theorem matching_ctlCommandRows (w : BitVec 37) : matching ctlCommandRows w.toNat =
    if ctlWe w = true ∧ ctlIndex w = 1#4 then [(decodeCtl w).mnemonic] else [] := by
  split
  · next hcmd =>
    obtain ⟨hwe, ha⟩ := hcmd
    have hdec : decodeCtl w = decodeCmd (ctlData w) := by rw [decodeCtl, if_pos hwe, ha]; rfl
    rw [matching_and 0x1F0000000F#37 (by decide), and_ctlCodeMask, hwe, ha,
      matching_ctlCommandRows_code, hdec, decodeCmd_congr (cmdCode_fieldAt _)]
  · next hcmd =>
    rw [matching, List.map_eq_nil_iff, List.filter_eq_nil_iff]
    exact fun r hr hsel => hcmd (command_of_selects hr hsel)

theorem matching_beatRows_kind : ∀ k : BitVec 2,
    matching beatRows (beatBits k 0#16).toNat = [(decodeBeat (beatBits k 0#16)).mnemonic] := by decide

/-- The kind alone gives the mnemonic of a beat (R82). -/
theorem decodeBeat_mnemonic {w w' : BitVec 18} (h : beatKindBits w = beatKindBits w') :
    (decodeBeat w).mnemonic = (decodeBeat w').mnemonic := by
  have hk : beatKind w = beatKind w' := by rw [beatKind, beatKind, h]
  rw [decodeBeat, decodeBeat, hk]
  cases beatKind w' <;> rfl

/-- Settles O2: the rows read only the fields that the decoder dispatches on, and on those they part the
words. -/
theorem everyPortWordSelectsExactlyOneRow : Obligations.EveryPortWordSelectsExactlyOneRow := by
  refine ⟨fun w => ?_, fun w => ?_⟩
  · change matching (ctlRegisterRows ++ ctlCommandRows) w.toNat = _
    rw [matching_append, matching_ctlRegisterRows, matching_ctlCommandRows]
    split <;> rfl
  · change matching beatRows w.toNat = _
    rw [matching_and 0x30000#18 (by decide), and_beatKindMask, matching_beatRows_kind,
      decodeBeat_mnemonic (beatKindBits_beatBits _ _)]

/-- Settles O4: each word is closed, so the decoder runs on it. -/
theorem wordsOfTheTestVectorsDecode : Obligations.WordsOfTheTestVectorsDecode := by
  unfold Obligations.WordsOfTheTestVectorsDecode
  decide

end Sys2Proof
end

section
/-! The control registers as a list of slots: a write in UNCONF sets one slot of it (spec/20_memory.md R61,
spec/30_encoding.md R85). -/

namespace Sys2Proof.Machine

open Sys2Proof

/-- What the thirteen mapped slots read, in order (R61). -/
def slots (d : Dev) : List Word :=
  [memRead d 0#4, memRead d 1#4, memRead d 2#4, memRead d 3#4, memRead d 4#4, memRead d 5#4,
   memRead d 6#4, memRead d 7#4, memRead d 8#4, memRead d 9#4, memRead d 10#4, memRead d 11#4,
   memRead d 12#4]

theorem memRead_eq_getD (d : Dev) (a : BitVec 4) : memRead d a = (slots d).getD a.toNat 0#32 := by
  unfold memRead
  split
  case h_14 =>
    have hslot : 13 ≤ a.toNat := by simp only [imp_false] at *; omega
    exact (List.getD_eq_default (slots d) 0#32 hslot).symm
  all_goals
    next h =>
      obtain rfl := eq_ofNat_of_toNat_eq h
      rfl

/-- A device that differs in one slot reads that slot anew and every other as before. -/
theorem memRead_of_slots_set {d e : Dev} {k : BitVec 4} {x : Word} (hk : k.toNat < 13)
    (h : slots e = (slots d).set k.toNat x) :
    memRead e k = x ∧ ∀ a, a ≠ k → memRead e a = memRead d a := by
  constructor
  · rw [memRead_eq_getD, h, List.getD_eq_getElem?_getD, List.getElem?_set_self hk, Option.getD_some]
  · intro a ha
    have hne : k.toNat ≠ a.toNat := fun hka => ha (BitVec.eq_of_toNat_eq hka.symm)
    rw [memRead_eq_getD, memRead_eq_getD, h, List.getD_eq_getElem?_getD, List.getD_eq_getElem?_getD,
      List.getElem?_set_ne hne]

/-! ### What each write in UNCONF makes of the slots (R85, R103 to R110) -/

theorem slots_setIen (d : Dev) (v : Word) :
    slots (d.setIen (flagSlice v)) = (slots d).set 3 (v &&& 0x00003F00#32) := by
  have hmask : 0x00003F00#32 = fieldAt 32 8 (BitVec.allOnes 6) := by decide
  rw [hmask, and_fieldAt_allOnes]
  rfl

theorem slots_writeCfg (d : Dev) (v : Word) :
    slots (d.setConf (d.conf.writeCfg v)) = (slots d).set 4 (v &&& 0x0000033F#32) := by
  have hmask : 0x0000033F#32 = fieldAt 32 9 (BitVec.allOnes 1) ||| fieldAt 32 8 (BitVec.allOnes 1) |||
      fieldAt 32 4 (BitVec.allOnes 2) ||| fieldAt 32 0 (BitVec.allOnes 4) := by decide
  simp only [hmask, BitVec.and_or_distrib_left, and_fieldAt_allOnes, ← ofBool_getLsbD]
  rfl

theorem slots_writePre (d : Dev) (v : Word) :
    slots (d.setConf (d.conf.writePre v)) = (slots d).set 5 (v &&& 0xFFFF00FF#32) := by
  have hmask : 0xFFFF00FF#32 = fieldAt 32 16 (BitVec.allOnes 16) ||| fieldAt 32 0 (BitVec.allOnes 8) := by
    decide
  rw [hmask, BitVec.and_or_distrib_left, and_fieldAt_allOnes, and_fieldAt_allOnes]
  rfl

theorem slots_writeSyncLen (d : Dev) (v : Word) :
    slots (d.setConf (d.conf.writeSyncLen v)) = (slots d).set 6 (v &&& 0x0000000F#32) := by
  have hmask : 0x0000000F#32 = fieldAt 32 0 (BitVec.allOnes 4) := by decide
  rw [hmask, and_fieldAt_allOnes]
  rfl

theorem and_wordMask (v : Word) : v &&& 0xFFFFFFFF#32 = v := BitVec.and_allOnes

/-! ### The read after the write -/

section
variable {s : State} {i : Instr} {d : Dev} {k : BitVec 4} {v m : Word}

theorem readBack_of_slots_set (hx : exec i s = .next (s.setDev d)) (hk : k.toNat < 13)
    (h : slots d = (slots s.dev).set k.toNat (v &&& m)) :
    ∃ t, exec i s = .next t ∧ memRead t.dev k = v &&& m ∧
      ∀ a, a ≠ k → memRead t.dev a = memRead s.dev a :=
  ⟨s.setDev d, hx, memRead_of_slots_set hk h⟩

theorem writeConf_unconf (hlc : s.dev.lc = .unconf) (c : Conf) :
    writeConf s c = .next (s.setDev (s.dev.setConf c)) := by
  rw [writeConf_eq, if_pos hlc]

end

/-- Settles O11: each write sets its own slot, to the value under the mask of its fields. -/
theorem readBackIsTheMaskedWrite : Obligations.ReadBackIsTheMaskedWrite := by
  intro v s hlc
  have hconf := writeConf_unconf hlc
  simp only [List.forall_mem_cons]
  refine ⟨?ien, ?cfg, ?pre, ?syncLen, ?sync0, ?sync1, ?amp0, ?amp1, by simp⟩
  case ien => exact readBack_of_slots_set rfl (by decide) (slots_setIen s.dev v)
  case cfg => exact readBack_of_slots_set (hconf _) (by decide) (slots_writeCfg s.dev v)
  case pre => exact readBack_of_slots_set (hconf _) (by decide) (slots_writePre s.dev v)
  case syncLen => exact readBack_of_slots_set (hconf _) (by decide) (slots_writeSyncLen s.dev v)
  all_goals exact readBack_of_slots_set (hconf _) (by decide) (by rw [and_wordMask]; rfl)

end Sys2Proof.Machine
end

section
/-! The symbol stream (spec/44_smp_ops.md R182): no operation but ABORT, SRST and the END that closes a
record changes it, so a flush delivers what was owed when it began and HOST cuts nothing short but by ABORT
and SRST (spec/40_control_ops.md R115 to R117, spec/70_reset_and_hazards.md R216, R233). -/

namespace Sys2Proof.Machine

open Sys2Proof

/-! ### What is owed under updates of the device -/

/-- With nothing in flight nothing is owed. -/
theorem pending_of_empty {d : Dev} (h : d.empty) : pending d = [] := by
  obtain ⟨hmq, hbch, hoq, hidle, hcnt⟩ := h
  rw [pending_eq, beforeFbc_idle hidle, behindFbc, hmq, hbch, hoq, hcnt]
  rfl

theorem Dev.empty_reset : Dev.reset.empty := ⟨rfl, rfl, rfl, rfl, rfl⟩

theorem abortDev_empty (d : Dev) : (abortDev d).empty := ⟨rfl, rfl, rfl, rfl, rfl⟩

theorem pending_raise (e : Err) (d : Dev) : pending (raise e d) = pending d := by cases e <;> rfl

theorem pending_commitDev (d : Dev) : pending (commitDev d) = pending d := by
  rw [commitDev_update]
  rfl

/-- The records behind the one FBC sends are owed as their good ones, behind everything else. -/
theorem pending_setMq_append {d : Dev} {l : List Msg} (hl : d.fbc.phase ≠ .idle → l ≠ [])
    (q : List Msg) : pending (d.setMq (l ++ q)) = pending (d.setMq l) ++ goodItems d.conf q := by
  have hbefore : beforeFbc (d.setMq (l ++ q)) = beforeFbc (d.setMq l) ++ goodItems d.conf q := by
    by_cases hp : d.fbc.phase = .idle
    · rw [beforeFbc_idle (d := d.setMq (l ++ q)) hp, beforeFbc_idle (d := d.setMq l) hp, Dev.setMq_mq,
        goodItems_append]
      rfl
    · obtain ⟨r, rest, rfl⟩ := List.exists_cons_of_ne_nil (hl hp)
      rw [beforeFbc_busy (d := d.setMq (r :: rest ++ q)) hp rfl,
        beforeFbc_busy (d := d.setMq (r :: rest)) hp rfl, owedOf, List.append_eq, goodItems_append,
        ← List.append_assoc]
      rfl
  rw [pending_eq, pending_eq, hbefore, ← List.append_assoc]
  rfl

/-- A record that is open is not owed. -/
theorem goodItems_of_open (c : Conf) {r : Msg} (hr : r.closed = false) : goodItems c [r] = [] := by
  simp [goodItems_cons, hr]

section
variable {p : Params} {d : Dev}

/-- The open record may go, and be replaced by one that is open too. -/
theorem Dev.Inv.pending_open (h : d.Inv p) {l : List Msg} {r : Msg} (hq : d.mq = l ++ [r])
    (hr : r.closed = false) : pending (d.setMq l) = pending d := by
  have hd : d = d.setMq (l ++ [r]) := by rw [← hq]; rfl
  conv_rhs => rw [hd, pending_setMq_append (h.ne_nil_before_open hq hr), goodItems_of_open _ hr,
    List.append_nil]

/-- The head record DROP removes is a bad one (R151). -/
theorem pending_dropDev (hg : dropEnabled d = true) : pending (dropDev d) = pending d := by
  obtain ⟨-, hidle, r, rest, hq, -, hbad⟩ := (dropEnabled_iff d).mp hg
  have hgood : r.good = false := by rwa [← Bool.not_eq_true, Msg.good_iff]
  rw [dropDev, pending_raise, pending_eq, pending_eq, beforeFbc_idle hidle,
    beforeFbc_idle (d := d.setMq d.mq.tail) hidle, hq, goodItems_cons, hgood, Bool.and_false]
  rfl

/-- The open record STOP removes was not owed (R115). -/
theorem Dev.Inv.pending_stopDev (h : d.Inv p) : pending (stopDev d) = pending d := by
  unfold stopDev
  cases ho : openMsg d.mq with
  | none => rfl
  | some r =>
    obtain ⟨hq, hr⟩ := openMsg_eq_some.mp ho
    exact h.pending_open hq hr

/-- A byte in BRP is owed as it was in BCH: eight symbols. -/
theorem pending_load {x : BItem} {rest : List BItem} (hc : d.brp.cnt = 0#4) (hq : d.bch = x :: rest) :
    pending ((d.setBch rest).setBrp { byte := x.byte, cnt := 8#4, sof := x.sof, tag := x.tag }) =
      pending d := by
  rw [pending_eq, pending_eq, behindFbc, behindFbc, hc, hq, itemSymbols_cons]
  simp only [Dev.setBrp_oq, Dev.setBch_oq, Dev.setBrp_conf, Dev.setBch_conf, Dev.setBrp_brp,
    Dev.setBrp_bch, Dev.setBch_bch, List.append_assoc]
  rfl

/-- The item SHIFT pushes is the first of those owed of the byte in BRP. -/
theorem symbolsFrom_brp (h0 : d.brp.cnt ≠ 0#4) :
    symbolsFrom d.conf d.brp.byte d.brp.cnt.toNat d.brp.sof d.brp.tag =
      shiftItem d (8 - d.brp.cnt.toNat) ::
        symbolsFrom d.conf d.brp.byte (decCnt d.brp.cnt).toNat false d.brp.tag := by
  obtain ⟨k, hk⟩ := Nat.exists_eq_add_of_le' (toNat_pos_iff_ne_zero.mpr h0)
  have hindex : 8 - (k + 1) = 7 - k := Nat.add_sub_add_right 7 1 k
  rw [decCnt_toNat, hk, Nat.add_sub_cancel, symbolsFrom, shiftItem, hindex]

theorem pending_shift (h0 : d.brp.cnt ≠ 0#4) :
    pending ((d.setOq (d.oq ++ [shiftItem d (8 - d.brp.cnt.toNat)])).setBrp
      { d.brp with sof := false, cnt := decCnt d.brp.cnt }) = pending d := by
  rw [pending_eq, pending_eq, behindFbc, behindFbc, symbolsFrom_brp h0]
  simp only [Dev.setBrp_oq, Dev.setOq_oq, Dev.setBrp_conf, Dev.setOq_conf, Dev.setBrp_brp,
    Dev.setBrp_bch, Dev.setOq_bch, List.append_assoc, List.cons_append]
  rfl

/-- The oldest item of OQ is the first owed. -/
theorem pending_of_oq_cons {x : SItem} {rest : List SItem} (hq : d.oq = x :: rest) :
    pending d = x :: pending (d.setOq rest) := by
  rw [pending, hq]
  rfl

end

/-! ### The stream under each operation -/

section
variable {i : Instr} {s t : State}

theorem stream_setDev {d : Dev} (h : pending d = pending s.dev) : (s.setDev d).stream = s.stream := by
  rw [State.stream, State.stream, State.setDev_dev, h]
  rfl

theorem stream_of_empty (h : s.dev.empty) : s.stream = s.env.delivered := by
  rw [State.stream, pending_of_empty h, List.append_nil]

/-- Only ABORT and SRST take from the stream, and only an END may add to it. -/
theorem exec_keeps_stream (h : s.Inv) (hx : exec i s = .next t) (habort : i ≠ .abort)
    (hsrst : i ≠ .srst) (hend : i ≠ .msgEnd) : t.stream = s.stream := by
  by_cases hi : i = .start ∨ i = .emitPre ∨ i = .emitSync ∨ i = .emitPay
  · rw [State.stream, State.stream, exec_emission_pending h hi hx, exec_emission_env hi hx]
  cases exec_effect hx with
  | refuse | discard | misaligned => exact stream_setDev (pending_raise _ _)
  | setConf c _ hlc =>
    have hempty : s.dev.empty := Dev.Inv.still_empty h (.inl hlc)
    rw [stream_of_empty hempty, stream_of_empty (s := s.setDev (s.dev.setConf c)) hempty]
    rfl
  | commit => exact stream_setDev (pending_commitDev _)
  | stop => exact stream_setDev (Dev.Inv.pending_stopDev h)
  | openRecord n hlc ho =>
    have hl : s.dev.fbc.phase ≠ .idle → s.dev.mq ≠ [] := fun hp hnil => by
      obtain ⟨x, rest, hx, -⟩ := Dev.Inv.head_good h hp
      simp [hnil] at hx
    refine stream_setDev ?_
    rw [pending_setMq_append hl, goodItems_of_open _ rfl, List.append_nil]
    rfl
  | countByte b r hlc ho =>
    obtain ⟨hq, hr⟩ := openMsg_eq_some.mp ho
    refine stream_setDev ?_
    have hr' : (r.addByte b).closed = false := hr
    rw [setLast, pending_setMq_append (Dev.Inv.ne_nil_before_open h hq hr), goodItems_of_open _ hr',
      List.append_nil, Dev.Inv.pending_open h hq hr]
  | drop hg => exact stream_setDev (pending_dropDev hg)
  | load x rest hc hq => exact stream_setDev (pending_load hc hq)
  | shift h0 => exact stream_setDev (pending_shift h0)
  | pop x rest hq =>
    rw [State.stream, State.stream, pending_of_oq_cons hq, State.deliver_delivered, List.append_assoc]
    rfl
  | abort => exact absurd rfl habort
  | srst => exact absurd rfl hsrst
  | closeRecord => exact absurd rfl hend
  | emission hmem => exact absurd hmem hi
  | same | read | map | acknowledge | setIen | drainDone => rfl

/-- ABORT is refused, or leaves what was delivered and halts (R116). -/
theorem exec_abort_stream (hx : exec .abort s = .next t) : t.stream = s.stream ∨
    (t.stream = s.env.delivered ∧ t.dev.lc = .halt ∧ (s.dev.lc = .run ∨ s.dev.lc = .drain)) := by
  change (if s.dev.moving then toDev s (abortDev s.dev) else refuseAccess s) = .next t at hx
  split at hx
  · next hm =>
    cases hx
    exact .inr ⟨stream_of_empty (abortDev_empty s.dev), rfl, s.dev.moving_iff.mp hm⟩
  · cases hx
    exact .inl (stream_setDev (pending_raise _ _))

/-! ### The steps of the internal agents -/

/-- FBC, BRP and CONSUMER perform no operation of a port word (R96). -/
theorem portSelected_of_internal {x : Turn} {u : State} (hint : x.internal = true)
    (hf : fetch x s = .run i u) : i.portSelected = false := by
  rcases fetch_run_cases hf with ⟨rfl, -⟩ | ⟨rfl, -⟩ | ⟨-, ho, -⟩ | ⟨-, ho, -⟩ | ⟨-, ho, -⟩
  · cases hint
  · cases hint
  · rcases fbcOp_cases ho with ⟨rfl, -⟩ | ⟨rfl, -⟩ | ⟨rfl, -⟩ | ⟨rfl, -⟩ | ⟨rfl, -⟩ | ⟨rfl, -⟩ <;> rfl
  · rcases brpOp_cases ho with ⟨rfl, -⟩ | ⟨rfl, -⟩ <;> rfl
  · obtain ⟨rfl, -⟩ := consumerOp_eq_some.mp ho
    rfl

theorem stream_of_fetch_run {x : Turn} {u : State} (hf : fetch x s = .run i u) :
    u.stream = s.stream := by
  obtain ⟨hdev, hdel⟩ := fetch_run_dev hf
  rw [State.stream, State.stream, hdev, hdel]

/-- An internal step moves the stream along and leaves it whole (R182). -/
theorem internal_step_keeps_stream (h : s.Inv) (hint : s.nextTurn.internal = true)
    (hx : step s = .next t) : t.stream = s.stream := by
  rcases step_cases hx with ⟨-, rfl⟩ | ⟨hrst, -⟩ | ⟨i, u, hf, hx⟩
  · rfl
  · rw [hrst] at hint; cases hint
  · have hport := portSelected_of_internal hint hf
    have hne {j : Instr} (hj : j.portSelected = true) : i ≠ j := by
      rintro rfl; rw [hj] at hport; cases hport
    exact (exec_keeps_stream (fetch_run_inv (s := s.takeTurn) h hf) hx (hne rfl) (hne rfl)
      (hne rfl)).trans (stream_of_fetch_run (s := s.takeTurn) hf)

/-! ### The steps of HOST -/

/-- No word at the control port is an END. -/
theorem decodeCtl_ne_msgEnd (w : BitVec 37) : decodeCtl w ≠ .msgEnd := by
  obtain ⟨-, -, henc⟩ := decodeCtl_encodesTo w
  intro h
  rw [h] at henc
  cases henc

/-- HOST's operation keeps the stream, or is the ABORT or SRST that cuts it (R116, R117). -/
theorem host_exec_stream (h : s.Inv) (hend : i ≠ .msgEnd) (hx : exec i s = .next t) :
    t.stream = s.stream ∨ (t.stream = s.env.delivered ∧
      (t.dev = State.reset.dev ∨ (t.dev.lc = .halt ∧ (s.dev.lc = .run ∨ s.dev.lc = .drain)))) := by
  by_cases habort : i = .abort
  · subst habort
    exact (exec_abort_stream hx).imp_right fun ⟨hs, hlc⟩ => ⟨hs, .inr hlc⟩
  · by_cases hsrst : i = .srst
    · subst hsrst
      cases hx
      exact .inr ⟨stream_of_empty (s := resetDev s) Dev.empty_reset, .inl rfl⟩
    · exact .inl (exec_keeps_stream h hx habort hsrst hend)

end

/-! ### The obligations -/

/-- Settles O55: the internal turns keep the invariant and the stream, and in HALT the invariant leaves
nothing of the stream to be owed. -/
theorem flushDeliversEverythingOwed : Obligations.FlushDeliversEverythingOwed := by
  intro s t n h _ hn hint hrun hhalt
  obtain ⟨ht, hstream⟩ : t.Inv ∧ t.stream = s.stream :=
    run_schedule_induction (C := fun x => x.internal = true) (P := fun u => u.Inv ∧ u.stream = s.stream)
      (fun u v ⟨hu, hs⟩ hx hv => ⟨step_keeps_inv hu hv, (internal_step_keeps_stream hu hx hv).trans hs⟩)
      n s t ⟨h, rfl⟩ hn hint hrun
  rw [← hstream, stream_of_empty (Dev.Inv.still_empty ht (.inr hhalt))]

/-- Settles O52: HOST's turn is a wait, or an operation that is no END; the reset pin leaves an empty
device. -/
theorem onlyAbortAndResetCutTheStream : Obligations.OnlyAbortAndResetCutTheStream := by
  intro s t h hturn hx
  rcases step_cases hx with ⟨-, rfl⟩ | ⟨-, rfl⟩ | ⟨i, u, hf, hx⟩
  · exact .inl rfl
  · exact .inr ⟨stream_of_empty (s := resetDev s.takeTurn) Dev.empty_reset, .inl rfl⟩
  · have hend : i ≠ .msgEnd := by
      rcases fetch_run_cases hf with ⟨-, w, ws, -, rfl, -⟩ | ⟨hp, -⟩ | ⟨hp, -⟩ | ⟨hp, -⟩ | ⟨hp, -⟩
      · exact decodeCtl_ne_msgEnd w
      all_goals rw [hp] at hturn; simp at hturn
    obtain ⟨hdev, hdel⟩ := fetch_run_dev hf
    have hcut := host_exec_stream (fetch_run_inv (s := s.takeTurn) h hf) hend hx
    rwa [stream_of_fetch_run hf, hdev, hdel] at hcut

end Sys2Proof.Machine
end

section
/-! What each operation at the control port does, field by field (spec/40_control_ops.md). -/

namespace Sys2Proof.Machine

open Sys2Proof

/-! ### A refusal, and an operation under a lifecycle condition (R119, R206) -/

/-- A refusal, field by field. -/
theorem refuseAccess_fields (s : State) : refuseAccess s =
    .next { s with dev := { s.dev with flags := { s.dev.flags with accErr := true } } } := rfl

/-- Where its lifecycle condition fails a command or a write is refused. -/
theorem refused_of_not {s : State} {g : Prop} [Decidable g] {o : Res} (hg : ¬ g) :
    (if g then o else refuseAccess s) =
      .next { s with dev := { s.dev with flags := { s.dev.flags with accErr := true } } } := by
  rw [if_neg hg, refuseAccess_fields]

/-! ### Reads (R85, R100) -/

theorem Flags.bits_toNat (f : Flags) : f.bits.toNat =
    f.cfgErr.toNat + 2 * f.unsupErr.toNat + 2 ^ 2 * f.framingErr.toNat + 2 ^ 3 * f.alignErr.toNat +
      2 ^ 4 * f.protoErr.toNat + 2 ^ 5 * f.accErr.toNat := by
  obtain ⟨a, b, c, d, e, g⟩ := f
  revert a b c d e g
  decide

theorem Dev.emitting_toNat (d : Dev) : d.emitting.toNat = if d.fbc.phase = .idle then 0 else 1 := by
  unfold Dev.emitting
  cases d.fbc.phase <;> rfl

/-- Two fields, the lower below the upper. -/
theorem toNat_two_fields {w lo m n : Nat} (x : BitVec m) (y : BitVec n) (hw : lo + m ≤ w) (hn : n ≤ lo) :
    (fieldAt w lo x ||| fieldAt w 0 y).toNat = y.toNat + 2 ^ lo * x.toNat := by
  have hy : (fieldAt w 0 y).toNat = y.toNat := by
    rw [toNat_fieldAt y (by omega), Nat.pow_zero, Nat.mul_one]
  have hlt : y.toNat < 2 ^ lo := Nat.lt_of_lt_of_le y.isLt (Nat.pow_le_pow_right (by decide) hn)
  rw [toNat_fieldAt_or x _ hw (by rwa [hy]), hy, Nat.add_comm, Nat.mul_comm]

theorem memRead_status_toNat (d : Dev) : (memRead d 2#4).toNat =
    d.lc.code.toNat + (if d.fbc.phase = .idle then 0 else 2 ^ 2) +
      2 ^ 8 * d.flags.cfgErr.toNat + 2 ^ 9 * d.flags.unsupErr.toNat +
      2 ^ 10 * d.flags.framingErr.toNat + 2 ^ 11 * d.flags.alignErr.toNat +
      2 ^ 12 * d.flags.protoErr.toNat + 2 ^ 13 * d.flags.accErr.toNat := by
  have hcode := d.lc.code.isLt
  have hlow := toNat_two_fields (w := 32) (lo := 2) (BitVec.ofBool d.emitting) d.lc.code
    (by decide) (by decide)
  rw [BitVec.toNat_ofBool, Dev.emitting_toNat] at hlow
  have hlt : (fieldAt 32 2 (BitVec.ofBool d.emitting) ||| fieldAt 32 0 d.lc.code).toNat < 2 ^ 8 := by
    rw [hlow]; split <;> omega
  change (fieldAt 32 8 d.flags.bits ||| fieldAt 32 2 (BitVec.ofBool d.emitting) |||
    fieldAt 32 0 d.lc.code).toNat = _
  rw [BitVec.or_assoc, toNat_fieldAt_or _ _ (by decide) hlt, hlow, Flags.bits_toNat]
  split <;> omega

theorem memRead_ien_toNat (d : Dev) : (memRead d 3#4).toNat = 2 ^ 8 * d.ien.toNat :=
  (toNat_fieldAt d.ien (by decide)).trans (Nat.mul_comm _ _)

theorem memRead_cfg_toNat (d : Dev) : (memRead d 4#4).toNat =
    d.conf.mode.toNat + 2 ^ 4 * d.conf.scr.toNat + 2 ^ 8 * d.conf.bitord.toNat +
      2 ^ 9 * d.conf.verbose.toNat := by
  have hmode := d.conf.mode.isLt
  have hscr := d.conf.scr.isLt
  have hlow := toNat_two_fields (w := 32) (lo := 4) d.conf.scr d.conf.mode (by decide) (by decide)
  have hmid : (fieldAt 32 8 (BitVec.ofBool d.conf.bitord) |||
      (fieldAt 32 4 d.conf.scr ||| fieldAt 32 0 d.conf.mode)).toNat =
      d.conf.bitord.toNat * 2 ^ 8 + (d.conf.mode.toNat + 2 ^ 4 * d.conf.scr.toNat) := by
    rw [toNat_fieldAt_or _ _ (by decide) (by rw [hlow]; omega), hlow, BitVec.toNat_ofBool]
  have hbit := Bool.toNat_le d.conf.bitord
  change (fieldAt 32 9 (BitVec.ofBool d.conf.verbose) ||| fieldAt 32 8 (BitVec.ofBool d.conf.bitord) |||
    fieldAt 32 4 d.conf.scr ||| fieldAt 32 0 d.conf.mode).toNat = _
  rw [BitVec.or_assoc, BitVec.or_assoc, toNat_fieldAt_or _ _ (by decide) (by rw [hmid]; omega), hmid,
    BitVec.toNat_ofBool]
  omega

theorem memRead_pre_toNat (d : Dev) : (memRead d 5#4).toNat =
    d.conf.preByte.toNat + 2 ^ 16 * d.conf.preCount.toNat :=
  toNat_two_fields d.conf.preCount d.conf.preByte (by decide) (by decide)

theorem memRead_syncLen_toNat (d : Dev) : (memRead d 6#4).toNat = d.conf.syncLen.toNat :=
  (toNat_fieldAt d.conf.syncLen (by decide)).trans (Nat.mul_one _)

/-- The unmapped slots read 0 (R61). -/
theorem memRead_unmapped (d : Dev) {a : BitVec 4} (ha : 13 ≤ a.toNat) : memRead d a = 0#32 := by
  rw [memRead_eq_getD]
  exact List.getD_eq_default (slots d) 0#32 ha

/-! ### Register writes (R102 to R110) -/

theorem Flags.clear_flagSlice (f : Flags) (v : Word) : f.clear (flagSlice v) =
    { cfgErr := f.cfgErr && !v.getLsbD 8
      unsupErr := f.unsupErr && !v.getLsbD 9
      framingErr := f.framingErr && !v.getLsbD 10
      alignErr := f.alignErr && !v.getLsbD 11
      protoErr := f.protoErr && !v.getLsbD 12
      accErr := f.accErr && !v.getLsbD 13 } := by
  simp [Flags.clear, flagSlice]

/-- A slice of a word, by division. -/
theorem extractLsb'_eq_ofNat_div {w : Nat} (v : BitVec w) (lo n : Nat) :
    v.extractLsb' lo n = BitVec.ofNat n (v.toNat / 2 ^ lo) := by
  rw [← Nat.shiftRight_eq_div_pow]
  rfl

theorem getLsbD_eq_decide_div {w : Nat} (v : BitVec w) (k : Nat) :
    v.getLsbD k = decide (v.toNat / 2 ^ k % 2 = 1) :=
  Nat.testBit_eq_decide_div_mod_eq

theorem flagSlice_toNat (v : Word) : (flagSlice v).toNat = v.toNat / 2 ^ 8 % 2 ^ 6 := by
  rw [flagSlice, extractLsb'_eq_ofNat_div, BitVec.toNat_ofNat]

theorem Conf.writeCfg_eq (c : Conf) (v : Word) : c.writeCfg v =
    { c with
      mode := BitVec.ofNat 4 v.toNat, scr := BitVec.ofNat 2 (v.toNat / 2 ^ 4)
      bitord := decide (v.toNat / 2 ^ 8 % 2 = 1), verbose := decide (v.toNat / 2 ^ 9 % 2 = 1) } := by
  rw [Conf.writeCfg, extractLsb'_eq_ofNat_div, extractLsb'_eq_ofNat_div, getLsbD_eq_decide_div,
    getLsbD_eq_decide_div, Nat.pow_zero, Nat.div_one]

theorem Conf.writePre_eq (c : Conf) (v : Word) : c.writePre v =
    { c with preByte := BitVec.ofNat 8 v.toNat, preCount := BitVec.ofNat 16 (v.toNat / 2 ^ 16) } := by
  rw [Conf.writePre, extractLsb'_eq_ofNat_div, extractLsb'_eq_ofNat_div, Nat.pow_zero, Nat.div_one]

theorem Conf.writeSyncLen_eq (c : Conf) (v : Word) : c.writeSyncLen v =
    { c with syncLen := BitVec.ofNat 4 v.toNat } := by
  rw [Conf.writeSyncLen, extractLsb'_eq_ofNat_div, Nat.pow_zero, Nat.div_one]

/-! ### Commands (R113 to R116) -/

theorem Flags.eq_of_has {f g : Flags} (h : ∀ x, f.has x = g.has x) : f = g := by
  obtain ⟨a, b, c, d, e, k⟩ := f
  obtain ⟨a', b', c', d', e', k'⟩ := g
  rw [Flags.mk.injEq]
  exact ⟨h .configuration, h .unsupportedMode, h .framing, h .alignment, h .protocol, h .access⟩

theorem commitDev_lc (d : Dev) : (commitDev d).lc = if d.conf.legal then .run else d.lc := by
  have hchecks : (commitChecks d).lc = d.lc := by
    unfold commitChecks raiseIf
    split <;> split <;> rfl
  rw [commitDev_eq]
  split
  · rfl
  · exact hchecks

theorem commitDev_flags (d : Dev) : (commitDev d).flags =
    { d.flags with
      cfgErr := d.flags.cfgErr || decide ((d.conf.mode ≠ 1#4 ∧ d.conf.mode ≠ 2#4) ∨
        2 ≤ d.conf.scr.toNat ∨ 8 < d.conf.syncLen.toNat)
      unsupErr := d.flags.unsupErr || decide (d.conf.mode = 2#4) } := by
  refine Flags.eq_of_has fun x => ?_
  rw [commitDev_has]
  cases x with
  | configuration => simp [Flags.has, ← Conf.faulty_iff]
  | unsupportedMode => simp [Flags.has, Conf.modeRs, beq_eq_decide]
  | framing | alignment | protocol | access => simp [Flags.has]

theorem stopDev_of_open {d : Dev} {q : List Msg} {r : Msg} (hq : d.mq = q ++ [r])
    (hr : r.closed = false) : stopDev d = (d.setMq q).setLc .drain := by
  have ho : openMsg d.mq = some r := by rw [hq, openMsg_append, hr]; rfl
  simp only [stopDev, ho]
  rw [hq, List.dropLast_concat]

theorem stopDev_of_none_open {d : Dev} (h : ∀ q r, d.mq = q ++ [r] → r.closed = true) :
    stopDev d = d.setLc .drain := by
  simp only [stopDev, openMsg_eq_none.mpr h]
  rfl

/-- Outside RUN and DRAIN nothing moves. -/
theorem Dev.not_moving {d : Dev} (h : d.lc = .unconf ∨ d.lc = .halt) : ¬ d.moving = true := by
  rw [d.moving_iff]
  exact fun hm => Dev.not_still hm h

/-- A write to slot 1 is a command (R101, R113). -/
theorem decodeCtl_of_cmd {w : BitVec 37} (hw : w.toNat / 2 ^ 32 = 0x11) :
    decodeCtl w = decodeCmd (ctlData w) := by
  have hwe : ctlWe w = true := by
    rw [ctlWe, getLsbD_eq_decide_div, decide_eq_true_eq]
    omega
  have ha : ctlIndex w = 1#4 := by
    rw [ctlIndex, extractLsb'_eq_ofNat_div, hw]
    rfl
  rw [decodeCtl, if_pos hwe, ha]
  rfl

theorem cmdCode_eq_ofNat (w : BitVec 37) : cmdCode (ctlData w) = BitVec.ofNat 4 (w.toNat % 16) := by
  rw [cmdCode_ctlData, extractLsb'_eq_ofNat_div, Nat.pow_zero, Nat.div_one]
  exact BitVec.eq_of_toNat_eq (by simp)

/-! ### The obligations -/

/-- Settles O8: the value read is `memRead`, slot by slot. -/
theorem readReturnsTheSlot : Obligations.ReadReturnsTheSlot := by
  intro a s
  refine ⟨memRead s.dev a, rfl, ?id, ?cmd, ?status, ?ien, ?cfg, ?pre, ?syncLen, ?sync0, ?sync1, ?amp0,
    ?amp1, ?ferrcnt, ?framecnt, memRead_unmapped s.dev⟩
  case status =>
    rintro rfl
    rw [memRead_status_toNat]
    cases s.dev.lc <;> rfl
  case ien => rintro rfl; exact memRead_ien_toNat s.dev
  case cfg => rintro rfl; exact memRead_cfg_toNat s.dev
  case pre => rintro rfl; exact memRead_pre_toNat s.dev
  case syncLen => rintro rfl; exact memRead_syncLen_toNat s.dev
  all_goals rintro rfl; rfl

/-- Settles O9: each write sets one field of the device. -/
theorem statusAndIenWritesTouchNothingElse : Obligations.StatusAndIenWritesTouchNothingElse := by
  refine ⟨fun v s => ?_, fun v s => ⟨flagSlice v, rfl, flagSlice_toNat v⟩⟩
  rw [← Flags.clear_flagSlice]
  rfl

/-- Settles O10: a write in UNCONF stores the fields of its register; the lock refuses it elsewhere. -/
theorem configurationWriteStoresItsFieldsUnlessLocked :
    Obligations.ConfigurationWriteStoresItsFieldsUnlessLocked := by
  intro v s
  constructor
  · intro hlc
    have hconf := writeConf_unconf hlc
    rw [← Conf.writeCfg_eq, ← Conf.writePre_eq, ← Conf.writeSyncLen_eq]
    exact ⟨hconf _, hconf _, hconf _, hconf _, hconf _, hconf _, hconf _⟩
  · intro hlc
    simp only [List.forall_mem_cons]
    exact ⟨refused_of_not hlc, refused_of_not hlc, refused_of_not hlc, refused_of_not hlc,
      refused_of_not hlc, refused_of_not hlc, refused_of_not hlc, by simp⟩

/-- Settles O12: each of the three is a refusal. -/
theorem refusedWriteSetsAccErrAlone : Obligations.RefusedWriteSetsAccErrAlone := by
  intro a code v s
  simp only [List.forall_mem_cons]
  exact ⟨refuseAccess_fields s, refuseAccess_fields s, refuseAccess_fields s, by simp⟩

/-- Settles O13: COMMIT writes the flags of the checks that fail, and `LC` when none does. -/
theorem commitChecksTheConfiguration : Obligations.CommitChecksTheConfiguration := by
  intro s
  refine ⟨fun hlc => ?_, fun hlc => refused_of_not hlc⟩
  have hx : exec .commit s = .next (s.setDev (commitDev s.dev)) := if_pos hlc
  rw [hx, commitDev_update, commitDev_flags, commitDev_lc, hlc]
  simp only [Conf.legal_iff]
  rfl

/-- Settles O14: STOP in RUN is `stopDev`, with a record open or with none. -/
theorem stopBeginsTheFlush : Obligations.StopBeginsTheFlush := by
  intro s
  have hx (hlc : s.dev.lc = .run) : exec .stop s = .next (s.setDev (stopDev s.dev)) := if_pos hlc
  refine ⟨fun q r hlc hq hr => ?_, fun hlc hclosed => ?_, fun hlc => refused_of_not hlc⟩
  · rw [hx hlc, stopDev_of_open hq hr]
    rfl
  · rw [hx hlc, stopDev_of_none_open hclosed]
    rfl

/-- Settles O15: ABORT in RUN or DRAIN is `abortDev`. -/
theorem abortEmptiesThePipeline : Obligations.AbortEmptiesThePipeline := fun s =>
  ⟨fun hm => if_pos (s.dev.moving_iff.mpr hm), fun hstill => refused_of_not (Dev.not_moving hstill)⟩

/-- Settles O16: SRST and the reset pin both put the device at `Dev.reset`. -/
theorem bothResetsRestoreEveryRegister : Obligations.BothResetsRestoreEveryRegister := by
  refine ⟨fun s => rfl, fun s hrst => ?_⟩
  have hstep : step s = .next (resetDev s.takeTurn) := by rw [step, hrst]; rfl
  exact ⟨resetDev s.takeTurn, resetDev s, hstep, rfl, rfl, rfl, rfl⟩

/-- Settles O17: `decodeCtl` reads the code alone; a command whose condition fails is refused. -/
theorem commandWritePerformsItsCode : Obligations.CommandWritePerformsItsCode := by
  constructor
  · intro w hw
    have hlt : w.toNat % 16 < 16 := Nat.mod_lt _ (by decide)
    rw [decodeCtl_of_cmd hw, decodeCmd, cmdCode_eq_ofNat]
    generalize w.toNat % 16 = n at hlt ⊢
    interval_cases n <;> rfl
  · rintro s i (⟨rfl, hlc⟩ | ⟨rfl, hlc⟩ | ⟨rfl, hrun, hdrain⟩)
    · exact refused_of_not hlc
    · exact refused_of_not hlc
    · exact refused_of_not fun hm => (s.dev.moving_iff.mp hm).elim hrun hdrain

end Sys2Proof.Machine
end

section
/-! What each beat at the ingress does, field by field, and what its arrival adds to the symbol stream
(spec/41_ingress_ops.md R130 to R136). -/

namespace Sys2Proof.Machine

open Sys2Proof

/-! ### The newest record, by its place (R130) -/

theorem openMsg_eq_some_iff_exists {q : List Msg} {r : Msg} :
    openMsg q = some r ↔ ∃ l, q = l ++ [r] ∧ r.closed = false := by
  constructor
  · exact fun ho => ⟨q.dropLast, openMsg_eq_some.mp ho⟩
  · rintro ⟨l, rfl, hr⟩
    rw [openMsg_append, hr]
    rfl

theorem openMsg_of_last {q l : List Msg} {r : Msg} (hq : q = l ++ [r]) (hr : r.closed = false) :
    openMsg q = some r :=
  openMsg_eq_some_iff_exists.mpr ⟨l, hq, hr⟩

theorem openMsg_isSome_iff {q : List Msg} :
    (openMsg q).isSome = true ↔ ∃ l r, q = l ++ [r] ∧ r.closed = false := by
  rw [Option.isSome_iff_exists, exists_comm]
  simp only [openMsg_eq_some_iff_exists]

theorem forall_openMsg_iff {q : List Msg} {P : Msg → Prop} :
    (∀ r, openMsg q = some r → P r) ↔ ∀ l r, q = l ++ [r] → r.closed = false → P r := by
  rw [forall_comm]
  simp only [openMsg_eq_some_iff_exists, forall_exists_index, and_imp]

/-! ### `in_ready` of each kind of beat (R130) -/

section
variable {p : Params} {d : Dev}

/-- A beat is accepted in RUN alone, under the condition of its kind. -/
theorem inReady_iff_of_run {k : BeatKind} {c : Prop} (h : d.lc = .run → (inReady p d k = true ↔ c)) :
    inReady p d k = true ↔ d.lc = .run ∧ c :=
  ⟨fun hr => ⟨run_of_inReady hr, (h (run_of_inReady hr)).mp hr⟩, fun ⟨hlc, hc⟩ => (h hlc).mpr hc⟩

theorem inReady_head_iff : inReady p d .head = true ↔ d.lc = .run ∧
    ((∃ q r, d.mq = q ++ [r] ∧ r.closed = false) ∨ d.mq.length < p.qmsgs) :=
  inReady_iff_of_run fun hlc => by
    rw [inReady_head p hlc, Bool.or_eq_true, openMsg_isSome_iff, decide_eq_true_eq]

theorem inReady_data_iff : inReady p d .data = true ↔ d.lc = .run ∧
    ∀ q r, d.mq = q ++ [r] → r.closed = false → r.cnt.toNat < r.decl.toNat →
      usedBytes d.mq < p.qbytes :=
  inReady_iff_of_run fun hlc => by
    rw [← forall_openMsg_iff (P := fun r => r.cnt.toNat < r.decl.toNat → usedBytes d.mq < p.qbytes)]
    cases ho : openMsg d.mq with
    | none => simp [inReady_data_none p hlc ho]
    | some r =>
      rw [inReady_data_open p hlc ho]
      simp only [Option.some.injEq, forall_eq']
      split
      · next hlt => simp [hlt]
      · next hge => simp [hge]

theorem inReady_msgEnd_iff : inReady p d .msgEnd = true ↔ d.lc = .run :=
  ⟨run_of_inReady, inReady_msgEnd p⟩

theorem inReady_rsvd_iff : inReady p d .rsvd = true ↔ d.lc = .run :=
  ⟨run_of_inReady, inReady_rsvd p⟩

end

/-! ### An accepted beat, with a record open and with none (R131 to R133) -/

section
variable {d : Dev} {q : List Msg} {r : Msg}

theorem headDev_of_open (hq : d.mq = q ++ [r]) (hr : r.closed = false) (n : BitVec 16) :
    headDev n d = raise .protocol d := by
  simp only [headDev, openMsg_of_last hq hr]

theorem headDev_of_none_open (h : openMsg d.mq = none) (n : BitVec 16) :
    headDev n d = d.setMq (d.mq ++ [Msg.fresh n]) := by
  simp only [headDev, h]

theorem dataDev_of_open (hq : d.mq = q ++ [r]) (hr : r.closed = false) (b : Byte) :
    dataDev b d = d.setMq (q ++ [r.addByte b]) := by
  simp only [dataDev, openMsg_of_last hq hr]
  rw [hq, setLast_append]

theorem dataDev_of_none_open (h : openMsg d.mq = none) (b : Byte) :
    dataDev b d = raise .protocol d := by
  simp only [dataDev, h]

theorem endDev_of_open (hq : d.mq = q ++ [r]) (hr : r.closed = false) :
    endDev d = d.setMq (q ++ [{ r with closed := true }]) := by
  simp only [endDev, openMsg_of_last hq hr]
  rw [hq, setLast_append]

theorem endDev_of_none_open (h : openMsg d.mq = none) : endDev d = raise .protocol d := by
  simp only [endDev, h]

end

/-- Below the declared length the byte is stored, and the count does not saturate: a length is at most
65535. -/
theorem Msg.addByte_of_lt {r : Msg} (h : r.cnt.toNat < r.decl.toNat) (b : Byte) : r.addByte b =
    { r with data := r.data ++ [b], cnt := BitVec.ofNat 17 (r.cnt.toNat + 1) } := by
  have hmin : min (r.cnt.toNat + 1) Config.cntMax = r.cnt.toNat + 1 := by
    have := r.decl.isLt
    rw [Config.cntMax]
    omega
  rw [Msg.addByte, if_pos h, satIncCnt, hmin]

/-- From the declared length on the byte is counted alone. -/
theorem Msg.addByte_of_le {r : Msg} (h : r.decl.toNat ≤ r.cnt.toNat) (b : Byte) : r.addByte b =
    { r with cnt := BitVec.ofNat 17 (min (r.cnt.toNat + 1) 65536) } := by
  rw [Msg.addByte, if_neg (Nat.not_lt.mpr h)]
  rfl

/-! ### The operation of a beat -/

section
variable {s : State}

theorem exec_head_accepted (h : inReady s.env.params s.dev .head = true) (n : BitVec 16) :
    exec (.head n) s = .next (s.setDev (headDev n s.dev)) := if_pos h

theorem exec_data_accepted (h : inReady s.env.params s.dev .data = true) (b : Byte) :
    exec (.data b) s = .next (s.setDev (dataDev b s.dev)) := if_pos h

theorem exec_msgEnd_of_run (h : s.dev.lc = .run) :
    exec .msgEnd s = .next (s.setDev (endDev s.dev)) := if_pos (inReady_msgEnd _ h)

theorem exec_rsvd_of_run (h : s.dev.lc = .run) :
    exec .rsvd s = .next (s.setDev (raise .protocol s.dev)) := if_pos (inReady_rsvd _ h)

/-- A beat that is not accepted changes nothing (log 4). -/
theorem exec_decodeBeat_held {w : BitVec 18}
    (h : inReady s.env.params s.dev (beatKind w) = false) : exec (decodeBeat w) s = .next s := by
  rw [decodeBeat_of_kind]
  cases hk : beatKind w <;> exact if_neg (by rw [← hk, h]; decide)

/-- A turn of PRODUCER with no beat accepted leaves the beats it still has to send. -/
theorem producer_step_held (ht : s.nextTurn = .producer)
    (h : ∀ w ws, s.env.beatQ = w :: ws → inReady s.env.params s.dev (beatKind w) = false) :
    step s = .next s.takeTurn := by
  refine step_of_fetch_wait ht ?_
  cases hq : s.env.beatQ with
  | nil => exact fetch_producer_nil hq
  | cons w ws => exact fetch_producer_held hq (h w ws hq)

end

/-! ### What FBC sees of the ingress (R133) -/

/-- An open record at the head is invisible to an idle FBC. -/
theorem fbcOp_of_open_head (p : Params) {d : Dev} {r : Msg} {rest : List Msg} (hq : d.mq = r :: rest)
    (hr : r.closed = false) (hidle : d.fbc.phase = .idle) : fbcOp p d = none := by
  have hhead : closedHead d.mq = none := by simp [hq, closedHead, hr]
  have hdrop : dropEnabled d = false := by simp [dropEnabled, hhead]
  have hstart : startEnabled d = false := by simp [startEnabled, hhead]
  have hemit {ph : Phase} (hph : ph ≠ .idle) : emitEnabled p ph d = false := by
    simp [emitEnabled, hidle, hph.symm]
  have hdone : drainDoneEnabled d = false := by simp [drainDoneEnabled, hq]
  rw [fbcOp, hdrop, hstart, hemit (by decide), hemit (by decide), hemit (by decide), hdone]
  rfl

/-! ### What an arrival adds to the egress (R135, R182) -/

/-- The record closed is owed, if it is good, behind everything owed before. -/
theorem Dev.Inv.pending_endDev {p : Params} {d : Dev} (h : d.Inv p) {l : List Msg} {r : Msg}
    (hq : d.mq = l ++ [r]) (hr : r.closed = false) :
    pending (endDev d) = pending d ++ if r.good then d.conf.frameItems r.data else [] := by
  rw [endDev_of_open hq hr, pending_setMq_append (h.ne_nil_before_open hq hr), h.pending_open hq hr,
    goodItems_cons, goodItems_nil, List.append_nil]
  rfl

theorem decodeBeat_eq_msgEnd_iff {w : BitVec 18} : decodeBeat w = .msgEnd ↔ beatKind w = .msgEnd := by
  rw [decodeBeat_of_kind]
  cases beatKind w <;> simp

/-- No word at the ingress port cuts the stream. -/
theorem decodeBeat_cuts_nothing (w : BitVec 18) : decodeBeat w ≠ .abort ∧ decodeBeat w ≠ .srst := by
  rw [decodeBeat_of_kind]
  cases beatKind w <;> simp

section
variable {s t : State}

/-- What a turn of PRODUCER can be: a wait while no beat is accepted, or an accepted beat. -/
theorem producer_step_cases (ht : s.nextTurn = .producer) (hx : step s = .next t) :
    (t = s.takeTurn ∧
      ∀ w ws, s.env.beatQ = w :: ws → inReady s.env.params s.dev (beatKind w) = false) ∨
    (∃ w ws, s.env.beatQ = w :: ws ∧ inReady s.env.params s.dev (beatKind w) = true ∧
      exec (decodeBeat w) (s.takeTurn.setBeatQ ws) = .next t) := by
  by_cases h : ∀ w ws, s.env.beatQ = w :: ws → inReady s.env.params s.dev (beatKind w) = false
  · rw [producer_step_held ht h] at hx
    cases hx
    exact .inl ⟨rfl, h⟩
  · simp only [not_forall, Bool.not_eq_false] at h
    obtain ⟨w, ws, hq, hr⟩ := h
    rw [step_of_fetch_run ht (fetch_producer_accepted (s := s.takeTurn) hq hr)] at hx
    exact .inr ⟨w, ws, hq, hr, hx⟩

/-- END of an open record adds the record's frame, if the record is good. -/
theorem exec_msgEnd_stream_of_open (h : s.Inv) (hlc : s.dev.lc = .run) {l : List Msg} {r : Msg}
    (hq : s.dev.mq = l ++ [r]) (hr : r.closed = false) (hx : exec .msgEnd s = .next t) :
    t.stream = s.stream ++ if r.good then s.dev.conf.frameItems r.data else [] := by
  rw [exec_msgEnd_of_run hlc] at hx
  cases hx
  rw [State.stream, State.stream, State.setDev_dev, Dev.Inv.pending_endDev h hq hr, List.append_assoc]
  rfl

/-- END with no record open adds nothing. -/
theorem exec_msgEnd_stream_of_none_open (hlc : s.dev.lc = .run) (ho : openMsg s.dev.mq = none)
    (hx : exec .msgEnd s = .next t) : t.stream = s.stream := by
  rw [exec_msgEnd_of_run hlc, endDev_of_none_open ho] at hx
  cases hx
  exact stream_setDev (pending_raise _ _)

end

/-! ### The obligations -/

/-- Settles O51: PRODUCER waits, or its beat is no END and keeps the stream, or it is an END and adds the
frame of the record it closes, if there is one and it is good. -/
theorem arrivalAppendsOneFrame : Obligations.ArrivalAppendsOneFrame := by
  intro s t h hturn hx
  rcases producer_step_cases hturn hx with ⟨rfl, hheld⟩ | ⟨w, ws, hq, hready, hx⟩
  · refine ⟨fun q r w ws hq hk hlc _ _ _ => ?_, fun _ => rfl⟩
    have hready := hheld w ws hq
    rw [hk, inReady_msgEnd _ hlc] at hready
    cases hready
  · have hu : (s.takeTurn.setBeatQ ws).Inv := h
    have hlc : s.dev.lc = .run := run_of_inReady hready
    constructor
    · intro q r w' ws' hq' hk _ hmq hr hgood
      rw [hq, List.cons.injEq] at hq'
      rw [← hq'.1, ← decodeBeat_eq_msgEnd_iff] at hk
      rw [hk] at hx
      have hstream := exec_msgEnd_stream_of_open hu hlc hmq hr hx
      rwa [if_pos (r.good_iff.mpr hgood)] at hstream
    · intro hbad
      by_cases hk : beatKind w = .msgEnd
      · rw [decodeBeat_eq_msgEnd_iff.mpr hk] at hx
        cases ho : openMsg s.dev.mq with
        | none => exact exec_msgEnd_stream_of_none_open (s := s.takeTurn.setBeatQ ws) hlc ho hx
        | some r =>
          obtain ⟨hmq, hr⟩ := openMsg_eq_some.mp ho
          have hne := hbad _ r w ws hq hk hlc hmq hr
          have hstream := exec_msgEnd_stream_of_open hu hlc hmq hr hx
          rwa [if_neg (mt r.good_iff.mp hne), List.append_nil] at hstream
      · obtain ⟨habort, hsrst⟩ := decodeBeat_cuts_nothing w
        exact exec_keeps_stream (s := s.takeTurn.setBeatQ ws) hu hx habort hsrst
          (mt decodeBeat_eq_msgEnd_iff.mp hk)

/-- Settles O20: each kind of beat has its condition in RUN. -/
theorem inReadyFollowsItsRule : Obligations.InReadyFollowsItsRule := fun _ _ =>
  ⟨inReady_head_iff, inReady_data_iff, inReady_msgEnd_iff, inReady_rsvd_iff⟩

/-- Settles O21: HEAD is accepted in both cases, and is `headDev`. -/
theorem headOpensARecord : Obligations.HeadOpensARecord := by
  intro n s hlc
  constructor
  · intro hclosed hroom
    rw [exec_head_accepted (inReady_head_iff.mpr ⟨hlc, .inr hroom⟩),
      headDev_of_none_open (openMsg_eq_none.mpr hclosed)]
    rfl
  · intro q r hq hr
    rw [exec_head_accepted (inReady_head_iff.mpr ⟨hlc, .inl ⟨q, r, hq, hr⟩⟩), headDev_of_open hq hr]
    rfl

/-- Settles O22: DATA is accepted in each case, and is `dataDev`. -/
theorem dataCountsAndStoresTheByte : Obligations.DataCountsAndStoresTheByte := by
  intro b s hlc
  refine ⟨fun q r hq hr hlt hroom => ?_, fun q r hq hr hle => ?_, fun hclosed => ?_⟩
  · have hready : inReady s.env.params s.dev .data = true :=
      inReady_data_iff.mpr ⟨hlc, fun _ _ _ _ _ => hroom⟩
    rw [exec_data_accepted hready, dataDev_of_open hq hr, Msg.addByte_of_lt hlt]
    rfl
  · have hready : inReady s.env.params s.dev .data = true := by
      rw [inReady_data_open _ hlc (openMsg_of_last hq hr), if_neg (Nat.not_lt.mpr hle)]
    rw [exec_data_accepted hready, dataDev_of_open hq hr, Msg.addByte_of_le hle]
    rfl
  · have ho := openMsg_eq_none.mpr hclosed
    rw [exec_data_accepted (inReady_data_none _ hlc ho), dataDev_of_none_open ho]
    rfl

/-- Settles O23: END in RUN is `endDev`; an idle FBC performs nothing on an open head. -/
theorem endClosesTheOpenRecord : Obligations.EndClosesTheOpenRecord := by
  intro s hlc
  refine ⟨fun q r hq hr => ?_, fun hclosed => ?_, fun p d r rest => fbcOp_of_open_head p⟩
  · rw [exec_msgEnd_of_run hlc, endDev_of_open hq hr]
    rfl
  · rw [exec_msgEnd_of_run hlc, endDev_of_none_open (openMsg_eq_none.mpr hclosed)]
    rfl

/-- Settles O24: RSVD in RUN is ProtocolError. -/
theorem reservedBeatSetsProtoErrAlone : Obligations.ReservedBeatSetsProtoErrAlone :=
  fun _ hlc => exec_rsvd_of_run hlc

/-- Settles O25: outside RUN no beat of any kind is accepted. -/
theorem noBeatIsAcceptedOutsideRun : Obligations.NoBeatIsAcceptedOutsideRun := by
  intro w s hlc
  have hheld (k : BeatKind) : inReady s.env.params s.dev k = false := inReady_of_not_run _ k hlc
  exact ⟨hheld _, exec_decodeBeat_held (hheld _),
    fun ht => ⟨s.takeTurn, producer_step_held ht fun _ _ _ => hheld _, rfl, rfl⟩⟩

end Sys2Proof.Machine
end

section
/-! Every byte that MQ, BCH and BRP store put through a function: no guard reads the bytes
(spec/41_ingress_ops.md R132, R136). -/

namespace Sys2Proof.Machine

open Sys2Proof

def Msg.mapBytes (f : Byte → Byte) (r : Msg) : Msg := { r with data := r.data.map f }

def BItem.mapByte (f : Byte → Byte) (x : BItem) : BItem := { x with byte := f x.byte }

def Brp.mapByte (f : Byte → Byte) (x : Brp) : Brp := { x with byte := f x.byte }

/-- The device with every byte `b` it stores replaced by `f b`. -/
def Dev.mapBytes (f : Byte → Byte) (d : Dev) : Dev :=
  ((d.setMq (d.mq.map (Msg.mapBytes f))).setBch (d.bch.map (BItem.mapByte f))).setBrp (d.brp.mapByte f)

section
variable (f : Byte → Byte)

/-! ### What the guards read of the queues -/

theorem openMsg_map_mapBytes (q : List Msg) :
    openMsg (q.map (Msg.mapBytes f)) = (openMsg q).map (Msg.mapBytes f) := by
  rcases List.eq_nil_or_concat q with rfl | ⟨l, r, rfl⟩
  · rfl
  · rw [List.concat_eq_append, List.map_append, List.map_singleton, openMsg_append, openMsg_append]
    cases hr : r.closed <;> simp [Msg.mapBytes, hr]

theorem closedHead_map_mapBytes (q : List Msg) :
    closedHead (q.map (Msg.mapBytes f)) = (closedHead q).map (Msg.mapBytes f) := by
  cases q with
  | nil => rfl
  | cons r rest => cases hr : r.closed <;> simp [closedHead, Msg.mapBytes, hr]

theorem usedBytes_map_mapBytes (q : List Msg) : usedBytes (q.map (Msg.mapBytes f)) = usedBytes q := by
  simp [usedBytes, Msg.mapBytes, Function.comp_def]

/-! ### The guards of FBC, BRP and CONSUMER -/

section
variable (p : Params) (d : Dev)

theorem closedHead_mapBytes :
    closedHead (d.mapBytes f).mq = (closedHead d.mq).map (Msg.mapBytes f) :=
  closedHead_map_mapBytes f d.mq

theorem dropEnabled_mapBytes : dropEnabled (d.mapBytes f) = dropEnabled d := by
  rw [dropEnabled, dropEnabled, closedHead_mapBytes]
  cases closedHead d.mq <;> rfl

theorem startEnabled_mapBytes : startEnabled (d.mapBytes f) = startEnabled d := by
  rw [startEnabled, startEnabled, closedHead_mapBytes]
  cases closedHead d.mq <;> rfl

theorem emitEnabled_mapBytes (ph : Phase) : emitEnabled p ph (d.mapBytes f) = emitEnabled p ph d := by
  simp [emitEnabled, Dev.mapBytes, Dev.moving]

theorem drainDoneEnabled_mapBytes : drainDoneEnabled (d.mapBytes f) = drainDoneEnabled d := by
  simp [drainDoneEnabled, Dev.mapBytes, Brp.mapByte]

theorem loadEnabled_mapBytes : loadEnabled (d.mapBytes f) = loadEnabled d := by
  simp [loadEnabled, Dev.mapBytes, Dev.moving, Brp.mapByte]

theorem fbcOp_mapBytes : fbcOp p (d.mapBytes f) = fbcOp p d := by
  simp only [fbcOp, dropEnabled_mapBytes, startEnabled_mapBytes, emitEnabled_mapBytes,
    drainDoneEnabled_mapBytes]

theorem brpOp_mapBytes : brpOp p (d.mapBytes f) = brpOp p d := by
  rw [brpOp, loadEnabled_mapBytes]
  rfl

/-! ### `in_ready` -/

/-- The byte counts of the open record, and how much is stored, are what DATA waits for (R130). -/
theorem inReady_mapBytes (k : BeatKind) : inReady p (d.mapBytes f) k = inReady p d k := by
  by_cases hlc : d.lc = .run
  · have hlc' : (d.mapBytes f).lc = .run := hlc
    have hopen : openMsg (d.mapBytes f).mq = (openMsg d.mq).map (Msg.mapBytes f) :=
      openMsg_map_mapBytes f d.mq
    have hused : usedBytes (d.mapBytes f).mq = usedBytes d.mq := usedBytes_map_mapBytes f d.mq
    have hlen : (d.mapBytes f).mq.length = d.mq.length := List.length_map _
    cases k with
    | head => rw [inReady_head p hlc', inReady_head p hlc, hopen, hlen, Option.isSome_map]
    | data =>
      cases ho : openMsg d.mq with
      | none =>
        rw [ho] at hopen
        rw [inReady_data_none p hlc' hopen, inReady_data_none p hlc ho]
      | some r =>
        rw [ho] at hopen
        rw [inReady_data_open p hlc' hopen, inReady_data_open p hlc ho, hused]
        rfl
    | msgEnd => rw [inReady_msgEnd p hlc', inReady_msgEnd p hlc]
    | rsvd => rw [inReady_rsvd p hlc', inReady_rsvd p hlc]
  · rw [inReady_of_not_run p k hlc]
    exact inReady_of_not_run p k hlc

end

end

/-! ### The obligation -/

/-- Settles O46: the device of the statement is `Dev.mapBytes`, whose guards are the device's own. -/
theorem byteValuesNeverDecideAnOperation : Obligations.ByteValuesNeverDecideAnOperation :=
  fun f p d => ⟨fbcOp_mapBytes f p d, brpOp_mapBytes f p d, rfl, inReady_mapBytes f p d⟩

end Sys2Proof.Machine
end

section
/-! The operations of FBC (spec/42_fbc_ops.md R150 to R157): which one a device selects, what each does to
it, and that none of them changes the symbol stream. -/

namespace Sys2Proof.Machine

open Sys2Proof

/-! ### The operation a device selects (R150, R170) -/

/-- The guard of each operation of FBC; every other operation has none here. -/
def fbcGuard (p : Params) (d : Dev) : Instr → Bool
  | .drop => dropEnabled d
  | .start => startEnabled d
  | .emitPre => emitEnabled p .pre d
  | .emitSync => emitEnabled p .sync d
  | .emitPay => emitEnabled p .pay d
  | .drainDone => drainDoneEnabled d
  | _ => false

/-- The one operation that `FB_PHASE` and the head record leave open to FBC, whether its guard holds or
not. -/
def fbcCandidate (d : Dev) : Instr :=
  match d.fbc.phase with
  | .idle =>
    match d.mq with
    | [] => .drainDone
    | r :: _ => if r.good then .start else .drop
  | .pre => .emitPre
  | .sync => .emitSync
  | .pay => .emitPay

theorem fbcCandidate_nil {d : Dev} (hidle : d.fbc.phase = .idle) (hq : d.mq = []) :
    fbcCandidate d = .drainDone := by
  simp only [fbcCandidate, hidle, hq]

theorem fbcCandidate_cons {d : Dev} {r : Msg} {rest : List Msg} (hidle : d.fbc.phase = .idle)
    (hq : d.mq = r :: rest) : fbcCandidate d = if r.good then .start else .drop := by
  simp only [fbcCandidate, hidle, hq]

section
variable {p : Params} {d : Dev} {i : Instr}

/-- FBC's operation is one whose guard holds. -/
theorem fbcGuard_of_fbcOp (h : fbcOp p d = some i) : fbcGuard p d i = true := by
  rcases fbcOp_cases h with ⟨rfl, hg⟩ | ⟨rfl, hg⟩ | ⟨rfl, hg⟩ | ⟨rfl, hg⟩ | ⟨rfl, hg⟩ | ⟨rfl, hg⟩ <;>
    exact hg

/-- Where a guard holds, FBC has an operation. -/
theorem fbcOp_ne_none (h : fbcGuard p d i = true) : fbcOp p d ≠ none := by
  intro hnone
  unfold fbcOp at hnone
  split_ifs at hnone
  cases i <;> simp_all [fbcGuard]

/-- A guard holds of the candidate alone: the guards are exclusive. -/
theorem eq_fbcCandidate_of_guard (h : fbcGuard p d i = true) : i = fbcCandidate d := by
  cases i <;> simp only [fbcGuard, Bool.false_eq_true] at h
  case drop =>
    obtain ⟨-, hidle, r, rest, hq, -, hbad⟩ := (dropEnabled_iff d).mp h
    rw [fbcCandidate_cons hidle hq, if_neg (mt r.good_iff.mp hbad)]
  case start =>
    obtain ⟨-, hidle, r, rest, hq, -, hgood⟩ := (startEnabled_iff d).mp h
    rw [fbcCandidate_cons hidle hq, if_pos (r.good_iff.mpr hgood)]
  case drainDone =>
    obtain ⟨-, hq, hidle, -⟩ := (drainDoneEnabled_iff d).mp h
    exact (fbcCandidate_nil hidle hq).symm
  all_goals
    obtain ⟨-, hph, -⟩ := (emitEnabled_iff p _ d).mp h
    rw [fbcCandidate, hph]

theorem fbcOp_eq_some_iff : fbcOp p d = some i ↔ fbcGuard p d i = true := by
  refine ⟨fbcGuard_of_fbcOp, fun h => ?_⟩
  obtain ⟨j, hj⟩ := Option.ne_none_iff_exists'.mp (fbcOp_ne_none h)
  rw [hj, eq_fbcCandidate_of_guard h, eq_fbcCandidate_of_guard (fbcGuard_of_fbcOp hj)]

theorem fbcOp_none_or_candidate (p : Params) (d : Dev) :
    fbcOp p d = none ∨ fbcOp p d = some (fbcCandidate d) := by
  cases h : fbcOp p d with
  | none => exact .inl rfl
  | some i => exact .inr (congrArg some (eq_fbcCandidate_of_guard (fbcGuard_of_fbcOp h)))

theorem drainDoneEnabled_iff_empty : drainDoneEnabled d = true ↔ d.lc = .drain ∧ d.empty := by
  rw [drainDoneEnabled_iff, Dev.empty]
  tauto

/-- FBC has an operation in RUN and DRAIN only. -/
theorem moving_of_fbcGuard (h : fbcGuard p d i = true) : d.moving = true := by
  rw [d.moving_iff]
  cases i <;> simp only [fbcGuard, Bool.false_eq_true] at h
  case drop => exact ((dropEnabled_iff d).mp h).1
  case start => exact ((startEnabled_iff d).mp h).1
  case drainDone => exact .inr ((drainDoneEnabled_iff d).mp h).1
  all_goals exact ((emitEnabled_iff p _ d).mp h).1

theorem fbcOp_of_not_moving (h : ¬ d.moving = true) : fbcOp p d = none :=
  Option.eq_none_iff_forall_ne_some.mpr fun _ hi => h (moving_of_fbcGuard (fbcGuard_of_fbcOp hi))

theorem brpOp_of_not_moving (h : ¬ d.moving = true) : brpOp p d = none := by
  simp [brpOp, loadEnabled, shiftEnabled, h]

/-- At most one guard of FBC holds: each holds of the candidate alone. -/
theorem countP_fbcGuard_le_one (p : Params) (d : Dev) {l : List Instr} (hl : l.Nodup) :
    l.countP (fbcGuard p d) ≤ 1 :=
  calc l.countP (fbcGuard p d)
    _ ≤ l.countP (· == fbcCandidate d) :=
        List.countP_mono_left fun _ _ hg => beq_iff_eq.mpr (eq_fbcCandidate_of_guard hg)
    _ ≤ 1 := List.nodup_iff_count_le_one.mp hl _

/-- LOAD needs an empty BRP and SHIFT one that is not. -/
theorem countP_brp_guards_le_one (p : Params) (d : Dev) :
    [loadEnabled d, shiftEnabled p d].countP id ≤ 1 := by
  by_cases h0 : d.brp.cnt = 0#4
  · have hshift : shiftEnabled p d = false := by simp [shiftEnabled, h0]
    rw [hshift]
    cases loadEnabled d <;> decide
  · have hload : loadEnabled d = false := by simp [loadEnabled, h0]
    rw [hload]
    cases shiftEnabled p d <;> decide

end

/-! ### The next phase, in the terms of the registers (R156) -/

section
variable {ph : Phase} {b : Byte} {d : Dev} {r : Msg} {rest : List Msg}

theorem advance_of_syncLen (hs : d.conf.syncLen ≠ 0#4) :
    advance .pre d = .ok (enterPhase .sync (d.conf.syncLen.setWidth 16) d) := by
  rw [advance_to_sync (toNat_pos_iff_ne_zero.mpr hs), Conf.syncLenNat, BitVec.ofNat_toNat]

theorem advance_of_decl (hq : d.mq = r :: rest) (hp : ph ≠ .pay)
    (hs : ph = .pre → d.conf.syncLen = 0#4) (hl : r.decl ≠ 0#16) :
    advance ph d = .ok (enterPhase .pay r.decl d) :=
  advance_to_pay hq hp (fun e => congrArg BitVec.toNat (hs e)) (toNat_pos_iff_ne_zero.mpr hl)

theorem advance_of_nothing_left (hq : d.mq = r :: rest) (hs : ph = .pre → d.conf.syncLen = 0#4)
    (hl : ph = .pay ∨ r.decl = 0#16) : advance ph d = .ok (finished rest d) :=
  advance_to_finish hq (fun e => congrArg BitVec.toNat (hs e)) (hl.imp_right (congrArg BitVec.toNat))

theorem Conf.preLen_pos_iff {c : Conf} : 0 < c.preLen ↔ c.preCount ≠ 0#16 := toNat_pos_iff_ne_zero

/-! ### `emit`: a byte inside its phase, and the last byte of it (R156) -/

/-- Inside a phase the count goes down by one. -/
theorem emit_inside (h : 2 ≤ d.fbc.cnt.toNat) : emit b d = .ok
    ((d.setBch (d.bch ++ [emitItem d.fbc b])).setFbc
      { d.fbc with cnt := d.fbc.cnt - 1#16, sof := false }) := by
  rw [emit_more h, pushByte, decCnt_eq_sub _ (by omega)]

theorem emit_at_end (h : d.fbc.cnt = 1#16) : emit b d = advance d.fbc.phase (pushByte b d) :=
  emit_last (by rw [h]; decide)

theorem emit_into_sync (h : d.fbc.cnt = 1#16) (hp : d.fbc.phase = .pre) (hs : d.conf.syncLen ≠ 0#4) :
    emit b d = .ok (enterPhase .sync (d.conf.syncLen.setWidth 16) (pushByte b d)) := by
  rw [emit_at_end h, hp, advance_of_syncLen (d := pushByte b d) hs, pushByte_conf]

theorem emit_into_pay (h : d.fbc.cnt = 1#16) (hq : d.mq = r :: rest) (hp : d.fbc.phase ≠ .pay)
    (hs : d.fbc.phase = .pre → d.conf.syncLen = 0#4) (hl : r.decl ≠ 0#16) :
    emit b d = .ok (enterPhase .pay r.decl (pushByte b d)) := by
  rw [emit_at_end h, advance_of_decl (d := pushByte b d) hq hp hs hl]

theorem emit_into_idle (h : d.fbc.cnt = 1#16) (hq : d.mq = r :: rest)
    (hs : d.fbc.phase = .pre → d.conf.syncLen = 0#4) (hl : d.fbc.phase = .pay ∨ r.decl = 0#16) :
    emit b d = .ok (finished rest (pushByte b d)) := by
  rw [emit_at_end h, advance_of_nothing_left (d := pushByte b d) hq hs hl]

end

/-- `syncbyte` numbers the bytes of SYNC0 and SYNC1, read as one word, from the most significant on
(R27). -/
theorem Conf.syncbyte_eq_extractLsb' (c : Conf) {k : Nat} (hk : k < 8) :
    c.syncbyte k = (c.sync0 ++ c.sync1).extractLsb' (8 * (7 - k)) 8 := by
  unfold Conf.syncbyte
  split
  · next h =>
    rw [BitVec.extractLsb'_append_eq_of_le (by omega)]
    congr 1
    omega
  · next h =>
    rw [BitVec.extractLsb'_append_eq_of_add_le (by omega)]
    congr 1
    omega

theorem Conf.syncbyte_toNat (c : Conf) {k : Nat} (hk : k < 8) : (c.syncbyte k).toNat =
    (c.sync0.toNat * 2 ^ 32 + c.sync1.toNat) / 2 ^ (8 * (7 - k)) % 2 ^ 8 := by
  rw [c.syncbyte_eq_extractLsb' hk, BitVec.extractLsb'_toNat, BitVec.toNat_append,
    ← Nat.shiftLeft_add_eq_or_of_lt c.sync1.isLt, Nat.shiftLeft_eq, Nat.shiftRight_eq_div_pow]

/-! ### Each operation where its guard holds -/

section
variable {s : State} {r : Msg} {rest : List Msg}

theorem exec_drop_of_enabled (hg : dropEnabled s.dev = true) :
    exec .drop s = .next (s.setDev (dropDev s.dev)) := if_pos hg

theorem exec_start_of_enabled (hg : startEnabled s.dev = true) (hq : s.dev.mq = r :: rest) :
    exec .start s = ofDev s (startDev r s.dev) := by
  simp only [exec, execStart, hg, hq, if_true]

theorem exec_emitPre_of_enabled (hg : emitEnabled s.env.params .pre s.dev = true) :
    exec .emitPre s = ofDev s (emit s.dev.conf.preByte s.dev) := if_pos hg

/-- The index of the syncword byte is in range while `FB_CNT` is in `1..S` and `S` at most 8 (R154). -/
theorem exec_emitSync_of_enabled (hg : emitEnabled s.env.params .sync s.dev = true)
    (h1 : 1 ≤ s.dev.fbc.cnt.toNat) (hs : s.dev.fbc.cnt.toNat ≤ s.dev.conf.syncLenNat)
    (h8 : s.dev.conf.syncLenNat ≤ 8) : exec .emitSync s =
      ofDev s (emit (s.dev.conf.syncbyte (s.dev.conf.syncLenNat - s.dev.fbc.cnt.toNat)) s.dev) := by
  have hindex : s.dev.conf.syncLenNat - s.dev.fbc.cnt.toNat < Config.syncMax := by
    rw [Config.syncMax]; omega
  calc exec .emitSync s
    _ = ofDev s (emitSyncDev s.dev) := if_pos hg
    _ = _ := by rw [emitSyncDev, if_pos ⟨hs, hindex⟩]

theorem exec_emitPay_of_enabled {b : Byte} {bs : List Byte}
    (hg : emitEnabled s.env.params .pay s.dev = true) (hq : s.dev.mq = r :: rest)
    (hb : r.data = b :: bs) :
    exec .emitPay s = ofDev s (emit b (s.dev.setMq ({ r with data := bs } :: rest))) := by
  calc exec .emitPay s
    _ = ofDev s (emitPayDev s.dev) := if_pos hg
    _ = _ := by simp only [emitPayDev, hq, hb]

theorem exec_drainDone_of_enabled (hg : drainDoneEnabled s.dev = true) :
    exec .drainDone s = .next (s.setDev (s.dev.setLc .halt)) := if_pos hg

end

/-! ### The obligations -/

/-- Settles O50: an internal step is a wait or an operation that neither cuts nor extends the stream. -/
theorem internalStepsKeepTheSymbolStream : Obligations.InternalStepsKeepTheSymbolStream :=
  fun _ _ => internal_step_keeps_stream

/-- Settles O26: DROP, enabled, raises FramingError on the device without its head record. -/
theorem dropRemovesABadMessage : Obligations.DropRemovesABadMessage := by
  refine ⟨fun p d => fbcOp_eq_some_iff.trans (dropEnabled_iff d), fun s r rest hm hidle hq hc hbad => ?_⟩
  rw [exec_drop_of_enabled ((dropEnabled_iff _).mpr ⟨hm, hidle, r, rest, hq, hc, hbad⟩), dropDev, hq,
    ← satInc32_eq]
  rfl

/-- Settles O27: START latches the tag, and its `advance` enters the first phase with a byte. -/
theorem startEntersTheFirstPhaseWithBytes : Obligations.StartEntersTheFirstPhaseWithBytes := by
  refine ⟨fun p d => fbcOp_eq_some_iff.trans (startEnabled_iff d),
    fun s r rest hm hidle hq hc hgood => ⟨_, s.dev.conf.tagFor_toNat r.decl, ?_⟩⟩
  rw [exec_start_of_enabled ((startEnabled_iff _).mpr ⟨hm, hidle, r, rest, hq, hc, hgood⟩) hq,
    startDev_eq, ← latched, ← satInc32_eq]
  have hpre (h : s.dev.conf.preCount = 0#16) : ¬ 0 < s.dev.conf.preLen :=
    fun hpos => Conf.preLen_pos_iff.mp hpos h
  refine ⟨fun h => ?_, fun h hs => ?_, fun h hs hl => ?_, fun h hs hl => ?_⟩
  · rw [if_pos (Conf.preLen_pos_iff.mpr h)]
    rfl
  · rw [if_neg (hpre h), advance_of_syncLen (d := latched r s.dev) hs]
    rfl
  · rw [if_neg (hpre h), advance_of_decl (d := latched r s.dev) hq (by decide) (fun _ => hs) hl]
    rfl
  · rw [if_neg (hpre h), advance_of_nothing_left (d := latched r s.dev) hq (fun _ => hs) (.inr hl)]
    rfl

/-- Settles O28: EMIT_PRE is `emit` of the preamble byte, and PRE has every phase behind it. -/
theorem emitPreSendsOnePreambleByte : Obligations.EmitPreSendsOnePreambleByte := by
  refine ⟨fun p d => fbcOp_eq_some_iff.trans (emitEnabled_iff p .pre d),
    fun s r rest hm hph hroom hq => ⟨_, rfl, ?_⟩⟩
  have hp : s.dev.fbc.phase ≠ .pay := by simp [hph]
  rw [exec_emitPre_of_enabled ((emitEnabled_iff _ _ _).mpr ⟨hm, hph, hroom⟩), ← satInc32_eq]
  refine ⟨fun h => ?_, fun h hs => ?_, fun h hs hl => ?_, fun h hs hl => ?_⟩
  · rw [emit_inside h]; rfl
  · rw [emit_into_sync h hph hs]; rfl
  · rw [emit_into_pay h hq hp (fun _ => hs) hl]; rfl
  · rw [emit_into_idle h hq (fun _ => hs) (.inr hl)]; rfl

/-- Settles O29: EMIT_SYNC is `emit` of the syncword byte of its index, and SYNC has PAY behind it. -/
theorem emitSyncSendsOneSyncwordByte : Obligations.EmitSyncSendsOneSyncwordByte := by
  refine ⟨fun p d => fbcOp_eq_some_iff.trans (emitEnabled_iff p .sync d),
    fun s r rest hm hph hroom hq h1 hcnt h8 =>
      ⟨_, _, _, rfl, s.dev.conf.syncbyte_toNat (by omega), rfl, ?_⟩⟩
  have hp : s.dev.fbc.phase ≠ .pay := by simp [hph]
  have hs : s.dev.fbc.phase = .pre → s.dev.conf.syncLen = 0#4 := by simp [hph]
  rw [exec_emitSync_of_enabled ((emitEnabled_iff _ _ _).mpr ⟨hm, hph, hroom⟩) h1 hcnt h8,
    ← satInc32_eq]
  refine ⟨fun h => ?_, fun h hl => ?_, fun h hl => ?_⟩
  · rw [emit_inside h]; rfl
  · rw [emit_into_pay h hq hp hs hl]; rfl
  · rw [emit_into_idle h hq hs (.inr hl)]; rfl

/-- Settles O30: EMIT_PAY is `emit` of the byte popped, and the message ends with PAY. -/
theorem emitPaySendsOnePayloadByte : Obligations.EmitPaySendsOnePayloadByte := by
  refine ⟨fun p d => fbcOp_eq_some_iff.trans (emitEnabled_iff p .pay d),
    fun s r b bs rest hm hph hroom hq hb => ⟨_, rfl, ?_⟩⟩
  rw [exec_emitPay_of_enabled ((emitEnabled_iff _ _ _).mpr ⟨hm, hph, hroom⟩) hq hb, ← satInc32_eq]
  refine ⟨fun h => ?_, fun h => ?_⟩
  · rw [emit_inside (d := s.dev.setMq ({ r with data := bs } :: rest)) h]; rfl
  · rw [emit_into_idle (d := s.dev.setMq ({ r with data := bs } :: rest)) h rfl (by simp [hph])
      (.inl hph)]
    rfl

/-- Settles O31: DRAIN_DONE is enabled on an empty device in DRAIN, and is the write of `LC`. -/
theorem drainDoneHalts : Obligations.DrainDoneHalts :=
  ⟨fun _ _ => fbcOp_eq_some_iff.trans drainDoneEnabled_iff_empty,
   fun _ hlc he => exec_drainDone_of_enabled (drainDoneEnabled_iff_empty.mpr ⟨hlc, he⟩)⟩

/-- Settles O32: a guard of FBC holds of the candidate alone, and with no record the candidate is
DRAIN_DONE, which needs DRAIN. -/
theorem eachInternalAgentHasAtMostOneOperation : Obligations.EachInternalAgentHasAtMostOneOperation := by
  intro p d
  have hnil (hidle : d.fbc.phase = .idle) (hq : d.mq = []) :
      fbcOp p d = none ∨ fbcOp p d = some .drainDone :=
    fbcCandidate_nil hidle hq ▸ fbcOp_none_or_candidate p d
  refine ⟨countP_fbcGuard_le_one p d (l := [.drop, .start, .emitPre, .emitSync, .emitPay, .drainDone])
      (by decide), countP_brp_guards_le_one p d,
    fun hlc => ⟨fbcOp_of_not_moving (Dev.not_moving hlc), brpOp_of_not_moving (Dev.not_moving hlc)⟩,
    hnil, fun r hidle hq hr => fbcOp_of_open_head p hq hr hidle, fun hrun hidle hq => ?_⟩
  refine (hnil hidle hq).resolve_right fun hdone => ?_
  obtain ⟨hdrain, -⟩ := (drainDoneEnabled_iff d).mp (fbcOp_eq_some_iff.mp hdone)
  rw [hrun] at hdrain
  cases hdrain

end Sys2Proof.Machine
end

section
/-! The operations of BRP (spec/43_brp_ops.md R170 to R174): which of the two a device selects, what each
does where it is enabled, and the eight SHIFTs that send a loaded byte. -/

namespace Sys2Proof.Machine

open Sys2Proof

/-! ### The operation a device selects (R170, R171) -/

section
variable {p : Params} {d : Dev}

/-- LOAD needs an empty BRP and SHIFT one that is not. -/
theorem shiftEnabled_of_loadEnabled (h : loadEnabled d = true) : shiftEnabled p d = false := by
  obtain ⟨-, h0, -⟩ := (loadEnabled_iff d).mp h
  simp [shiftEnabled, h0]

theorem brpOp_eq_load_iff : brpOp p d = some .load ↔ loadEnabled d = true := by
  refine ⟨fun h => ?_, fun hg => if_pos hg⟩
  rcases brpOp_cases h with ⟨-, hg⟩ | ⟨⟨⟩, -⟩
  exact hg

theorem brpOp_eq_shift_iff : brpOp p d = some .shift ↔ shiftEnabled p d = true := by
  refine ⟨fun h => ?_, fun hg => ?_⟩
  · rcases brpOp_cases h with ⟨⟨⟩, -⟩ | ⟨-, hg⟩
    exact hg
  · have hload : ¬ loadEnabled d = true := fun hl => by
      rw [shiftEnabled_of_loadEnabled hl] at hg
      cases hg
    rw [brpOp, if_neg hload, if_pos hg]

theorem brpOp_of_nothing_held (h0 : d.brp.cnt = 0#4) (hq : d.bch = []) : brpOp p d = none := by
  simp [brpOp, loadEnabled, shiftEnabled, h0, hq]

end

/-! ### Each operation where its guard holds -/

/-- The bit selector on the byte's value (R172). -/
theorem bitsel_eq_decide_div (b : Byte) (i : Nat) (lsbFirst : Bool) : bitsel b i lsbFirst =
    decide ((if lsbFirst = true then b.toNat / 2 ^ i % 2 else b.toNat / 2 ^ (7 - i) % 2) = 1) := by
  cases lsbFirst <;> exact getLsbD_eq_decide_div b _

/-- The device after a SHIFT whose bit index is in range (R171). -/
def shifted (d : Dev) : Dev :=
  (d.setOq (d.oq ++ [shiftItem d (8 - d.brp.cnt.toNat)])).setBrp
    { d.brp with sof := false, cnt := decCnt d.brp.cnt }

section
variable {s : State}

theorem exec_load_of_cons {x : BItem} {rest : List BItem} (hm : s.dev.lc = .run ∨ s.dev.lc = .drain)
    (h0 : s.dev.brp.cnt = 0#4) (hq : s.dev.bch = x :: rest) : exec .load s = .next (s.setDev
      (if x.width = 8 then
        (s.dev.setBch rest).setBrp { byte := x.byte, cnt := 8#4, sof := x.sof, tag := x.tag }
      else raise .alignment s.dev)) := by
  have hg : loadEnabled s.dev = true := (loadEnabled_iff _).mpr ⟨hm, h0, by simp [hq]⟩
  calc exec .load s
    _ = .next (s.setDev (loadDev s.dev)) := if_pos hg
    _ = _ := by simp only [loadDev, hq]

theorem exec_shift_of_bits_left (hm : s.dev.lc = .run ∨ s.dev.lc = .drain)
    (h1 : 1 ≤ s.dev.brp.cnt.toNat) (h8 : s.dev.brp.cnt.toNat ≤ 8)
    (hroom : s.dev.oq.length < s.env.params.ocap) :
    exec .shift s = .next (s.setDev (shifted s.dev)) := by
  have hg : shiftEnabled s.env.params s.dev = true :=
    (shiftEnabled_iff _ _).mpr ⟨hm, toNat_pos_iff_ne_zero.mp h1, hroom⟩
  calc exec .shift s
    _ = ofDev s (shiftDev s.dev) := if_pos hg
    _ = _ := by rw [shiftDev, if_pos h8, ofDev_ok, shifted]

end

/-! ### The SHIFTs of a byte in a row -/

/-- A SHIFT from the state an outcome answers, if it answers one. -/
def thenShift (o : Res) : Res :=
  match o with
  | .next u => exec .shift u
  | .fault f => .fault f
  | .refused r => .refused r

/-- With room for them, as many SHIFTs as BRP has bits left send all that is owed of its byte and leave BRP
empty (R171, R174). -/
theorem shifts_send_bits_left (n : Nat) {s : State} (hm : s.dev.lc = .run ∨ s.dev.lc = .drain)
    (hn : s.dev.brp.cnt.toNat = n) (h8 : n ≤ 8) (hroom : s.dev.oq.length + n ≤ s.env.params.ocap) :
    ∃ t : State, thenShift^[n] (.next s) = .next t ∧
      t.dev.brp.cnt = 0#4 ∧ t.dev.brp.byte = s.dev.brp.byte ∧ t.dev.bch = s.dev.bch ∧
      t.dev.oq = s.dev.oq ++ symbolsFrom s.dev.conf s.dev.brp.byte n s.dev.brp.sof s.dev.brp.tag := by
  induction n generalizing s with
  | zero => exact ⟨s, rfl, BitVec.eq_of_toNat_eq hn, rfl, rfl, (List.append_nil _).symm⟩
  | succ n ih =>
    have hcnt : (decCnt s.dev.brp.cnt).toNat = n := by rw [decCnt_toNat, hn, Nat.add_sub_cancel]
    have hfirst : exec .shift s = .next (s.setDev (shifted s.dev)) :=
      exec_shift_of_bits_left hm (by omega) (by omega) (by omega)
    have hroom' : (shifted s.dev).oq.length + n ≤ s.env.params.ocap := by
      simp only [shifted, Dev.setBrp_oq, Dev.setOq_oq, List.length_append, List.length_singleton]
      omega
    obtain ⟨t, ht, h0, hbyte, hbch, hoq⟩ :=
      ih (s := s.setDev (shifted s.dev)) hm hcnt (by omega) hroom'
    refine ⟨t, ?_, h0, hbyte, hbch, ?_⟩
    · rw [Function.iterate_succ_apply, thenShift, hfirst, ht]
    · have hcut := symbolsFrom_brp (d := s.dev) (toNat_pos_iff_ne_zero.mp (by omega))
      rw [hcnt, hn] at hcut
      calc t.dev.oq
        _ = s.dev.oq ++ [shiftItem s.dev (8 - s.dev.brp.cnt.toNat)] ++
              symbolsFrom s.dev.conf s.dev.brp.byte n false s.dev.brp.tag := hoq
        _ = _ := by rw [hn, hcut, List.append_assoc, List.singleton_append]

/-- The symbols of a whole byte, listed: bit 0 up where BITORD is 1 and bit 7 down where it is 0, the
sideband on the first alone (R172). -/
theorem symbolsFrom_eight (c : Conf) (b : Byte) (sof : Bool) (tag : Word) : symbolsFrom c b 8 sof tag =
    (if c.bitord = true then [0, 1, 2, 3, 4, 5, 6, 7] else [7, 6, 5, 4, 3, 2, 1, 0]).mapIdx fun n k =>
      { sym := if b.getLsbD k then c.amp1 else c.amp0
        sof := sof && n == 0
        tag := if sof && n == 0 then tag else 0#32 } := by
  cases hb : c.bitord <;> simp [symbolsFrom, bitsel, Conf.mapBit, hb]

/-! ### The obligations -/

/-- Settles O36: a loaded byte has eight bits left, and the SHIFTs in a row send all of them. -/
theorem eightShiftsSendTheByte : Obligations.EightShiftsSendTheByte := by
  intro s hm hcnt hroom
  obtain ⟨t, ht, h0, hbyte, hbch, hoq⟩ :=
    shifts_send_bits_left 8 hm (congrArg BitVec.toNat hcnt) le_rfl hroom
  refine ⟨t, ?_, h0, hbyte, hbch, by rw [hoq, symbolsFrom_eight]⟩
  calc _ = (List.range 8).foldl (fun o _ => thenShift o) (.next s) := rfl
    _ = thenShift^[8] (.next s) := by rw [List.foldl_const, List.length_range]
    _ = .next t := ht

/-- Settles O33: LOAD is BRP's operation where its guard holds, and it takes the item it finds. -/
theorem loadTakesTheOldestItem : Obligations.LoadTakesTheOldestItem := by
  refine ⟨fun p d => ⟨brpOp_eq_load_iff.trans (loadEnabled_iff d),
    fun h => shiftEnabled_of_loadEnabled (brpOp_eq_load_iff.mp h), brpOp_of_nothing_held,
    fun hlc => brpOp_of_not_moving (Dev.not_moving hlc)⟩, fun s x rest hm h0 hq hx => ?_⟩
  rw [exec_load_of_cons hm h0 hq, if_pos hx]
  rfl

/-- Settles O34: AlignmentError moves `LC` to HALT, where FBC and BRP have no operation. -/
theorem partialByteRaisesAlignmentError : Obligations.PartialByteRaisesAlignmentError := by
  intro s x rest hm h0 hq hx
  have hhalt : ¬ (raise .alignment s.dev).moving = true := Dev.not_moving (.inr rfl)
  exact ⟨s.setDev (raise .alignment s.dev), by rw [exec_load_of_cons hm h0 hq, if_neg hx], rfl,
    fbcOp_of_not_moving hhalt, brpOp_of_not_moving hhalt⟩

/-- Settles O35: SHIFT is BRP's operation where its guard holds, and the bit selector finds its bit. -/
theorem shiftSendsOneBit : Obligations.ShiftSendsOneBit := by
  refine ⟨fun p d => ?_, fun s hm h1 h8 hroom => ⟨_, _, rfl, rfl, ?_⟩⟩
  · rw [brpOp_eq_shift_iff, shiftEnabled_iff, ← toNat_pos_iff_ne_zero]
    rfl
  · rw [exec_shift_of_bits_left hm h1 h8 hroom, shifted, shiftItem, Conf.mapBit, bitsel_eq_decide_div,
      decCnt_eq_sub _ h1]
    simp only [decide_eq_true_eq]
    rfl

end Sys2Proof.Machine
end

section
/-! The operations of SMP and CONSUMER (spec/44_smp_ops.md R180 to R183): the symbol mapper's table, and
POP on an output queue with an item and on an empty one. -/

namespace Sys2Proof.Machine

open Sys2Proof

/-- The mapper's two entries are AMP1 and AMP0; `exec` of MAP records the one it picks (R180). -/
theorem exec_map (bit : Bool) (s : State) : exec (.map bit) s =
    .next (s.returnMap (if bit = true then s.dev.conf.amp1 else s.dev.conf.amp0)) := rfl

section
variable {s : State}

theorem exec_pop_of_cons {x : SItem} {rest : List SItem} (hq : s.dev.oq = x :: rest) :
    exec .pop s = .next ((s.setDev (s.dev.setOq rest)).deliver x) := by
  simp only [exec, execPop, hq]

theorem exec_pop_of_nil (hq : s.dev.oq = []) : exec .pop s = .next s := by
  simp only [exec, execPop, hq, wait_eq]

end

/-! ### The obligations -/

/-- Settles O38: MAP is the mapper's entry for the bit, returned beside the device. -/
theorem mapIsATwoEntryTable : Obligations.MapIsATwoEntryTable :=
  exec_map

/-- Settles O39: POP on a queue with a head delivers the head; on an empty one CONSUMER selects nothing and
POP waits. -/
theorem popDeliversTheOldestItem : Obligations.PopDeliversTheOldestItem := fun _ =>
  ⟨fun _ _ hq => exec_pop_of_cons hq, fun hq => ⟨consumerOp_eq_none.mpr hq, exec_pop_of_nil hq⟩⟩

end Sys2Proof.Machine
end

section
/-! The interrupt line (spec/60_exceptions.md R207): `irq` one flag at a time, and after a write that
acknowledges flags or enables them. -/

namespace Sys2Proof.Machine

open Sys2Proof

/-- A flag's place is one of the six of `STATUS[13:8]` (R85). -/
theorem Err.bit_lt_six (x : Err) : x.bit < 6 := by cases x <;> decide

/-- Bit `k` of the field is bit `k + 8` of the written word (R85). -/
theorem flagSlice_getLsbD_bit (v : Word) (x : Err) :
    (flagSlice v).getLsbD x.bit = v.getLsbD (x.bit + 8) := by
  rw [flagSlice, BitVec.getLsbD_extractLsb', decide_eq_true x.bit_lt_six, Bool.true_and, Nat.add_comm]

/-- `irq` is the OR over the six flags, each under its own enable (R207). -/
theorem Dev.irq_iff_exists_err (d : Dev) :
    d.irq = true ↔ ∃ x : Err, d.flags.has x = true ∧ d.ien.getLsbD x.bit = true := by
  have hand (x : Err) : (d.flags.bits &&& d.ien).getLsbD x.bit =
      (d.flags.has x && d.ien.getLsbD x.bit) := by
    rw [BitVec.getLsbD_and, Flags.bits_getLsbD_bit]
  simp only [← Bool.and_eq_true, ← hand, Dev.irq, bne_iff_ne]
  constructor
  · intro hne
    by_contra! hno
    refine hne (BitVec.eq_of_getLsbD_eq fun k hk => ?_)
    obtain ⟨x, rfl⟩ := Err.exists_bit hk
    rw [BitVec.getLsbD_zero]
    exact Bool.eq_false_iff.mpr (hno x)
  · rintro ⟨x, hx⟩ hzero
    rw [hzero, BitVec.getLsbD_zero] at hx
    cases hx

/-- A statement about some error, spelt out over the six in the order of their flags (R200). -/
theorem Err.exists_iff {P : Err → Prop} : (∃ x, P x) ↔ P .configuration ∨ P .unsupportedMode ∨
    P .framing ∨ P .alignment ∨ P .protocol ∨ P .access := by
  constructor
  · rintro ⟨x, hx⟩
    cases x <;> simp [hx]
  · rintro (h | h | h | h | h | h) <;> exact ⟨_, h⟩

/-- WR STATUS lowers `irq` when it names every enabled flag (R102, R207). -/
theorem irq_acknowledge_eq_false {d : Dev} {v : Word}
    (hall : ∀ x : Err, d.ien.getLsbD x.bit = true → v.getLsbD (x.bit + 8) = true) :
    (acknowledge d v).irq = false := by
  rw [Bool.eq_false_iff, Ne, Dev.irq_iff_exists_err]
  rintro ⟨x, hset, hen⟩
  have hnamed : v.getLsbD (x.bit + 8) = true := hall x hen
  rw [acknowledge, Dev.setFlags_flags, Flags.clear_has, flagSlice_getLsbD_bit, hnamed] at hset
  simp at hset

/-- WR IEN raises `irq` when it enables a flag that is set (R103, R207). -/
theorem irq_setIen_eq_true {d : Dev} {v : Word} {x : Err} (hset : d.flags.has x = true)
    (hen : v.getLsbD (x.bit + 8) = true) : (d.setIen (flagSlice v)).irq = true :=
  (Dev.irq_iff_exists_err _).mpr ⟨x, hset, (flagSlice_getLsbD_bit v x).trans hen⟩

/-! ### The obligation -/

/-- Settles O18: `irq` as the OR over the errors, before and after a write of the flags or of their
enables. -/
theorem irqIsTheOrOfEnabledFlags : Obligations.IrqIsTheOrOfEnabledFlags := by
  refine ⟨fun d => d.irq_iff_exists_err.trans Err.exists_iff,
    fun v s => ⟨s.setDev (acknowledge s.dev v), rfl, fun hall => ?_⟩,
    fun v s => ⟨s.setDev (s.dev.setIen (flagSlice v)), rfl, fun k hk hset hen => ?_⟩⟩
  · exact irq_acknowledge_eq_false fun x => hall x.bit x.bit_lt_six
  · obtain ⟨x, rfl⟩ := Err.exists_bit hk
    rw [Flags.bits_getLsbD_bit] at hset
    exact irq_setIen_eq_true hset hen

end Sys2Proof.Machine
end

section
/-! FBC's operations on the records it has not begun, on BCH and on FRAMECNT; so every operation of FBC, BRP
or CONSUMER uses up work (spec/42_fbc_ops.md R151 to R157, spec/70_reset_and_hazards.md R241, R242). -/

namespace Sys2Proof.Machine

open Sys2Proof

/-! ### FBC's operation on the device -/

/-- What an operation of FBC makes of the device where its guard holds. -/
def fbcDev (i : Instr) (d : Dev) : Except Fault Dev :=
  match i with
  | .drop => .ok (dropDev d)
  | .start =>
    match d.mq with
    | [] => .error .popEmpty
    | r :: _ => startDev r d
  | .emitPre => emit d.conf.preByte d
  | .emitSync => emitSyncDev d
  | .emitPay => emitPayDev d
  | .drainDone => .ok (d.setLc .halt)
  | _ => .ok d

theorem exec_of_fbcGuard {s : State} {i : Instr} (hg : fbcGuard s.env.params s.dev i = true) :
    exec i s = ofDev s (fbcDev i s.dev) := by
  cases i <;> simp only [fbcGuard, Bool.false_eq_true] at hg
  case start =>
    simp only [exec, execStart, fbcDev, hg, if_true]
    cases s.dev.mq <;> rfl
  all_goals exact if_pos hg

/-- An operation of FBC touches nothing around the device. -/
theorem fbcDev_of_exec {s t : State} {i : Instr} (hg : fbcGuard s.env.params s.dev i = true)
    (hx : exec i s = .next t) : ∃ e, fbcDev i s.dev = .ok e ∧ t = s.setDev e := by
  rw [exec_of_fbcGuard hg] at hx
  exact ofDev_next hx

/-! ### The records not begun and the messages counted -/

/-- FRAMECNT as it is once the message FBC is sending, if there is one, is finished (R30). -/
def framesBegun (d : Dev) : Word :=
  if d.fbc.phase = .idle then d.framecnt else satInc32 d.framecnt

theorem framesBegun_idle {d : Dev} (h : d.fbc.phase = .idle) : framesBegun d = d.framecnt := if_pos h

theorem framesBegun_busy {d : Dev} (h : d.fbc.phase ≠ .idle) : framesBegun d = satInc32 d.framecnt :=
  if_neg h

section
variable {ph : Phase} {b : Byte} {d e : Dev} {r : Msg} {rest : List Msg}

/-- Whatever phase `advance` enters, the head record has been begun and no other. -/
theorem advance_begun (hq : d.mq = r :: rest) (he : advance ph d = .ok e) :
    waiting e = rest ∧ framesBegun e = satInc32 d.framecnt := by
  rcases advance_cases he with ⟨-, -, rfl⟩ | ⟨r', rest', -, -, -, -, rfl⟩ | ⟨r', rest', hq', -, -, rfl⟩
  · exact ⟨(waiting_busy (d := enterPhase .sync _ d) (by simp)).trans (by simp [hq]),
      framesBegun_busy (d := enterPhase .sync _ d) (by simp)⟩
  · exact ⟨(waiting_busy (d := enterPhase .pay _ d) (by simp)).trans (by simp [hq]),
      framesBegun_busy (d := enterPhase .pay _ d) (by simp)⟩
  · obtain ⟨-, rfl⟩ : r = r' ∧ rest = rest' := by simpa [hq] using hq'
    exact ⟨waiting_idle (d := finished rest d) rfl, framesBegun_idle (d := finished rest d) rfl⟩

theorem startDev_begun (hq : d.mq = r :: rest) (he : startDev r d = .ok e) :
    waiting e = rest ∧ framesBegun e = satInc32 d.framecnt ∧ e.bch = d.bch := by
  rw [startDev_eq, ← latched] at he
  split at he
  · cases he
    exact ⟨(waiting_busy (d := enterPhase .pre _ (latched r d)) (by simp)).trans
        (by simp [latched, hq]), framesBegun_busy (d := enterPhase .pre _ (latched r d)) (by simp), rfl⟩
  · obtain ⟨hw, hf⟩ := advance_begun (d := latched r d) hq he
    exact ⟨hw, hf, advance_bch (d := latched r d) he⟩

/-- A byte of the head record goes to BCH; the record stays the one begun until it is finished. -/
theorem emit_begun (hp : d.fbc.phase ≠ .idle) (hq : d.mq = r :: rest) (he : emit b d = .ok e) :
    waiting e = rest ∧ framesBegun e = satInc32 d.framecnt ∧ e.bch = d.bch ++ [emitItem d.fbc b] := by
  rcases emit_cases he with ⟨-, ha⟩ | ⟨-, rfl⟩
  · obtain ⟨hw, hf⟩ := advance_begun (d := pushByte b d) hq ha
    exact ⟨hw, hf, advance_bch (d := pushByte b d) ha⟩
  · refine ⟨?_, framesBegun_busy (d := pushByte b d) hp, rfl⟩
    rw [waiting_busy (d := pushByte b d) hp, pushByte_mq, hq, List.tail_cons]

end

/-- The three operations that push a byte. -/
def Emits (i : Instr) : Prop := i = .emitPre ∨ i = .emitSync ∨ i = .emitPay

section
variable {p : Params} {i : Instr} {d e : Dev}

/-- Inside a message FBC's operation is `emit` of some byte, the head record at most one byte shorter. -/
theorem Dev.Inv.fbcDev_emits (h : d.Inv p) (hi : Emits i) (hg : fbcGuard p d i = true)
    (he : fbcDev i d = .ok e) : d.fbc.phase ≠ .idle ∧
      ∃ b r, (r :: waiting d).length = d.mq.length ∧ usedBytes (r :: waiting d) ≤ usedBytes d.mq ∧
        emit b (d.setMq (r :: waiting d)) = .ok e := by
  have hguard : ∃ ph, ph ≠ .idle ∧ d.fbc.phase = ph := by
    rcases hi with rfl | rfl | rfl <;>
      exact ⟨_, by decide, ((emitEnabled_iff p _ d).mp hg).2.1⟩
  obtain ⟨ph, hne, rfl⟩ := hguard
  refine ⟨hne, ?_⟩
  obtain ⟨r, rest, hq, -⟩ := h.head_good hne
  have hw : d.mq = r :: waiting d := by rw [waiting_busy hne, hq, List.tail_cons]
  have hsame : d.setMq (r :: waiting d) = d := by rw [← hw]; rfl
  rcases hi with rfl | rfl | rfl
  · exact ⟨_, r, by rw [← hw], by rw [← hw], by rw [hsame]; exact he⟩
  · simp only [fbcDev, emitSyncDev] at he
    split at he
    · exact ⟨_, r, by rw [← hw], by rw [← hw], by rw [hsame]; exact he⟩
    · cases he
  · simp only [fbcDev, emitPayDev, hw] at he
    split at he
    · cases he
    · next b bs hb =>
      refine ⟨b, { r with data := bs }, by rw [hw]; rfl, ?_, he⟩
      rw [hw, usedBytes_cons, usedBytes_cons, hb]
      exact Nat.add_le_add_right (Nat.le_succ _) _

theorem Dev.Inv.emits_begun (h : d.Inv p) (hi : Emits i) (hg : fbcGuard p d i = true)
    (he : fbcDev i d = .ok e) : waiting e = waiting d ∧ framesBegun e = framesBegun d ∧
      ∃ x, e.bch = d.bch ++ [x] := by
  obtain ⟨hp, b, r, -, -, he⟩ := h.fbcDev_emits hi hg he
  obtain ⟨hw, hf, hb⟩ := emit_begun (d := d.setMq (r :: waiting d)) hp rfl he
  exact ⟨hw, hf.trans (framesBegun_busy hp).symm, _, hb⟩

theorem start_begun (hg : startEnabled d = true) (he : fbcDev .start d = .ok e) :
    ∃ r, waiting d = r :: waiting e ∧ d.mq = r :: waiting e ∧ r.closed = true ∧ r.good = true ∧
      framesBegun e = satInc32 (framesBegun d) ∧ e.bch = d.bch := by
  obtain ⟨-, hidle, r, rest, hq, hc, hgood⟩ := (startEnabled_iff d).mp hg
  simp only [fbcDev, hq] at he
  obtain ⟨rfl, hf, hb⟩ := startDev_begun hq he
  exact ⟨r, (waiting_idle hidle).trans hq, hq, hc, r.good_iff.mpr hgood,
    hf.trans (congrArg satInc32 (framesBegun_idle hidle).symm), hb⟩

theorem drop_begun (hg : dropEnabled d = true) :
    ∃ r, waiting d = r :: waiting (dropDev d) ∧ d.mq = r :: waiting (dropDev d) ∧ r.closed = true ∧
      r.good = false := by
  obtain ⟨-, hidle, r, rest, hq, hc, hbad⟩ := (dropEnabled_iff d).mp hg
  have hw : waiting (dropDev d) = rest :=
    (waiting_idle (d := dropDev d) hidle).trans (by simp [dropDev, hq])
  rw [hw]
  exact ⟨r, (waiting_idle hidle).trans hq, hq, hc, by rwa [← Bool.not_eq_true, Msg.good_iff]⟩

end

/-! ### Lengths of what is owed -/

theorem tagged_length (f : Bool) (w : Word) (bs : List Byte) : (tagged f w bs).length = bs.length := by
  induction bs generalizing f with
  | nil => rfl
  | cons b bs ih => rw [tagged_cons, List.length_cons, List.length_cons, ih]

theorem frameItems_length (c : Conf) (payload : List Byte) :
    (c.frameItems payload).length = 8 * (c.preLen + c.syncLenNat + payload.length) := by
  simp only [Conf.frameItems, Conf.frameBytes, itemSymbols_length, tagged_length, List.length_append,
    List.length_replicate, Conf.syncBytes_length]

theorem pending_length (d : Dev) : (pending d).length = d.oq.length + d.brp.cnt.toNat +
    8 * d.bch.length + 8 * (restBytes d).length + (goodItems d.conf (waiting d)).length := by
  simp only [pending, List.length_append, symbolsFrom_length, itemSymbols_length, tagged_length]

/-! ### One operation, one unit of work or more -/

section
variable {i : Instr} {s t : State}

/-- The byte pushed is one fewer to push: what is owed is the same. -/
theorem work_emits (h : s.Inv) (hi : Emits i) (hg : fbcGuard s.env.params s.dev i = true)
    (hx : exec i s = .next t) : t.dev.work + 1 = s.dev.work := by
  have hk := exec_emission_keeps (.inr hi) hx
  have hlen := congrArg List.length (exec_emission_pending h (.inr hi) hx)
  obtain ⟨e, he, rfl⟩ := fbcDev_of_exec hg hx
  obtain ⟨hw, -, x, hb⟩ := Dev.Inv.emits_begun h hi hg he
  simp only [State.setDev_dev] at hk hlen ⊢
  simp only [pending_length, Dev.work, hk.oq, hk.brp, hk.conf, hk.lc, hw, hb, List.length_append,
    List.length_singleton] at hlen ⊢
  omega

/-- START's record is owed as its whole frame before and after: its bytes are now FBC's to push. -/
theorem work_start (h : s.Inv) (hg : startEnabled s.dev = true) (hx : exec .start s = .next t) :
    t.dev.work + 1 = s.dev.work := by
  have hk := exec_emission_keeps (.inl rfl) hx
  have hlen := congrArg List.length (exec_emission_pending h (.inl rfl) hx)
  obtain ⟨e, he, rfl⟩ := fbcDev_of_exec (i := .start) hg hx
  obtain ⟨r, hw, hq, hc, hgood, -, hb⟩ := start_begun hg he
  have hdata : r.data.length = r.decl.toNat :=
    (Dev.Inv.sending_latched h hg hq).unsent (by decide)
  obtain ⟨-, hidle, -⟩ := (startEnabled_iff s.dev).mp hg
  simp only [State.setDev_dev] at hk hlen ⊢
  simp only [pending_length, Dev.work, hk.oq, hk.brp, hk.conf, hk.lc, hw, hb, restBytes_idle hidle,
    goodItems_cons, hc, hgood, Bool.and_true, if_true, List.length_append, frameItems_length, hdata,
    List.length_nil, List.map_cons, List.sum_cons, recordWork] at hlen ⊢
  omega

theorem work_drop {d : Dev} (hg : dropEnabled d = true) : (dropDev d).work + 1 = d.work := by
  obtain ⟨r, hw, -, hc, hbad⟩ := drop_begun hg
  obtain ⟨-, hidle, -⟩ := (dropEnabled_iff d).mp hg
  have hidle' : (dropDev d).fbc.phase = .idle := hidle
  simp only [Dev.work, restBytes_idle hidle, restBytes_idle hidle', hw, List.map_cons, List.sum_cons,
    recordWork, hc, hbad, if_true, Bool.false_eq_true, if_false]
  simp only [dropDev, raise_oq, raise_brp, raise_bch, raise_conf, raise_lc, Dev.setMq_oq, Dev.setMq_brp,
    Dev.setMq_bch, Dev.setMq_conf, Dev.setMq_lc, reduceCtorEq, if_false]
  omega

theorem work_fbc (h : s.Inv) (hg : fbcGuard s.env.params s.dev i = true)
    (hx : exec i s = .next t) : t.dev.work + 1 = s.dev.work := by
  cases i <;> simp only [fbcGuard, Bool.false_eq_true] at hg
  case drop =>
    rw [exec_drop_of_enabled hg] at hx
    cases hx
    exact work_drop hg
  case start => exact work_start h hg hx
  case emitPre => exact work_emits h (.inl rfl) hg hx
  case emitSync => exact work_emits h (.inr (.inl rfl)) hg hx
  case emitPay => exact work_emits h (.inr (.inr rfl)) hg hx
  case drainDone =>
    obtain ⟨hlc, -⟩ := (drainDoneEnabled_iff s.dev).mp hg
    rw [exec_drainDone_of_enabled hg] at hx
    cases hx
    change (s.dev.setLc .halt).work + 1 = s.dev.work
    rw [Dev.work, Dev.work, hlc]
    rfl

/-! ### LOAD, SHIFT and POP where they are enabled -/

/-- The device after LOAD has taken the item `x` and left `rest` (R170). -/
def loaded (x : BItem) (rest : List BItem) (d : Dev) : Dev :=
  (d.setBch rest).setBrp { byte := x.byte, cnt := 8#4, sof := x.sof, tag := x.tag }

/-- LOAD meets a whole byte. -/
theorem exec_load_of_enabled (h : s.Inv) (hg : loadEnabled s.dev = true) :
    s.dev.brp.cnt = 0#4 ∧ ∃ x rest, s.dev.bch = x :: rest ∧ x.width = 8 ∧
      exec .load s = .next (s.setDev (loaded x rest s.dev)) := by
  obtain ⟨hm, h0, hne⟩ := (loadEnabled_iff s.dev).mp hg
  obtain ⟨x, rest, hq⟩ := List.exists_cons_of_ne_nil hne
  have hx : x.width = 8 := Dev.Inv.whole h x (by simp [hq])
  exact ⟨h0, x, rest, hq, hx, by rw [exec_load_of_cons hm h0 hq, if_pos hx, loaded]⟩

theorem exec_shift_of_enabled (h : s.Inv) (hg : shiftEnabled s.env.params s.dev = true) :
    s.dev.brp.cnt ≠ 0#4 ∧ exec .shift s = .next (s.setDev (shifted s.dev)) := by
  obtain ⟨hm, h0, hroom⟩ := (shiftEnabled_iff _ _).mp hg
  exact ⟨h0, exec_shift_of_bits_left hm (toNat_pos_iff_ne_zero.mpr h0) (Dev.Inv.bits_left h) hroom⟩

theorem work_brp (h : s.Inv) (ho : brpOp s.env.params s.dev = some i) (hx : exec i s = .next t) :
    t.dev.work + 1 = s.dev.work := by
  rcases brpOp_cases ho with ⟨rfl, hg⟩ | ⟨rfl, hg⟩
  · obtain ⟨h0, x, rest, hq, -, hload⟩ := exec_load_of_enabled h hg
    rw [hload] at hx
    cases hx
    change (loaded x rest s.dev).work + 1 = s.dev.work
    have hrest : restBytes (loaded x rest s.dev) = restBytes s.dev := rfl
    have hw : waiting (loaded x rest s.dev) = waiting s.dev := rfl
    simp only [Dev.work, hrest, hw, hq, h0]
    simp only [loaded, Dev.setBrp_oq, Dev.setBch_oq, Dev.setBrp_brp, Dev.setBrp_bch, Dev.setBch_bch,
      Dev.setBrp_conf, Dev.setBch_conf, Dev.setBrp_lc, Dev.setBch_lc, List.length_cons,
      BitVec.toNat_ofNat]
    omega
  · obtain ⟨h0, hshift⟩ := exec_shift_of_enabled h hg
    rw [hshift] at hx
    cases hx
    change (shifted s.dev).work + 1 = s.dev.work
    have h1 := toNat_pos_iff_ne_zero.mpr h0
    have hrest : restBytes (shifted s.dev) = restBytes s.dev := rfl
    have hw : waiting (shifted s.dev) = waiting s.dev := rfl
    simp only [Dev.work, hrest, hw]
    simp only [shifted, Dev.setBrp_oq, Dev.setOq_oq, Dev.setBrp_brp, Dev.setBrp_bch, Dev.setOq_bch,
      Dev.setBrp_conf, Dev.setOq_conf, Dev.setBrp_lc, Dev.setOq_lc, List.length_append,
      List.length_singleton, decCnt_toNat]
    omega

theorem work_pop (hq : s.dev.oq ≠ []) (hx : exec .pop s = .next t) :
    t.dev.work + 1 = s.dev.work := by
  obtain ⟨x, rest, hq⟩ := List.exists_cons_of_ne_nil hq
  rw [exec_pop_of_cons hq] at hx
  cases hx
  change (s.dev.setOq rest).work + 1 = s.dev.work
  have hrest : restBytes (s.dev.setOq rest) = restBytes s.dev := rfl
  have hw : waiting (s.dev.setOq rest) = waiting s.dev := rfl
  simp only [Dev.work, hrest, hw, hq]
  simp only [Dev.setOq_oq, Dev.setOq_brp, Dev.setOq_bch, Dev.setOq_conf, Dev.setOq_lc, List.length_cons]
  omega

/-- An enabled operation of FBC, BRP or CONSUMER. -/
def InternalOp (s : State) (i : Instr) : Prop :=
  fbcOp s.env.params s.dev = some i ∨ brpOp s.env.params s.dev = some i ∨ consumerOp s.dev = some i

/-- Every operation of FBC, BRP or CONSUMER takes exactly 1 from the work left (R241). -/
theorem work_internal (h : s.Inv) (ho : InternalOp s i) (hx : exec i s = .next t) :
    t.dev.work + 1 = s.dev.work := by
  rcases ho with ho | ho | ho
  · exact work_fbc h (fbcOp_eq_some_iff.mp ho) hx
  · exact work_brp h ho hx
  · obtain ⟨rfl, hq⟩ := consumerOp_eq_some.mp ho
    exact work_pop hq hx

end

/-! ### The obligation -/

/-- Settles O57: the work left goes down by 1. -/
theorem everyInternalOperationUsesUpWork : Obligations.EveryInternalOperationUsesUpWork :=
  fun _ _ _ h ho hx => Nat.lt_of_succ_le (work_internal h ho hx).le

end Sys2Proof.Machine
end

section
/-! Which internal agent moves the oldest data in flight, and that it can: no deadlock among FBC, BRP and
CONSUMER (spec/20_memory.md R69, spec/70_reset_and_hazards.md R242). -/

namespace Sys2Proof.Machine

open Sys2Proof

/-! ### Where the oldest data in flight stands -/

/-- 0 while OQ holds an item, else 1 while BRP has a bit left, else 2 while BCH holds an item, else 3. -/
def Dev.stage (d : Dev) : Nat :=
  if d.oq ≠ [] then 0 else if d.brp.cnt ≠ 0#4 then 1 else if d.bch ≠ [] then 2 else 3

/-- The agent that moves the oldest data in flight, and its operation. -/
def nextMove (d : Dev) : Turn × Instr :=
  match d.stage with
  | 0 => (.consumer, .pop)
  | 1 => (.brp, .shift)
  | 2 => (.brp, .load)
  | _ => (.fbc, fbcCandidate d)

section
variable {d e : Dev}

theorem Dev.stage_cases (d : Dev) : (d.stage = 0 ∧ d.oq ≠ []) ∨
    (d.stage = 1 ∧ d.oq = [] ∧ d.brp.cnt ≠ 0#4) ∨
    (d.stage = 2 ∧ d.oq = [] ∧ d.brp.cnt = 0#4 ∧ d.bch ≠ []) ∨
    (d.stage = 3 ∧ d.oq = [] ∧ d.brp.cnt = 0#4 ∧ d.bch = []) := by
  unfold Dev.stage
  split_ifs with hoq hcnt hbch
  · exact .inl ⟨rfl, hoq⟩
  · exact .inr (.inl ⟨rfl, not_not.mp hoq, hcnt⟩)
  · exact .inr (.inr (.inl ⟨rfl, not_not.mp hoq, not_not.mp hcnt, hbch⟩))
  · exact .inr (.inr (.inr ⟨rfl, not_not.mp hoq, not_not.mp hcnt, not_not.mp hbch⟩))

theorem Dev.stage_eq_three_iff : d.stage = 3 ↔ d.oq = [] ∧ d.brp.cnt = 0#4 ∧ d.bch = [] := by
  rcases d.stage_cases with ⟨hs, h⟩ | ⟨hs, -, h⟩ | ⟨hs, -, -, h⟩ | ⟨hs, h⟩ <;> simp [hs, h]

theorem nextMove_internal (d : Dev) : (nextMove d).1.internal = true := by
  rcases d.stage_cases with ⟨hs, -⟩ | ⟨hs, -⟩ | ⟨hs, -⟩ | ⟨hs, -⟩ <;> rw [nextMove, hs] <;> rfl

theorem nextMove_congr (hs : e.stage = d.stage) (hc : d.stage = 3 → fbcCandidate e = fbcCandidate d) :
    nextMove e = nextMove d := by
  unfold nextMove
  rw [hs]
  rcases d.stage_cases with ⟨h, -⟩ | ⟨h, -⟩ | ⟨h, -⟩ | ⟨h, -⟩ <;> simp only [h]
  rw [hc h]

end

/-! ### That agent has its operation enabled -/

/-- The head record of MQ is closed. -/
def Dev.headClosed (d : Dev) : Prop := ∃ r rest, d.mq = r :: rest ∧ r.closed = true

/-- With room in BCH, and a closed head record where FBC is idle, FBC has its operation enabled. -/
theorem fbcOp_eq_candidate {p : Params} {d : Dev} (hm : d.lc = .run ∨ d.lc = .drain)
    (hroom : d.bch.length < p.bcap) (hhead : d.fbc.phase = .idle → d.headClosed) :
    fbcOp p d = some (fbcCandidate d) := by
  rw [fbcOp_eq_some_iff]
  cases hph : d.fbc.phase with
  | idle =>
    obtain ⟨r, rest, hq, hc⟩ := hhead hph
    rw [fbcCandidate_cons hph hq]
    split
    · next hgood => exact (startEnabled_iff d).mpr ⟨hm, hph, r, rest, hq, hc, r.good_iff.mp hgood⟩
    · next hbad => exact (dropEnabled_iff d).mpr ⟨hm, hph, r, rest, hq, hc, mt r.good_iff.mpr hbad⟩
  | pre | sync | pay =>
    simp only [fbcCandidate, hph]
    exact (emitEnabled_iff p _ d).mpr ⟨hm, hph, hroom⟩

theorem legalParams_iff {p : Params} :
    p.legal = true ↔ 1 ≤ p.qmsgs ∧ 65535 ≤ p.qbytes ∧ 1 ≤ p.bcap ∧ 1 ≤ p.ocap := by
  simp [Params.legal, and_assoc]

section
variable {s : State}

/-- In RUN and DRAIN the agent with the oldest data in flight can move it. -/
theorem enabledOp_nextMove (h : s.Inv) (hm : s.dev.lc = .run ∨ s.dev.lc = .drain)
    (hhead : s.dev.stage = 3 → s.dev.fbc.phase = .idle → s.dev.headClosed) :
    s.enabledOp (nextMove s.dev).1 = some (nextMove s.dev).2 := by
  obtain ⟨-, -, hbcap, hocap⟩ := legalParams_iff.mp (Dev.Inv.sizes h)
  rcases s.dev.stage_cases with ⟨hs, hoq⟩ | ⟨hs, hoq, hcnt⟩ | ⟨hs, -, hcnt, hbch⟩ | ⟨hs, -, -, hbch⟩ <;>
    simp only [nextMove, hs]
  · rw [enabledOp_consumer, consumerOp_eq_some]
    exact ⟨rfl, hoq⟩
  · rw [enabledOp_brp, brpOp_eq_shift_iff, shiftEnabled_iff]
    exact ⟨hm, hcnt, by rw [hoq, List.length_nil]; omega⟩
  · rw [enabledOp_brp, brpOp_eq_load_iff, loadEnabled_iff]
    exact ⟨hm, hcnt, hbch⟩
  · rw [enabledOp_fbc]
    exact fbcOp_eq_candidate hm (by rw [hbch, List.length_nil]; omega) (hhead hs)

theorem canMove_of_enabledOp {t : Turn} {i : Instr} (ht : t.internal = true)
    (h : s.enabledOp t = some i) : s.canMove = true := by
  cases t with
  | fbc => rw [enabledOp_fbc] at h; simp [State.canMove, h]
  | brp => rw [enabledOp_brp] at h; simp [State.canMove, h]
  | consumer => rw [enabledOp_consumer] at h; simp [State.canMove, h]
  | host | producer | rst => cases ht

/-- Where no internal agent can move, FBC is idle with no closed record, and nothing is behind it. -/
theorem stuck_of_not_canMove (h : s.Inv) (hm : s.dev.lc = .run ∨ s.dev.lc = .drain)
    (hc : s.canMove = false) :
    s.dev.stage = 3 ∧ s.dev.fbc.phase = .idle ∧ ¬ s.dev.headClosed := by
  by_contra hno
  have hmove := enabledOp_nextMove h hm fun hs hidle => by
    by_contra hhead
    exact hno ⟨hs, hidle, hhead⟩
  rw [canMove_of_enabledOp (nextMove_internal _) hmove] at hc
  cases hc

end

/-- An open head record is the only one. -/
theorem Dev.Inv.mq_of_open_head {p : Params} {d : Dev} (h : d.Inv p) (hhead : ¬ d.headClosed) :
    d.mq = [] ∨ ∃ r, d.mq = [r] ∧ r.closed = false := by
  cases hq : d.mq with
  | nil => exact .inl rfl
  | cons r rest =>
    have hr : r.closed = false := Bool.eq_false_iff.mpr fun hc => hhead ⟨r, rest, hq, hc⟩
    cases rest with
    | nil => exact .inr ⟨r, rfl, hr⟩
    | cons x xs =>
      have hclosed := h.one_open r (by simp [hq])
      rw [hr] at hclosed
      cases hclosed

/-! ### The obligation -/

/-- Settles O56: where no agent can move all but an open record is gone, and DRAIN has none open, so
DRAIN_DONE is enabled. -/
theorem someAgentCanMoveWhileDataIsInFlight : Obligations.SomeAgentCanMoveWhileDataIsInFlight := by
  intro s h
  constructor
  · intro hlc
    by_contra hc
    obtain ⟨hs, hidle, hhead⟩ := stuck_of_not_canMove h (.inr hlc) (Bool.eq_false_iff.mpr hc)
    obtain ⟨hoq, hcnt, hbch⟩ := Dev.stage_eq_three_iff.mp hs
    have hmq : s.dev.mq = [] := by
      refine (Dev.Inv.mq_of_open_head h hhead).resolve_right ?_
      rintro ⟨r, hq, hr⟩
      have hclosed := Dev.Inv.all_closed h (by simp [hlc]) r (by simp [hq])
      rw [hr] at hclosed
      cases hclosed
    have hdone : fbcOp s.env.params s.dev = some .drainDone :=
      fbcOp_eq_some_iff.mpr (drainDoneEnabled_iff_empty.mpr ⟨hlc, hmq, hbch, hoq, hidle, hcnt⟩)
    exact hc (canMove_of_enabledOp (t := .fbc) rfl ((enabledOp_fbc s).trans hdone))
  · intro hlc hc
    obtain ⟨hs, hidle, hhead⟩ := stuck_of_not_canMove h (.inl hlc) hc
    obtain ⟨hoq, hcnt, hbch⟩ := Dev.stage_eq_three_iff.mp hs
    rcases Dev.Inv.mq_of_open_head h hhead with hq | ⟨r, hq, hr⟩
    · simp [hq, hidle, hbch, hcnt, hoq]
    · simp [hq, hr, hidle, hbch, hcnt, hoq]

end Sys2Proof.Machine
end

section
/-! FBC, BRP and CONSUMER commute (spec/20_memory.md R68, spec/70_reset_and_hazards.md R243): FBC only
pushes to BCH, BRP only takes from BCH and pushes to OQ, CONSUMER only takes from OQ. -/

namespace Sys2Proof.Machine

open Sys2Proof

/-! ### FBC reads nothing behind it but whether BCH has room -/

/-- The device with BCH, BRP and OQ replaced. -/
def Dev.graft (b : List BItem) (k : Brp) (o : List SItem) (d : Dev) : Dev :=
  ((d.setBch b).setBrp k).setOq o

section
variable {p : Params} {i : Instr} {ph : Phase} {c : Byte} {d e : Dev}
  {b : List BItem} {k : Brp} {o : List SItem}

theorem advance_graft (he : advance ph d = .ok e) :
    advance ph (d.graft b k o) = .ok (e.graft b k o) := by
  rcases advance_cases he with ⟨rfl, hs, rfl⟩ | ⟨r, rest, hq, hp, hs, hl, rfl⟩ |
    ⟨r, rest, hq, hs, hl, rfl⟩
  · exact advance_to_sync (d := d.graft b k o) hs
  · exact advance_to_pay (d := d.graft b k o) hq hp hs hl
  · exact advance_to_finish (d := d.graft b k o) hq hs hl

theorem emit_graft (he : emit c d = .ok e) :
    emit c (d.graft b k o) = .ok (e.graft (b ++ [emitItem d.fbc c]) k o) := by
  rcases emit_cases he with ⟨h1, ha⟩ | ⟨h2, rfl⟩
  · rw [emit_last (d := d.graft b k o) h1]
    exact advance_graft (d := pushByte c d) ha
  · exact emit_more (d := d.graft b k o) h2

theorem startDev_graft {r : Msg} (he : startDev r d = .ok e) :
    startDev r (d.graft b k o) = .ok (e.graft b k o) := by
  rw [startDev_eq, ← latched] at he
  split at he
  · next hpre =>
    cases he
    exact if_pos hpre
  · next hpre => exact (if_neg hpre).trans (advance_graft (d := latched r d) he)

/-- An operation of FBC pushes the same items whatever BCH, BRP and OQ hold, and changes nothing else of
them. -/
theorem fbcDev_graft (hi : fbcGuard p d i = true) (he : fbcDev i d = .ok e) :
    ∃ l, ∀ b k o, fbcDev i (d.graft b k o) = .ok (e.graft (b ++ l) k o) := by
  cases i <;> simp only [fbcGuard, Bool.false_eq_true] at hi
  case drop => cases he; exact ⟨[], fun b k o => by rw [List.append_nil]; rfl⟩
  case drainDone => cases he; exact ⟨[], fun b k o => by rw [List.append_nil]; rfl⟩
  case start =>
    cases hq : d.mq with
    | nil => simp [fbcDev, hq] at he
    | cons r rest =>
      simp only [fbcDev, hq] at he
      refine ⟨[], fun b k o => ?_⟩
      have hq' : (d.graft b k o).mq = r :: rest := hq
      simp only [fbcDev, hq', List.append_nil]
      exact startDev_graft he
  case emitPre => exact ⟨_, fun b k o => emit_graft he⟩
  case emitSync =>
    simp only [fbcDev, emitSyncDev] at he
    split at he
    · next hindex => exact ⟨_, fun b k o => (if_pos hindex).trans (emit_graft he)⟩
    · cases he
  case emitPay =>
    simp only [fbcDev, emitPayDev] at he
    split at he
    · cases he
    · next r rest hq =>
      split at he
      · cases he
      · next x xs hx =>
        refine ⟨[emitItem d.fbc x], fun b k o => ?_⟩
        have hq' : (d.graft b k o).mq = r :: rest := hq
        simp only [fbcDev, emitPayDev, hq', hx]
        exact emit_graft (d := d.setMq ({ r with data := xs } :: rest)) he

/-- A guard of FBC holds with less in BCH too; DRAIN_DONE needs it empty. -/
theorem fbcGuard_graft (hg : fbcGuard p d i = true) (hi : i ≠ .drainDone)
    (hlen : b.length ≤ d.bch.length) : fbcGuard p (d.graft b k o) i = true := by
  have hemit {ph : Phase} (hg : emitEnabled p ph d = true) : emitEnabled p ph (d.graft b k o) = true := by
    obtain ⟨hm, hph, hroom⟩ := (emitEnabled_iff p ph d).mp hg
    exact (emitEnabled_iff p ph _).mpr ⟨hm, hph, Nat.lt_of_le_of_lt hlen hroom⟩
  cases i <;> simp only [fbcGuard, Bool.false_eq_true] at hg
  case drop => exact hg
  case start => exact hg
  case drainDone => exact absurd rfl hi
  all_goals exact hemit hg

end

/-- What FBC's operation has left behind FBC, and what it does to the same device with BCH, BRP and OQ
changed by another agent. -/
theorem exec_fbc_graft {s u : State} {i : Instr} (hg : fbcGuard s.env.params s.dev i = true)
    (hi : i ≠ .drainDone) (hx : exec i s = .next u) :
    ∃ (l : List BItem) (e : Dev), u = s.setDev (e.graft (s.dev.bch ++ l) s.dev.brp s.dev.oq) ∧
      e.lc = s.dev.lc ∧ e.conf = s.dev.conf ∧
      ∀ (v : State) b k o, v.dev = s.dev.graft b k o → v.env.params = s.env.params →
        b.length ≤ s.dev.bch.length → exec i v = .next (v.setDev (e.graft (b ++ l) k o)) := by
  have hlc := (exec_effect hx).lc_cases
  have hm := s.dev.moving_iff.mp (moving_of_fbcGuard hg)
  have hconf := exec_keeps_conf hx (by rcases hm with hm | hm <;> simp [hm])
    (by rintro rfl; cases hg)
  obtain ⟨e, he, rfl⟩ := fbcDev_of_exec hg hx
  obtain ⟨l, hl⟩ := fbcDev_graft hg he
  have hself : fbcDev i s.dev = .ok (e.graft (s.dev.bch ++ l) s.dev.brp s.dev.oq) := hl _ _ _
  refine ⟨l, e, ?_, ?_, hconf, fun v b k o hv hp hlen => ?_⟩
  · rw [he, Except.ok.injEq] at hself
    rw [← hself]
  · refine hlc.resolve_right ?_
    rintro (⟨rfl, -⟩ | ⟨rfl, -⟩ | ⟨rfl, -⟩ | ⟨rfl, -⟩ | ⟨rfl, -⟩ | ⟨rfl, -⟩)
    case inr.inr.inr.inl => exact hi rfl
    all_goals cases hg
  · rw [exec_of_fbcGuard (by rw [hv, hp]; exact fbcGuard_graft hg hi hlen), hv, hl, ofDev_ok]

/-! ### The three pairs of agents -/

section
variable {s u v : State} {i j : Instr}

/-- With something behind FBC, FBC's operation is not DRAIN_DONE. -/
theorem ne_drainDone {p : Params} {d : Dev} (hg : fbcGuard p d i = true)
    (hne : ¬ (d.bch = [] ∧ d.brp.cnt = 0#4 ∧ d.oq = [])) : i ≠ .drainDone := by
  rintro rfl
  obtain ⟨-, -, -, hrest⟩ := (drainDoneEnabled_iff d).mp hg
  exact hne hrest

/-- The bit SHIFT sends is a matter of BRP and of the configuration (R171). -/
theorem shifted_graft {d e : Dev} (hconf : e.conf = d.conf) (b : List BItem) :
    shifted (e.graft b d.brp d.oq) = e.graft b (shifted d).brp (shifted d).oq := by
  have hitem : shiftItem (e.graft b d.brp d.oq) (8 - d.brp.cnt.toNat) =
      shiftItem d (8 - d.brp.cnt.toNat) := by
    change SItem.mk (e.conf.mapBit (bitsel _ _ e.conf.bitord)) _ _ = _
    rw [hconf]
    rfl
  change ((e.graft b d.brp d.oq).setOq
    (d.oq ++ [shiftItem (e.graft b d.brp d.oq) (8 - d.brp.cnt.toNat)])).setBrp _ = _
  rw [hitem]
  rfl

theorem fbc_commutes_with_brp (h : s.Inv) (hg : fbcGuard s.env.params s.dev i = true)
    (hj : brpOp s.env.params s.dev = some j) (hu : exec i s = .next u) (hv : exec j s = .next v) :
    ∃ t, exec j u = .next t ∧ exec i v = .next t := by
  rcases brpOp_cases hj with ⟨rfl, hgj⟩ | ⟨rfl, hgj⟩
  · obtain ⟨h0, x, rest, hq, hw, hload⟩ := exec_load_of_enabled h hgj
    obtain ⟨hm, -⟩ := (loadEnabled_iff s.dev).mp hgj
    obtain ⟨l, e, rfl, hlc, hconf, hgraft⟩ := exec_fbc_graft hg (ne_drainDone hg (by simp [hq])) hu
    rw [hload] at hv
    cases hv
    have hm' : e.lc = .run ∨ e.lc = .drain := by rwa [hlc]
    refine ⟨_, ?_, hgraft (s.setDev (loaded x rest s.dev)) rest (loaded x rest s.dev).brp s.dev.oq
      rfl rfl (by simp [hq])⟩
    rw [hq, List.cons_append]
    exact (exec_load_of_cons (s := s.setDev (e.graft (x :: (rest ++ l)) s.dev.brp s.dev.oq)) hm' h0
      rfl).trans (by rw [if_pos hw]; rfl)
  · obtain ⟨h0, hshift⟩ := exec_shift_of_enabled h hgj
    obtain ⟨hm, -, hroom⟩ := (shiftEnabled_iff _ _).mp hgj
    have h1 := toNat_pos_iff_ne_zero.mpr h0
    have h8 : s.dev.brp.cnt.toNat ≤ 8 := Dev.Inv.bits_left h
    obtain ⟨l, e, rfl, hlc, hconf, hgraft⟩ := exec_fbc_graft hg (ne_drainDone hg (by simp [h0])) hu
    rw [hshift] at hv
    cases hv
    have hm' : e.lc = .run ∨ e.lc = .drain := by rwa [hlc]
    refine ⟨_, ?_, hgraft (s.setDev (shifted s.dev)) s.dev.bch (shifted s.dev).brp (shifted s.dev).oq
      rfl rfl le_rfl⟩
    exact (exec_shift_of_bits_left (s := s.setDev (e.graft (s.dev.bch ++ l) s.dev.brp s.dev.oq))
      hm' h1 h8 hroom).trans (by rw [State.setDev_dev, shifted_graft hconf]; rfl)

theorem fbc_commutes_with_consumer (hg : fbcGuard s.env.params s.dev i = true)
    (hj : consumerOp s.dev = some j) (hu : exec i s = .next u) (hv : exec j s = .next v) :
    ∃ t, exec j u = .next t ∧ exec i v = .next t := by
  obtain ⟨rfl, hne⟩ := consumerOp_eq_some.mp hj
  obtain ⟨x, rest, hq⟩ := List.exists_cons_of_ne_nil hne
  obtain ⟨l, e, rfl, -, -, hgraft⟩ := exec_fbc_graft hg (ne_drainDone hg (by simp [hq])) hu
  rw [exec_pop_of_cons hq] at hv
  cases hv
  exact ⟨_, exec_pop_of_cons (x := x) (rest := rest) hq,
    hgraft ((s.setDev (s.dev.setOq rest)).deliver x) s.dev.bch s.dev.brp rest rfl rfl le_rfl⟩

/-- SHIFT pushes behind the item POP takes, and LOAD leaves OQ alone. -/
theorem brp_commutes_with_consumer (h : s.Inv) (hi : brpOp s.env.params s.dev = some i)
    (hj : consumerOp s.dev = some j) (hu : exec i s = .next u) (hv : exec j s = .next v) :
    ∃ t, exec j u = .next t ∧ exec i v = .next t := by
  obtain ⟨rfl, hne⟩ := consumerOp_eq_some.mp hj
  obtain ⟨x, rest, hq⟩ := List.exists_cons_of_ne_nil hne
  rw [exec_pop_of_cons hq] at hv
  cases hv
  rcases brpOp_cases hi with ⟨rfl, hg⟩ | ⟨rfl, hg⟩
  · obtain ⟨h0, y, ys, hb, hw, hload⟩ := exec_load_of_enabled h hg
    obtain ⟨hm, -⟩ := (loadEnabled_iff s.dev).mp hg
    rw [hload] at hu
    cases hu
    refine ⟨_, exec_pop_of_cons (x := x) (rest := rest) hq, ?_⟩
    exact (exec_load_of_cons (s := (s.setDev (s.dev.setOq rest)).deliver x) hm h0 hb).trans
      (by rw [if_pos hw]; rfl)
  · obtain ⟨h0, hshift⟩ := exec_shift_of_enabled h hg
    obtain ⟨hm, -, hroom⟩ := (shiftEnabled_iff _ _).mp hg
    have h1 := toNat_pos_iff_ne_zero.mpr h0
    have h8 : s.dev.brp.cnt.toNat ≤ 8 := Dev.Inv.bits_left h
    rw [hshift] at hu
    cases hu
    have hq' : (s.setDev (shifted s.dev)).dev.oq =
        x :: (rest ++ [shiftItem s.dev (8 - s.dev.brp.cnt.toNat)]) := by
      rw [State.setDev_dev, shifted, Dev.setBrp_oq, Dev.setOq_oq, hq, List.cons_append]
    refine ⟨_, exec_pop_of_cons hq', ?_⟩
    have hroom' : rest.length < s.env.params.ocap := by
      rw [hq, List.length_cons] at hroom; omega
    exact exec_shift_of_bits_left (s := (s.setDev (s.dev.setOq rest)).deliver x) hm h1 h8 hroom'

end

/-! ### The obligation -/

/-- Settles O53: pair by pair of agents. -/
theorem internalAgentsCommute : Obligations.InternalAgentsCommute := by
  rintro s u v i j h (⟨hi, hj⟩ | ⟨hi, hj⟩ | ⟨hi, hj⟩) hu hv
  · exact fbc_commutes_with_brp h (fbcOp_eq_some_iff.mp hi) hj hu hv
  · exact fbc_commutes_with_consumer (fbcOp_eq_some_iff.mp hi) hj hu hv
  · exact brp_commutes_with_consumer h hi hj hu hv

end Sys2Proof.Machine
end

section
/-! What the egress, the counters and the flags come to once the messages that have arrived are through:
no step of FBC, BRP or CONSUMER changes it, and a beat changes it in a way that reads nothing of the
schedule or of the sizes (spec/70_reset_and_hazards.md R243, R244). -/

namespace Sys2Proof.Machine

open Sys2Proof

/-! ### The egress of the messages begun -/

/-- What is owed of the messages FBC has begun. -/
def front (d : Dev) : List SItem :=
  behindFbc d ++ itemSymbols d.conf (tagged d.fbc.sof d.fbc.tag (restBytes d))

/-- Delivered, and still owed of the messages FBC has begun. -/
def State.through (s : State) : List SItem := s.env.delivered ++ front s.dev

theorem stream_eq_through (s : State) :
    s.stream = s.through ++ goodItems s.dev.conf (waiting s.dev) :=
  (List.append_assoc _ _ _).symm

theorem front_of_empty {d : Dev} (h : d.empty) : front d = [] :=
  (List.append_eq_nil_iff.mp (pending_of_empty h)).1

/-! ### The account of a state -/

/-- The record open at the ingress, the configuration, and what the messages counted so far leave: items
for CONSUMER, the two counters and the flags. -/
structure Account where
  opened : Option Msg
  conf : Conf
  items : List SItem
  ferrcnt : Word
  framecnt : Word
  flags : Flags

namespace Account

/-- An arrived message settled: a good one gives its frame and counts in FRAMECNT, a bad one raises
FramingError (R151, R152, R182). -/
def settle (a : Account) (r : Msg) : Account :=
  if r.good then { a with items := a.items ++ a.conf.frameItems r.data, framecnt := satInc32 a.framecnt }
  else { a with ferrcnt := satInc32 a.ferrcnt, flags := { a.flags with framingErr := true } }

def setOpened (o : Option Msg) (a : Account) : Account := { a with opened := o }

/-- ProtocolError (R205). -/
def protocolError (a : Account) : Account := { a with flags := { a.flags with protoErr := true } }

/-- The records among some that have arrived, settled in order. -/
def settleAll (a : Account) (q : List Msg) : Account := (q.filter Msg.closed).foldl settle a

/-- What an accepted beat does (R131 to R134). -/
def arrive (a : Account) (w : BitVec 18) : Account :=
  match beatKind w, a.opened with
  | .head, none => a.setOpened (some (Msg.fresh (beatLen w)))
  | .data, some r => a.setOpened (some (r.addByte (beatByte w)))
  | .msgEnd, some r => (a.settle r).setOpened none
  | _, _ => a.protocolError

section
variable (a : Account) (r : Msg) (o : Option Msg) (q q' : List Msg)

theorem settle_setOpened : (a.setOpened o).settle r = (a.settle r).setOpened o := by
  unfold settle
  split <;> rfl

theorem settle_protocolError : a.protocolError.settle r = (a.settle r).protocolError := by
  unfold settle
  split <;> rfl

@[simp] theorem settle_opened : (a.settle r).opened = a.opened := by
  unfold settle
  split <;> rfl

@[simp] theorem settle_conf : (a.settle r).conf = a.conf := by
  unfold settle
  split <;> rfl

theorem settle_items : (a.settle r).items = a.items ++ if r.good then a.conf.frameItems r.data else [] := by
  unfold settle
  split
  · rfl
  · exact (List.append_nil _).symm

theorem settleAll_setOpened : (a.setOpened o).settleAll q = (a.settleAll q).setOpened o :=
  List.foldl_hom (setOpened o) fun b x => settle_setOpened b x o

theorem settleAll_protocolError : a.protocolError.settleAll q = (a.settleAll q).protocolError :=
  List.foldl_hom protocolError settle_protocolError

theorem settleAll_append : a.settleAll (q ++ q') = (a.settleAll q).settleAll q' := by
  rw [settleAll, List.filter_append, List.foldl_append]
  rfl

theorem settleAll_cons_closed {r : Msg} (hr : r.closed = true) :
    a.settleAll (r :: q) = (a.settle r).settleAll q := by
  rw [settleAll, List.filter_cons_of_pos hr]
  rfl

/-- A record that is open has not arrived. -/
theorem settleAll_open {q : List Msg} (hq : ∀ r ∈ q, r.closed = false) : a.settleAll q = a := by
  have hnil : q.filter Msg.closed = [] := List.filter_eq_nil_iff.mpr fun r hr => by simp [hq r hr]
  rw [settleAll, hnil]
  rfl

@[simp] theorem settleAll_opened : (a.settleAll q).opened = a.opened := by
  unfold settleAll
  induction q.filter Msg.closed generalizing a with
  | nil => rfl
  | cons r rest ih => exact (ih (a.settle r)).trans (a.settle_opened r)

end

end Account

/-- What stands when the messages FBC has begun are through. -/
def State.begun (s : State) : Account :=
  { opened := openMsg (waiting s.dev), conf := s.dev.conf, items := s.through,
    ferrcnt := s.dev.ferrcnt, framecnt := framesBegun s.dev, flags := s.dev.flags }

/-- What stands when all the messages that have arrived are through. -/
def State.account (s : State) : Account := s.begun.settleAll (waiting s.dev)

/-! ### The operations of FBC, BRP and CONSUMER -/

section
variable {i : Instr} {s t : State}

/-- With the same records not begun, what is owed of the others is the same when the stream is. -/
theorem through_of_stream (hs : t.stream = s.stream) (hw : waiting t.dev = waiting s.dev)
    (hc : t.dev.conf = s.dev.conf) : t.through = s.through := by
  rw [stream_eq_through, stream_eq_through, hw, hc] at hs
  exact List.append_cancel_right hs

/-- Under operations that begin no record the account so far is the same. -/
theorem begun_congr (hs : t.stream = s.stream) (hw : waiting t.dev = waiting s.dev)
    (hc : t.dev.conf = s.dev.conf) (hferr : t.dev.ferrcnt = s.dev.ferrcnt)
    (hframe : framesBegun t.dev = framesBegun s.dev) (hflags : t.dev.flags = s.dev.flags) :
    t.begun = s.begun := by
  rw [State.begun, State.begun, through_of_stream hs hw hc, hw, hc, hferr, hframe, hflags]

/-- A closed record before others is not the one open. -/
theorem openMsg_cons_closed {r : Msg} (hr : r.closed = true) (q : List Msg) :
    openMsg (r :: q) = openMsg q := by
  rcases List.eq_nil_or_concat q with rfl | ⟨l, x, rfl⟩
  · simp [openMsg, hr]
  · rw [List.concat_eq_append, ← List.cons_append, openMsg_append, openMsg_append]

theorem begun_start (h : s.Inv) (hg : startEnabled s.dev = true) (hx : exec .start s = .next t) :
    ∃ r, s.dev.mq = r :: waiting t.dev ∧ waiting s.dev = r :: waiting t.dev ∧ r.closed = true ∧
      t.begun = s.begun.settle r := by
  have hk := exec_emission_keeps (.inl rfl) hx
  have hs := exec_keeps_stream h hx (by decide) (by decide) (by decide)
  obtain ⟨e, he, rfl⟩ := fbcDev_of_exec (i := .start) hg hx
  obtain ⟨r, hw, hq, hc, hgood, hf, -⟩ := start_begun hg he
  refine ⟨r, hq, hw, hc, ?_⟩
  rw [stream_eq_through, stream_eq_through, hw, goodItems_cons, hc, hgood, ← List.append_assoc,
    hk.conf] at hs
  rw [Account.settle, if_pos hgood, State.begun, State.begun, List.append_cancel_right hs, hk.conf,
    hk.ferrcnt, hk.flags, hw, openMsg_cons_closed hc]
  exact congrArg (Account.mk _ _ _ _ · _) hf

theorem begun_drop (h : s.Inv) (hg : dropEnabled s.dev = true) (hx : exec .drop s = .next t) :
    ∃ r, s.dev.mq = r :: waiting t.dev ∧ waiting s.dev = r :: waiting t.dev ∧ r.closed = true ∧
      t.begun = s.begun.settle r := by
  have hs := exec_keeps_stream h hx (by decide) (by decide) (by decide)
  rw [exec_drop_of_enabled hg] at hx
  cases hx
  obtain ⟨r, hw, hq, hc, hbad⟩ := drop_begun hg
  refine ⟨r, hq, hw, hc, ?_⟩
  have hconf : (dropDev s.dev).conf = s.dev.conf := rfl
  rw [stream_eq_through, stream_eq_through, hw, goodItems_cons, hbad, Bool.and_false,
    State.setDev_dev, hconf] at hs
  rw [Account.settle, hbad, State.begun, State.begun, List.append_cancel_right hs, hw,
    openMsg_cons_closed hc]
  rfl

/-- FBC takes up the closed record at the head, or begins none. -/
theorem begun_fbc (h : s.Inv) (hg : fbcGuard s.env.params s.dev i = true) (hx : exec i s = .next t) :
    ((i = .drop ∨ i = .start) ∧ ∃ r, s.dev.mq = r :: waiting t.dev ∧
      waiting s.dev = r :: waiting t.dev ∧ r.closed = true ∧ t.begun = s.begun.settle r) ∨
    ((i ≠ .drop ∧ i ≠ .start) ∧ waiting t.dev = waiting s.dev ∧ t.begun = s.begun) := by
  have hemits (hi : Emits i) : waiting t.dev = waiting s.dev ∧ t.begun = s.begun := by
    have hk := exec_emission_keeps (.inr hi) hx
    have hs : t.stream = s.stream := by
      rw [State.stream, State.stream, exec_emission_pending h (.inr hi) hx,
        exec_emission_env (.inr hi) hx]
    obtain ⟨e, he, rfl⟩ := fbcDev_of_exec hg hx
    obtain ⟨hw, hf, -⟩ := Dev.Inv.emits_begun h hi hg he
    exact ⟨hw, begun_congr hs hw hk.conf hk.ferrcnt hf hk.flags⟩
  cases i <;> simp only [fbcGuard, Bool.false_eq_true] at hg
  case drop => exact .inl ⟨.inl rfl, begun_drop h hg hx⟩
  case start => exact .inl ⟨.inr rfl, begun_start h hg hx⟩
  case emitPre => exact .inr ⟨by decide, hemits (.inl rfl)⟩
  case emitSync => exact .inr ⟨by decide, hemits (.inr (.inl rfl))⟩
  case emitPay => exact .inr ⟨by decide, hemits (.inr (.inr rfl))⟩
  case drainDone =>
    rw [exec_drainDone_of_enabled hg] at hx
    cases hx
    exact .inr ⟨by decide, rfl, rfl⟩

theorem begun_brp (h : s.Inv) (ho : brpOp s.env.params s.dev = some i) (hx : exec i s = .next t) :
    waiting t.dev = waiting s.dev ∧ t.begun = s.begun := by
  rcases brpOp_cases ho with ⟨rfl, hg⟩ | ⟨rfl, hg⟩
  · have hs := exec_keeps_stream h hx (by decide) (by decide) (by decide)
    obtain ⟨-, x, rest, -, -, hload⟩ := exec_load_of_enabled h hg
    rw [hload] at hx
    cases hx
    exact ⟨rfl, begun_congr hs rfl rfl rfl rfl rfl⟩
  · have hs := exec_keeps_stream h hx (by decide) (by decide) (by decide)
    obtain ⟨-, hshift⟩ := exec_shift_of_enabled h hg
    rw [hshift] at hx
    cases hx
    exact ⟨rfl, begun_congr hs rfl rfl rfl rfl rfl⟩

theorem begun_pop (h : s.Inv) (hx : exec .pop s = .next t) :
    waiting t.dev = waiting s.dev ∧ t.begun = s.begun := by
  have hs := exec_keeps_stream h hx (by decide) (by decide) (by decide)
  cases hq : s.dev.oq with
  | nil => rw [exec_pop_of_nil hq] at hx; cases hx; exact ⟨rfl, rfl⟩
  | cons x rest =>
    rw [exec_pop_of_cons hq] at hx
    cases hx
    exact ⟨rfl, begun_congr hs rfl rfl rfl rfl rfl⟩

/-- FBC, BRP and CONSUMER leave the account as it is. -/
theorem account_internal (h : s.Inv) (ho : InternalOp s i) (hx : exec i s = .next t) :
    t.account = s.account := by
  have hsame : waiting t.dev = waiting s.dev ∧ t.begun = s.begun → t.account = s.account := by
    rintro ⟨hw, hb⟩
    rw [State.account, State.account, hw, hb]
  rcases ho with ho | ho | ho
  · rcases begun_fbc h (fbcOp_eq_some_iff.mp ho) hx with ⟨-, r, -, hw, hc, hb⟩ | ⟨-, hkept⟩
    · rw [State.account, State.account, hw, hb, Account.settleAll_cons_closed _ _ hc]
    · exact hsame hkept
  · exact hsame (begun_brp h ho hx)
  · obtain ⟨rfl, -⟩ := consumerOp_eq_some.mp ho
    exact hsame (begun_pop h hx)

end

/-! ### The beats -/

/-- Records put behind the one FBC sends are not begun. -/
theorem waiting_setMq_append {d : Dev} {l : List Msg} (hl : d.fbc.phase ≠ .idle → l ≠ [])
    (q : List Msg) : waiting (d.setMq (l ++ q)) = waiting (d.setMq l) ++ q := by
  by_cases hp : d.fbc.phase = .idle
  · exact (waiting_idle (d := d.setMq (l ++ q)) hp).trans
      (congrArg (· ++ q) (waiting_idle (d := d.setMq l) hp)).symm
  · rw [waiting_busy (d := d.setMq (l ++ q)) hp, waiting_busy (d := d.setMq l) hp]
    exact List.tail_append_of_ne_nil (hl hp)

/-- Nor do they change what is owed of the messages begun. -/
theorem front_setMq_append {d : Dev} {l : List Msg} (hl : d.fbc.phase ≠ .idle → l ≠ [])
    (q : List Msg) : front (d.setMq (l ++ q)) = front (d.setMq l) := by
  have hs := pending_setMq_append hl q
  change front _ ++ goodItems d.conf (waiting (d.setMq (l ++ q))) =
    (front _ ++ goodItems d.conf (waiting (d.setMq l))) ++ goodItems d.conf q at hs
  rw [waiting_setMq_append hl, goodItems_append, List.append_assoc] at hs
  exact List.append_cancel_right hs

section
variable {s t : State}

/-- The newest records of MQ replaced: what is begun is the same but for the record open. -/
theorem begun_setMq_append {l q : List Msg} (hq : s.dev.mq = l ++ q)
    (hl : s.dev.fbc.phase ≠ .idle → l ≠ []) (q' : List Msg) :
    (s.setDev (s.dev.setMq (l ++ q'))).begun =
      s.begun.setOpened (openMsg (waiting (s.dev.setMq l) ++ q')) := by
  have hd : s.dev = s.dev.setMq (l ++ q) := by rw [← hq]; rfl
  have hfront : front (s.dev.setMq (l ++ q')) = front s.dev := by
    conv_rhs => rw [hd, front_setMq_append hl]
    exact front_setMq_append hl q'
  have hthrough : (s.setDev (s.dev.setMq (l ++ q'))).through = s.through :=
    congrArg (s.env.delivered ++ ·) hfront
  rw [State.begun, hthrough, State.setDev_dev, waiting_setMq_append hl]
  rfl

/-- The account after the newest record, open or none, is replaced by `q'`. -/
theorem account_setMq_append {l q : List Msg} (hq : s.dev.mq = l ++ q) (ho : ∀ r ∈ q, r.closed = false)
    (hl : s.dev.fbc.phase ≠ .idle → l ≠ []) (q' : List Msg) :
    (s.setDev (s.dev.setMq (l ++ q'))).account =
      (s.account.settleAll q').setOpened (openMsg (waiting (s.dev.setMq l) ++ q')) := by
  have hw : waiting s.dev = waiting (s.dev.setMq l) ++ q := by
    rw [← waiting_setMq_append hl, ← hq]; rfl
  rw [State.account, begun_setMq_append hq hl, State.setDev_dev, waiting_setMq_append hl,
    Account.settleAll_setOpened, Account.settleAll_append, State.account, hw,
    Account.settleAll_append _ _ q, Account.settleAll_open _ ho]

/-- An idle FBC waits for all records; a busy one sends a closed head record. -/
theorem Dev.Inv.openMsg_waiting {p : Params} {d : Dev} (h : d.Inv p) :
    openMsg (waiting d) = openMsg d.mq := by
  by_cases hp : d.fbc.phase = .idle
  · rw [waiting_idle hp]
  · obtain ⟨r, rest, hq, hc, -⟩ := h.head_good hp
    rw [waiting_busy hp, hq, openMsg_cons_closed hc, List.tail_cons]

theorem account_opened (h : s.Inv) : s.account.opened = openMsg s.dev.mq :=
  (Account.settleAll_opened _ _).trans (Dev.Inv.openMsg_waiting h)

/-- A busy FBC sends a record of MQ. -/
theorem Dev.Inv.mq_ne_nil_of_busy {p : Params} {d : Dev} (h : d.Inv p) (hp : d.fbc.phase ≠ .idle) :
    d.mq ≠ [] := by
  obtain ⟨r, rest, hq, -⟩ := h.head_good hp
  simp [hq]

theorem account_protocol (s : State) :
    (s.setDev (raise .protocol s.dev)).account = s.account.protocolError :=
  Account.settleAll_protocolError s.begun (waiting s.dev)

theorem account_headDev (h : s.Inv) (n : BitVec 16) (ho : openMsg s.dev.mq = none) :
    (s.setDev (headDev n s.dev)).account = s.account.setOpened (some (Msg.fresh n)) := by
  rw [headDev_of_none_open ho, account_setMq_append (List.append_nil _).symm (by simp)
    (Dev.Inv.mq_ne_nil_of_busy h), Account.settleAll_open _ (by simp [Msg.fresh]), openMsg_append]
  rfl

theorem account_dataDev (h : s.Inv) (b : Byte) {l : List Msg} {r : Msg} (hq : s.dev.mq = l ++ [r])
    (hr : r.closed = false) :
    (s.setDev (dataDev b s.dev)).account = s.account.setOpened (some (r.addByte b)) := by
  have hr' : (r.addByte b).closed = false := hr
  rw [dataDev_of_open hq hr, account_setMq_append hq (by simpa using hr)
    (Dev.Inv.ne_nil_before_open h hq hr), Account.settleAll_open _ (by simpa using hr'),
    openMsg_append, hr']
  rfl

theorem account_endDev (h : s.Inv) {l : List Msg} {r : Msg} (hq : s.dev.mq = l ++ [r])
    (hr : r.closed = false) :
    (s.setDev (endDev s.dev)).account = (s.account.settle r).setOpened none := by
  rw [endDev_of_open hq hr, account_setMq_append hq (by simpa using hr)
    (Dev.Inv.ne_nil_before_open h hq hr), openMsg_append]
  rfl

/-- An accepted beat does to the account what `arrive` says. -/
theorem account_beat (h : s.Inv) {w : BitVec 18}
    (hr : inReady s.env.params s.dev (beatKind w) = true) (hx : exec (decodeBeat w) s = .next t) :
    t.account = s.account.arrive w := by
  have hlc := run_of_inReady hr
  have hopened := account_opened h
  rw [decodeBeat_of_kind] at hx
  unfold Account.arrive
  rw [hopened]
  cases hk : beatKind w <;> rw [hk] at hr <;> simp only [hk] at hx
  case head =>
    rw [exec_head_accepted hr] at hx
    cases hx
    cases ho : openMsg s.dev.mq with
    | none => exact account_headDev h _ ho
    | some r =>
      obtain ⟨hq, hc⟩ := openMsg_eq_some.mp ho
      rw [headDev_of_open hq hc]
      exact account_protocol s
  case data =>
    rw [exec_data_accepted hr] at hx
    cases hx
    cases ho : openMsg s.dev.mq with
    | none => rw [dataDev_of_none_open ho]; exact account_protocol s
    | some r =>
      obtain ⟨hq, hc⟩ := openMsg_eq_some.mp ho
      exact account_dataDev h _ hq hc
  case msgEnd =>
    rw [exec_msgEnd_of_run hlc] at hx
    cases hx
    cases ho : openMsg s.dev.mq with
    | none => rw [endDev_of_none_open ho]; exact account_protocol s
    | some r =>
      obtain ⟨hq, hc⟩ := openMsg_eq_some.mp ho
      exact account_endDev h hq hc
  case rsvd =>
    rw [exec_rsvd_of_run hlc] at hx
    cases hx
    exact account_protocol s

end

/-! ### Runs -/

/-- What stands when all the beats PRODUCER still offers have arrived too. -/
def State.final (s : State) : Account := s.env.beatQ.foldl Account.arrive s.account

section
variable {s t : State}

theorem final_internal (h : s.Inv) (hint : s.nextTurn.internal = true) (hx : step s = .next t) :
    t.final = s.final := by
  rcases step_cases hx with ⟨-, rfl⟩ | ⟨hrst, -⟩ | ⟨i, u, hf, hx⟩
  · rfl
  · rw [hrst] at hint; cases hint
  · have hop : u = s.takeTurn ∧ InternalOp u i := by
      rcases fetch_run_cases hf with ⟨hp, -⟩ | ⟨hp, -⟩ | ⟨-, ho, rfl⟩ | ⟨-, ho, rfl⟩ | ⟨-, ho, rfl⟩
      · rw [hp] at hint; cases hint
      · rw [hp] at hint; cases hint
      · exact ⟨rfl, .inl ho⟩
      · exact ⟨rfl, .inr (.inl ho)⟩
      · exact ⟨rfl, .inr (.inr ho)⟩
    obtain ⟨rfl, ho⟩ := hop
    obtain ⟨-, -, -, -, hbeat⟩ := exec_keeps_inputs hx
    rw [State.final, hbeat, account_internal (s := s.takeTurn) h ho hx]
    rfl

theorem final_producer (h : s.Inv) (hturn : s.nextTurn = .producer) (hx : step s = .next t) :
    t.final = s.final := by
  rcases producer_step_cases hturn hx with ⟨rfl, -⟩ | ⟨w, ws, hq, hr, hx⟩
  · rfl
  · obtain ⟨-, -, -, -, hbeat⟩ := exec_keeps_inputs hx
    rw [State.final, State.final, hbeat, hq,
      account_beat (s := s.takeTurn.setBeatQ ws) h hr hx]
    rfl

/-- At rest with no beat left, the account is what is delivered, counted and flagged. -/
theorem final_of_quiescent (h : s.quiescent) : s.final.items = s.env.delivered ∧
    s.final.ferrcnt = s.dev.ferrcnt ∧ s.final.framecnt = s.dev.framecnt ∧
    s.final.flags = s.dev.flags := by
  obtain ⟨-, hbeat, hempty⟩ := h
  have hfront := front_of_empty hempty
  obtain ⟨hmq, -, -, hidle, -⟩ := hempty
  have hfinal : s.final = s.begun := by
    rw [State.final, hbeat, State.account, waiting_idle hidle, hmq]
    rfl
  rw [hfinal]
  refine ⟨?_, rfl, framesBegun_idle hidle, rfl⟩
  exact (congrArg (s.env.delivered ++ ·) hfront).trans (List.append_nil _)

theorem final_of_run {n : Nat} (h : s.Inv) (hn : s.env.schedule.length = n)
    (hC : ∀ x ∈ s.env.schedule, x.internal = true ∨ x = .producer)
    (hrun : Sys2Proof.core.run n s = .next t) : t.final = s.final :=
  (run_schedule_induction (C := fun x => x.internal = true ∨ x = .producer)
    (P := fun u => u.Inv ∧ u.final = s.final)
    (fun _ _ ⟨hu, hs⟩ hx hv => ⟨step_keeps_inv hu hv,
      (hx.elim (final_internal hu · hv) (final_producer hu · hv)).trans hs⟩)
    n s t ⟨h, rfl⟩ hn hC hrun).2

end

/-! ### The obligation -/

/-- Settles O54: both runs end in the account of the state they begin in, which reads the device, the items
delivered and the beats alone. -/
theorem egressDoesNotDependOnTheSchedule : Obligations.EgressDoesNotDependOnTheSchedule := by
  intro s₁ s₂ t₁ t₂ n₁ n₂ h₁ h₂ hdev _ hbeat hdel hn₁ hn₂ hC hrun₁ hrun₂ hrest₁ hrest₂
  have hstart : s₁.final = s₂.final := by
    simp only [State.final, State.account, State.begun, State.through, hdev, hbeat, hdel]
  have hend : t₁.final = t₂.final := by
    rw [final_of_run h₁ hn₁ (fun x hx => hC x (List.mem_append_left _ hx)) hrun₁, hstart,
      final_of_run h₂ hn₂ (fun x hx => hC x (List.mem_append_right _ hx)) hrun₂]
  obtain ⟨hi₁, he₁, hf₁, hg₁⟩ := final_of_quiescent hrest₁
  obtain ⟨hi₂, he₂, hf₂, hg₂⟩ := final_of_quiescent hrest₂
  exact ⟨by rw [← hi₁, hend, hi₂], by rw [← he₁, hend, he₂], by rw [← hf₁, hend, hf₂],
    by rw [← hg₁, hend, hg₂]⟩

end Sys2Proof.Machine
end

section
/-! Runs that are weakly fair to FBC, BRP and CONSUMER and are not cut short: every symbol owed is delivered
and every record that has arrived is taken up in its turn (spec/70_reset_and_hazards.md R241). -/

namespace Sys2Proof.Machine

open Sys2Proof

/-! ### The steps of HOST and PRODUCER -/

/-- The newest records of MQ, none of which has arrived, are others, and on the way to the egress nothing
changed; the configuration is the same unless nothing is in flight. -/
structure Dev.NewestChanged (d e : Dev) : Prop where
  mq : ∃ l q q', d.mq = l ++ q ∧ e.mq = l ++ q' ∧ (∀ r ∈ q, r.closed = false) ∧
    (d.fbc.phase ≠ .idle → l ≠ [])
  fbc : e.fbc = d.fbc
  bch : e.bch = d.bch
  brp : e.brp = d.brp
  oq : e.oq = d.oq
  conf : e.conf = d.conf ∨ d.empty

section
variable {p : Params} {d e : Dev}

theorem Dev.Inv.newestChanged_of_same (h : d.Inv p) (hmq : e.mq = d.mq) (hfbc : e.fbc = d.fbc)
    (hbch : e.bch = d.bch) (hbrp : e.brp = d.brp) (hoq : e.oq = d.oq)
    (hconf : e.conf = d.conf ∨ d.empty) : d.NewestChanged e :=
  ⟨⟨d.mq, [], [], (List.append_nil _).symm, by rw [hmq, List.append_nil], by simp,
    h.mq_ne_nil_of_busy⟩, hfbc, hbch, hbrp, hoq, hconf⟩

theorem Dev.Inv.newestChanged_raise (h : d.Inv p) (x : Err) : d.NewestChanged (Machine.raise x d) :=
  h.newestChanged_of_same (raise_mq x d) (raise_fbc x d) (raise_bch x d) (raise_brp x d) (raise_oq x d)
    (.inl (raise_conf x d))

/-- The open record replaced by `q'`, whatever becomes of LC. -/
theorem Dev.Inv.newestChanged_open (h : d.Inv p) {r : Msg} (ho : openMsg d.mq = some r) (q' : List Msg)
    (x : LC) : d.NewestChanged ((d.setMq (d.mq.dropLast ++ q')).setLc x) := by
  obtain ⟨hq, hr⟩ := openMsg_eq_some.mp ho
  exact ⟨⟨_, [r], q', hq, rfl, by simpa using hr, h.ne_nil_before_open hq hr⟩, rfl, rfl, rfl, rfl, .inl rfl⟩

theorem Dev.Inv.newestChanged_stop (h : d.Inv p) : d.NewestChanged (stopDev d) := by
  cases ho : openMsg d.mq with
  | none =>
    rw [stopDev_of_none_open (openMsg_eq_none.mp ho)]
    exact h.newestChanged_of_same rfl rfl rfl rfl rfl (.inl rfl)
  | some r =>
    obtain ⟨hq, hr⟩ := openMsg_eq_some.mp ho
    have hstop := h.newestChanged_open ho [] .drain
    rwa [List.append_nil, ← stopDev_of_open hq hr] at hstop

/-- An operation of a port word, if it is not ABORT or SRST, changes the newest records at most. -/
theorem Effect.newestChanged {i : Instr} {s t : State} (h : Effect i s t) (hinv : s.Inv)
    (hport : i.portSelected = true) (habort : i ≠ .abort) (hsrst : i ≠ .srst) :
    s.dev.NewestChanged t.dev ∧ t.env.delivered = s.env.delivered := by
  cases h with
  | refuse => exact ⟨Dev.Inv.newestChanged_raise hinv .access, rfl⟩
  | discard => exact ⟨Dev.Inv.newestChanged_raise hinv .protocol, rfl⟩
  | setConf c _ hlc =>
    exact ⟨Dev.Inv.newestChanged_of_same hinv rfl rfl rfl rfl rfl
      (.inr (Dev.Inv.still_empty hinv (.inl hlc))), rfl⟩
  | commit =>
    rw [State.setDev_dev, commitDev_update]
    exact ⟨Dev.Inv.newestChanged_of_same hinv rfl rfl rfl rfl rfl (.inl rfl), rfl⟩
  | stop => exact ⟨Dev.Inv.newestChanged_stop hinv, rfl⟩
  | openRecord n =>
    exact ⟨⟨⟨s.dev.mq, [], _, (List.append_nil _).symm, rfl, by simp, Dev.Inv.mq_ne_nil_of_busy hinv⟩,
      rfl, rfl, rfl, rfl, .inl rfl⟩, rfl⟩
  | countByte b r _ ho => exact ⟨Dev.Inv.newestChanged_open hinv ho _ s.dev.lc, rfl⟩
  | closeRecord r _ ho => exact ⟨Dev.Inv.newestChanged_open hinv ho _ s.dev.lc, rfl⟩
  | abort => exact absurd rfl habort
  | srst => exact absurd rfl hsrst
  | emission hi => rcases hi with rfl | rfl | rfl | rfl <;> cases hport
  | drop | drainDone | load | misaligned | shift | pop => cases hport
  | same | read | map | acknowledge | setIen =>
    exact ⟨Dev.Inv.newestChanged_of_same hinv rfl rfl rfl rfl rfl (.inl rfl), rfl⟩

/-! ### What such a step leaves of the messages begun and of those that have arrived -/

theorem Dev.NewestChanged.front_eq_nil (h : d.NewestChanged e) (hd : d.empty) :
    front e = [] := by
  obtain ⟨-, hbch, hoq, hidle, hcnt⟩ := hd
  rw [front, behindFbc, h.oq, h.bch, h.brp, hoq, hbch, hcnt, restBytes_idle (h.fbc ▸ hidle), tagged_nil]
  rfl

theorem Dev.NewestChanged.front_eq (h : d.NewestChanged e) : front e = front d := by
  rcases h.conf with hconf | hempty
  · obtain ⟨l, q, q', hq, hq', -, hl⟩ := h.mq
    have hd : front d = front (d.setMq l) := by
      rw [← front_setMq_append hl q, ← hq]
      rfl
    have he : front e = front (d.setMq e.mq) := by
      simp only [front, behindFbc, restBytes, h.oq, h.brp, h.bch, h.fbc, hconf, Dev.setMq_oq,
        Dev.setMq_brp, Dev.setMq_bch, Dev.setMq_fbc, Dev.setMq_conf, Dev.setMq_mq]
    rw [he, hq', front_setMq_append hl, hd]
  · rw [h.front_eq_nil hempty, front_of_empty hempty]

/-- Arrived records at the head of a queue stand before those that have not arrived. -/
theorem closed_prefix_of_append {c l q : List Msg} (hc : ∀ r ∈ c, r.closed = true)
    (hq : ∀ r ∈ q, r.closed = false) (h : c <+: l ++ q) : c <+: l := by
  obtain ⟨x, hx⟩ := h
  rcases List.append_eq_append_iff.mp hx with ⟨y, rfl, -⟩ | ⟨y, rfl, rfl⟩
  · exact List.prefix_append c y
  · cases y with
    | nil => rw [List.append_nil]
    | cons r rest =>
      have hclosed := hc r (by simp)
      rw [hq r (by simp)] at hclosed
      cases hclosed

theorem Dev.NewestChanged.waiting_prefix (h : d.NewestChanged e) {c : List Msg}
    (hc : ∀ r ∈ c, r.closed = true) (hpre : c <+: waiting d) : c <+: waiting e := by
  obtain ⟨l, q, q', hq, hq', ho, hl⟩ := h.mq
  have hd : waiting d = waiting (d.setMq l) ++ q := by rw [← waiting_setMq_append hl, ← hq]; rfl
  have he : waiting e = waiting (d.setMq l) ++ q' := by
    rw [← waiting_setMq_append hl, ← hq', waiting, h.fbc]
    rfl
  rw [hd] at hpre
  rw [he]
  exact (closed_prefix_of_append hc ho hpre).trans (List.prefix_append _ _)

theorem fbcCandidate_congr (hfbc : e.fbc = d.fbc)
    (hhead : d.fbc.phase = .idle → ∃ r x y, d.mq = r :: x ∧ e.mq = r :: y) :
    fbcCandidate e = fbcCandidate d := by
  by_cases hp : d.fbc.phase = .idle
  · obtain ⟨r, x, y, hd, he⟩ := hhead hp
    rw [fbcCandidate_cons hp hd, fbcCandidate_cons (hfbc ▸ hp) he]
  · cases hph : d.fbc.phase with
    | idle => exact absurd hph hp
    | pre | sync | pay => simp only [fbcCandidate, hfbc, hph]

/-- The oldest data in flight, and who moves it, are the same. -/
theorem Dev.NewestChanged.nextMove_eq (h : d.NewestChanged e)
    (hhead : d.stage = 3 → d.fbc.phase = .idle → d.headClosed) :
    e.stage = d.stage ∧ nextMove e = nextMove d := by
  have hs : e.stage = d.stage := by unfold Dev.stage; rw [h.oq, h.brp, h.bch]
  refine ⟨hs, nextMove_congr hs fun h3 => fbcCandidate_congr h.fbc fun hidle => ?_⟩
  obtain ⟨r, rest, hq, hc⟩ := hhead h3 hidle
  obtain ⟨l, q, q', hd, he, ho, -⟩ := h.mq
  have hpre : [r] <+: l := by
    refine closed_prefix_of_append (by simpa using hc) ho ?_
    rw [← hd, hq]
    exact List.prefix_append [r] rest
  obtain ⟨x, rfl⟩ := hpre
  exact ⟨r, rest, x ++ q', hq, he⟩

end

/-! ### A step that is not cut short -/

section
variable {s u : State} {t : Turn}

/-- A step that is not cut short changes the newest records at most, or is an operation of FBC, BRP or
CONSUMER. -/
theorem stepOf_uncut (h : s.Inv) (hx : stepOf t s = .next u) (hcut : ¬ s.cutBy t) :
    (s.dev.NewestChanged u.dev ∧ u.env.delivered = s.env.delivered ∧
      (t.internal = true → s.enabledOp t = none)) ∨
    (∃ i, t.internal = true ∧ s.enabledOp t = some i ∧ exec i (s.giveTurn t).takeTurn = .next u) := by
  rcases stepOf_cases hx with ⟨-, hnone, rfl⟩ | ⟨rfl, -⟩ | ⟨rfl, w, ws, -, hop, hx⟩ |
    ⟨rfl, w, ws, -, -, -, hx⟩ | ⟨i, ht, hop, hx⟩
  · exact .inl ⟨Dev.Inv.newestChanged_of_same h rfl rfl rfl rfl rfl (.inl rfl), rfl, fun _ => hnone⟩
  · exact absurd (.inl rfl) hcut
  · obtain ⟨-, hport, -⟩ := decodeCtl_encodesTo w
    obtain ⟨hchange, hdel⟩ := (exec_effect hx).newestChanged h hport
      (fun habort => hcut (.inr (.inl (habort ▸ hop)))) fun hsrst => hcut (.inr (.inr (hsrst ▸ hop)))
    exact .inl ⟨hchange, hdel, Bool.noConfusion⟩
  · obtain ⟨-, hport, -⟩ := decodeBeat_encodesTo w
    obtain ⟨habort, hsrst⟩ := decodeBeat_cuts_nothing w
    obtain ⟨hchange, hdel⟩ := (exec_effect hx).newestChanged h hport habort hsrst
    exact .inl ⟨hchange, hdel, Bool.noConfusion⟩
  · exact .inr ⟨i, by rcases ht with rfl | rfl | rfl <;> rfl, hop, hx⟩

theorem takesUp_iff : s.takesUp t = true ↔
    t = .fbc ∧ (s.enabledOp t = some .drop ∨ s.enabledOp t = some .start) := by
  simp [State.takesUp]

theorem idle_of_takesUp (ht : s.takesUp t = true) : s.dev.fbc.phase = .idle := by
  obtain ⟨rfl, hop | hop⟩ := takesUp_iff.mp ht <;> rw [enabledOp_fbc, fbcOp_eq_some_iff] at hop
  · exact ((dropEnabled_iff s.dev).mp hop).2.1
  · exact ((startEnabled_iff s.dev).mp hop).2.1

/-- FBC takes up the closed record at the head of MQ: a good one is started, a bad one dropped. -/
theorem stepOf_takesUp (h : s.Inv) (hx : stepOf t s = .next u) (ht : s.takesUp t = true) :
    ∃ r, s.dev.mq.head? = some r ∧ waiting s.dev = r :: waiting u.dev ∧
      s.enabledOp .fbc = some (if r.cnt.toNat = r.decl.toNat then .start else .drop) ∧
      u.begun = s.begun.settle r := by
  have hidle := idle_of_takesUp ht
  obtain ⟨rfl, hop⟩ := takesUp_iff.mp ht
  obtain ⟨i, hi, hop⟩ : ∃ i, (i = .drop ∨ i = .start) ∧ s.enabledOp .fbc = some i := by
    rcases hop with hop | hop
    · exact ⟨_, .inl rfl, hop⟩
    · exact ⟨_, .inr rfl, hop⟩
  have hexec : exec i (s.giveTurn .fbc).takeTurn = .next u := by
    rcases stepOf_cases hx with ⟨-, hnone, -⟩ | ⟨⟨⟩, -⟩ | ⟨⟨⟩, -⟩ | ⟨⟨⟩, -⟩ | ⟨j, -, hj, hx⟩
    · rw [hop] at hnone; cases hnone
    · rw [hop, Option.some.injEq] at hj
      rwa [hj]
  have hg : fbcGuard s.env.params s.dev i = true := by
    rwa [enabledOp_fbc, fbcOp_eq_some_iff] at hop
  rcases begun_fbc (s := (s.giveTurn .fbc).takeTurn) h hg hexec with ⟨-, r, hq, hw, hc, hb⟩ | ⟨hne, -⟩
  · refine ⟨r, congrArg List.head? hq, hw, ?_, hb⟩
    rw [hop, eq_fbcCandidate_of_guard hg, fbcCandidate_cons hidle hq]
    simp only [r.good_iff]
  · rcases hi with rfl | rfl
    · exact absurd rfl hne.1
    · exact absurd rfl hne.2

/-- While FBC takes up no record, what is owed of those begun only moves to CONSUMER, and the arrived ones
keep their place. -/
theorem stepOf_keeps_begun (h : s.Inv) (hx : stepOf t s = .next u) (hcut : ¬ s.cutBy t)
    (ht : s.takesUp t = false) : u.through = s.through ∧
      (∀ c : List Msg, (∀ r ∈ c, r.closed = true) → c <+: waiting s.dev → c <+: waiting u.dev) ∧
      (waiting s.dev ≠ [] → u.dev.conf = s.dev.conf) := by
  rcases stepOf_uncut h hx hcut with ⟨hchange, hdel, -⟩ | ⟨i, hint, hop, hx⟩
  · refine ⟨by rw [State.through, State.through, hdel, hchange.front_eq],
      fun c hc => hchange.waiting_prefix hc, fun hne => hchange.conf.resolve_right ?_⟩
    rintro ⟨hmq, -, -, hidle, -⟩
    exact hne ((waiting_idle hidle).trans hmq)
  · have hkept : waiting u.dev = waiting s.dev ∧ u.begun = s.begun := by
      cases t with
      | fbc =>
        rw [enabledOp_fbc] at hop
        rcases begun_fbc (s := (s.giveTurn .fbc).takeTurn) h (fbcOp_eq_some_iff.mp hop) hx with
          ⟨hi, -⟩ | ⟨-, hkept⟩
        · rw [← Bool.not_eq_true, takesUp_iff, enabledOp_fbc, hop] at ht
          exact absurd ⟨rfl, hi.imp (congrArg some) (congrArg some)⟩ ht
        · exact hkept
      | brp => exact begun_brp (s := (s.giveTurn .brp).takeTurn) h ((enabledOp_brp s).symm.trans hop) hx
      | consumer =>
        obtain ⟨rfl, -⟩ := consumerOp_eq_some.mp ((enabledOp_consumer s).symm.trans hop)
        exact begun_pop (s := (s.giveTurn .consumer).takeTurn) h hx
      | host | producer | rst => cases hint
    obtain ⟨hw, hb⟩ := hkept
    exact ⟨congrArg Account.items hb, fun c _ hpre => hw ▸ hpre, fun _ => congrArg Account.conf hb⟩

theorem stepOf_keeps_inv (h : s.Inv) (hx : stepOf t s = .next u) : u.Inv :=
  step_keeps_inv (s := s.giveTurn t) h hx

/-- What is owed of the messages begun grows at its end or stays. -/
theorem stepOf_through_prefix (h : s.Inv) (hx : stepOf t s = .next u) (hcut : ¬ s.cutBy t) :
    s.through <+: u.through := by
  cases ht : s.takesUp t with
  | false => rw [(stepOf_keeps_begun h hx hcut ht).1]
  | true =>
    obtain ⟨r, -, -, -, hb⟩ := stepOf_takesUp h hx ht
    have hthrough : u.through = s.through ++ _ :=
      (congrArg Account.items hb).trans (s.begun.settle_items r)
    rw [hthrough]
    exact List.prefix_append _ _

/-! ### The oldest data in flight moves on -/

/-- The agent with the oldest data in flight has its operation enabled. -/
structure State.Driven (s : State) : Prop where
  inv : s.Inv
  moving : s.dev.lc = .run ∨ s.dev.lc = .drain
  head : s.dev.stage = 3 → s.dev.fbc.phase = .idle → s.dev.headClosed

theorem State.Driven.enabled (h : s.Driven) :
    s.enabledOp (nextMove s.dev).1 = some (nextMove s.dev).2 :=
  enabledOp_nextMove h.inv h.moving h.head

theorem State.driven_of_not_empty (h : s.Inv) (hne : ¬ s.dev.empty)
    (hhead : s.dev.stage = 3 → s.dev.fbc.phase = .idle → s.dev.headClosed) : s.Driven := by
  refine ⟨h, ?_, hhead⟩
  by_contra hlc
  exact hne (Dev.Inv.still_empty h (by cases hl : s.dev.lc <;> simp [hl] at hlc ⊢))

theorem front_of_stage_three {d : Dev} (h3 : d.stage = 3) (hidle : d.fbc.phase = .idle) :
    front d = [] := by
  obtain ⟨hoq, hcnt, hbch⟩ := Dev.stage_eq_three_iff.mp h3
  rw [front, behindFbc, hoq, hcnt, hbch, restBytes_idle hidle, tagged_nil]
  rfl

/-- Something is owed of the messages begun. -/
theorem State.driven_of_front (h : s.Inv) (hf : front s.dev ≠ []) : s.Driven :=
  State.driven_of_not_empty h (mt front_of_empty hf) fun h3 hidle =>
    absurd (front_of_stage_three h3 hidle) hf

/-- A record that has arrived waits. -/
theorem State.driven_of_waiting (h : s.Inv) {r : Msg} (hr : r.closed = true)
    (hpre : [r] <+: waiting s.dev) : s.Driven := by
  obtain ⟨rest, hw⟩ := hpre
  refine State.driven_of_not_empty h ?_ fun _ hidle => ?_
  · rintro ⟨hmq, -, -, hidle, -⟩
    rw [waiting_idle hidle, hmq] at hw
    cases hw
  · rw [waiting_idle hidle] at hw
    exact ⟨r, rest, hw.symm, hr⟩

/-- BCH holding an item, the stage moves on from 3 and is what it was elsewhere. -/
theorem stage_of_bch {d e : Dev} (hoq : e.oq = d.oq) (hbrp : e.brp = d.brp) (hbch : e.bch ≠ []) :
    (d.stage = 3 ∧ e.stage < d.stage) ∨ (d.stage ≠ 3 ∧ e.stage = d.stage) := by
  rcases d.stage_cases with ⟨hs, h⟩ | ⟨hs, h, h'⟩ | ⟨hs, h, h', -⟩ | ⟨hs, h, h', -⟩ <;> rw [hs]
  · exact .inr ⟨by decide, by simp [Dev.stage, hoq, h]⟩
  · exact .inr ⟨by decide, by simp [Dev.stage, hoq, hbrp, h, h']⟩
  · exact .inr ⟨by decide, by simp [Dev.stage, hoq, hbrp, hbch, h, h']⟩
  · exact .inl ⟨rfl, by simp [Dev.stage, hoq, hbrp, hbch, h, h']⟩

/-- How a step leaves the stage: it moves on, or it is not the step of the agent that moves it on, and that
agent and its operation stay the same. -/
def StageStep (t : Turn) (d e : Dev) : Prop :=
  e.stage < d.stage ∨ (e.stage = d.stage ∧ nextMove e = nextMove d ∧ t ≠ (nextMove d).1)

/-- Below stage 3 that agent is BRP or CONSUMER whatever FBC does. -/
theorem stageStep_of_fbc {d e : Dev} (hs : e.stage = d.stage) (h3 : d.stage ≠ 3) :
    StageStep .fbc d e := by
  refine .inr ⟨hs, nextMove_congr hs fun h => absurd h h3, ?_⟩
  rcases d.stage_cases with ⟨h, -⟩ | ⟨h, -⟩ | ⟨h, -⟩ | ⟨h, -⟩
  · simp [nextMove, h]
  · simp [nextMove, h]
  · simp [nextMove, h]
  · exact absurd h h3

theorem stageStep_fbc {i : Instr} (h : s.Driven) (hg : fbcGuard s.env.params s.dev i = true)
    (hx : exec i s = .next u) (htake : s.dev.stage = 3 → i ≠ .drop ∧ i ≠ .start) :
    StageStep .fbc s.dev u.dev := by
  have hemits (hi : Emits i) : StageStep .fbc s.dev u.dev := by
    have hk := exec_emission_keeps (.inr hi) hx
    obtain ⟨e, he, rfl⟩ := fbcDev_of_exec hg hx
    obtain ⟨-, -, x, hb⟩ := Dev.Inv.emits_begun h.inv hi hg he
    rcases stage_of_bch hk.oq hk.brp (by simp [hb]) with ⟨-, hlt⟩ | ⟨h3, hs⟩
    · exact .inl hlt
    · exact stageStep_of_fbc hs h3
  have htaken (hi : i = .drop ∨ i = .start) (hoq : u.dev.oq = s.dev.oq) (hbrp : u.dev.brp = s.dev.brp)
      (hbch : u.dev.bch = s.dev.bch) : StageStep .fbc s.dev u.dev := by
    refine stageStep_of_fbc (by unfold Dev.stage; rw [hoq, hbrp, hbch]) fun h3 => ?_
    exact hi.elim (htake h3).1 (htake h3).2
  cases i <;> simp only [fbcGuard, Bool.false_eq_true] at hg
  case drop =>
    rw [exec_drop_of_enabled hg] at hx
    cases hx
    exact htaken (.inl rfl) rfl rfl rfl
  case start =>
    have hk := exec_emission_keeps (.inl rfl) hx
    obtain ⟨e, he, rfl⟩ := fbcDev_of_exec (i := .start) hg hx
    obtain ⟨-, -, -, -, -, -, hb⟩ := start_begun hg he
    exact htaken (.inr rfl) hk.oq hk.brp hb
  case emitPre => exact hemits (.inl rfl)
  case emitSync => exact hemits (.inr (.inl rfl))
  case emitPay => exact hemits (.inr (.inr rfl))
  case drainDone =>
    obtain ⟨-, hmq, hidle, hbch, hcnt, hoq⟩ := (drainDoneEnabled_iff s.dev).mp hg
    obtain ⟨r, rest, hq, -⟩ := h.head (Dev.stage_eq_three_iff.mpr ⟨hoq, hcnt, hbch⟩) hidle
    rw [hmq] at hq
    cases hq

theorem stageStep_brp {i : Instr} (h : s.Inv) (ho : brpOp s.env.params s.dev = some i)
    (hx : exec i s = .next u) : StageStep .brp s.dev u.dev := by
  rcases brpOp_cases ho with ⟨rfl, hg⟩ | ⟨rfl, hg⟩
  · obtain ⟨h0, x, rest, hq, -, hload⟩ := exec_load_of_enabled h hg
    rw [hload] at hx
    cases hx
    by_cases hoq : s.dev.oq = []
    · exact .inl (by simp [Dev.stage, loaded, hoq, h0, hq])
    · have hs : s.dev.stage = 0 := by simp [Dev.stage, hoq]
      have hs' : (loaded x rest s.dev).stage = 0 := by simp [Dev.stage, loaded, hoq]
      exact .inr ⟨hs'.trans hs.symm, by simp [nextMove, hs, hs'], by simp [nextMove, hs]⟩
  · obtain ⟨h0, hshift⟩ := exec_shift_of_enabled h hg
    rw [hshift] at hx
    cases hx
    have hs' : (shifted s.dev).stage = 0 := by simp [Dev.stage, shifted]
    by_cases hoq : s.dev.oq = []
    · have hs : s.dev.stage = 1 := by simp [Dev.stage, hoq, h0]
      exact .inl (by rw [State.setDev_dev, hs', hs]; decide)
    · have hs : s.dev.stage = 0 := by simp [Dev.stage, hoq]
      exact .inr ⟨hs'.trans hs.symm, by simp [nextMove, hs, hs'], by simp [nextMove, hs]⟩

/-- But for a POP, and for FBC taking up a record while nothing else is in flight, every step of a run that
is not cut short is such a step. -/
theorem stepOf_stageStep (h : s.Driven) (hx : stepOf t s = .next u) (hcut : ¬ s.cutBy t)
    (hpop : t = .consumer → s.dev.oq = []) (htake : s.dev.stage = 3 → s.takesUp t = false) :
    StageStep t s.dev u.dev := by
  rcases stepOf_uncut h.inv hx hcut with ⟨hchange, -, hnone⟩ | ⟨i, hint, hop, hx⟩
  · obtain ⟨hs, hmove⟩ := hchange.nextMove_eq h.head
    refine .inr ⟨hs, hmove, ?_⟩
    rintro rfl
    have henabled := h.enabled
    rw [hnone (nextMove_internal s.dev)] at henabled
    cases henabled
  · cases t with
    | fbc =>
      refine stageStep_fbc (s := (s.giveTurn .fbc).takeTurn) ⟨h.inv, h.moving, h.head⟩
        (fbcOp_eq_some_iff.mp ((enabledOp_fbc s).symm.trans hop)) hx fun h3 => ?_
      have hnot := htake h3
      rw [← Bool.not_eq_true, takesUp_iff, hop] at hnot
      exact ⟨fun hi => hnot ⟨rfl, .inl (congrArg some hi)⟩, fun hi => hnot ⟨rfl, .inr (congrArg some hi)⟩⟩
    | brp =>
      exact stageStep_brp (s := (s.giveTurn .brp).takeTurn) h.inv ((enabledOp_brp s).symm.trans hop) hx
    | consumer =>
      obtain ⟨-, hne⟩ := consumerOp_eq_some.mp ((enabledOp_consumer s).symm.trans hop)
      exact absurd (hpop rfl) hne
    | host | producer | rst => cases hint

/-- A POP delivers an item. -/
theorem stepOf_pop (hx : stepOf .consumer s = .next u) (hq : s.dev.oq ≠ []) :
    u.env.delivered.length = s.env.delivered.length + 1 := by
  have hop : s.enabledOp .consumer = some .pop := by
    rw [enabledOp_consumer, consumerOp_eq_some]
    exact ⟨rfl, hq⟩
  obtain ⟨x, rest, hq⟩ := List.exists_cons_of_ne_nil hq
  rcases stepOf_cases hx with ⟨-, hnone, -⟩ | ⟨⟨⟩, -⟩ | ⟨⟨⟩, -⟩ | ⟨⟨⟩, -⟩ | ⟨i, -, hi, hx⟩
  · rw [hop] at hnone; cases hnone
  · rw [hop, Option.some.injEq] at hi
    subst hi
    rw [exec_pop_of_cons (s := (s.giveTurn .consumer).takeTurn) hq] at hx
    cases hx
    simp

end

/-! ### Runs -/

section
variable {turns : Nat → Turn} {σ : Nat → State} {n m : Nat}

theorem takenUp_eq_zero (h : ∀ k, n ≤ k → k < m → (σ k).takesUp (turns k) = false) :
    takenUp turns σ n m = 0 := by
  rw [takenUp, List.countP_eq_zero]
  intro k hk
  obtain ⟨hle, hlt⟩ := List.mem_range'_1.mp hk
  rw [h k hle (by omega)]
  decide

/-- From `σ n` on the run is fair to the internal agents and is not cut short. -/
structure FairFrom (turns : Nat → Turn) (σ : Nat → State) (n : Nat) : Prop where
  run : IsRun turns σ
  fair : ∀ t ∈ [Turn.fbc, .brp, .consumer], WeaklyFair turns σ t
  uncut : ∀ m, n ≤ m → ¬ (σ m).cutBy (turns m)

theorem FairFrom.later (h : FairFrom turns σ n) (hnm : n ≤ m) : FairFrom turns σ m :=
  ⟨h.run, h.fair, fun k hk => h.uncut k (hnm.trans hk)⟩

/-- The run is fair to every agent that `nextMove` can name. -/
theorem fair_or_not_nextMove (hfair : ∀ t ∈ [Turn.fbc, .brp, .consumer], WeaklyFair turns σ t) (t : Turn)
    (S : State → Prop) : WeaklyFair turns σ t ∨ ∀ s, S s → (nextMove s.dev).1 ≠ t := by
  cases t with
  | fbc | brp | consumer => exact .inl (hfair _ (by decide))
  | host | producer | rst =>
    refine .inr fun s _ he => ?_
    have hint := nextMove_internal s.dev
    rw [he] at hint
    cases hint

theorem IsRun.inv (h : IsRun turns σ) (hinv : (σ n).Inv) (hnm : n ≤ m) : (σ m).Inv :=
  h.keeps (P := State.Inv) (fun _ _ _ => stepOf_keeps_inv) (fun _ _ _ hs => hs) hinv m hnm

/-- While FBC takes up no record, what the messages begun come to, and the arrived records that wait,
stay. -/
theorem FairFrom.keeps_until (h : FairFrom turns σ n) (hinv : (σ n).Inv) {c : List Msg}
    (hc : ∀ r ∈ c, r.closed = true) (hpre : c <+: waiting (σ n).dev) (hnm : n ≤ m)
    (hno : ∀ k, n ≤ k → k < m → (σ k).takesUp (turns k) = false) :
    (σ m).through = (σ n).through ∧ c <+: waiting (σ m).dev ∧
      (c ≠ [] → (σ m).dev.conf = (σ n).dev.conf) := by
  induction m, hnm using Nat.le_induction with
  | base => exact ⟨rfl, hpre, fun _ => rfl⟩
  | succ m hm ih =>
    obtain ⟨hthrough, hprefix, hconf⟩ := ih fun k hk hlt => hno k hk (by omega)
    obtain ⟨u, ws, bs, hx, he⟩ := h.run m
    obtain ⟨hthrough', hprefix', hconf'⟩ := stepOf_keeps_begun (h.run.inv hinv hm) hx (h.uncut m hm)
      (hno m hm (by omega))
    rw [he]
    refine ⟨hthrough'.trans hthrough, hprefix' c hc hprefix, fun hne => ?_⟩
    refine (hconf' fun hnil => hne ?_).trans (hconf hne)
    rwa [hnil, List.prefix_nil] at hprefix

theorem FairFrom.delivered_prefix (h : FairFrom turns σ n) (hnm : n ≤ m) :
    (σ n).env.delivered <+: (σ m).env.delivered :=
  h.run.keeps (P := fun s => (σ n).env.delivered <+: s.env.delivered)
    (fun _ _ _ hs hx => hs.trans (stepOf_delivered hx)) (fun _ _ _ hs => hs) List.prefix_rfl m hnm

theorem FairFrom.through_prefix (h : FairFrom turns σ n) (hinv : (σ n).Inv) (hnm : n ≤ m) :
    (σ n).through <+: (σ m).through := by
  induction m, hnm using Nat.le_induction with
  | base => exact List.prefix_rfl
  | succ m hm ih =>
    obtain ⟨u, ws, bs, hx, he⟩ := h.run m
    have hthrough : (σ (m + 1)).through = u.through := by rw [he]; rfl
    rw [hthrough]
    exact ih.trans (stepOf_through_prefix (h.run.inv hinv hm) hx (h.uncut m hm))

/-- While the oldest data in flight can move, and is not a record FBC takes up, CONSUMER receives an item
in the end. -/
theorem FairFrom.pops (h : FairFrom turns σ n) (hS : ∀ m, n ≤ m → (σ m).Driven)
    (hno : ∀ m, n ≤ m → (σ m).dev.stage = 3 → (σ m).takesUp (turns m) = false) :
    ∃ m, n ≤ m ∧ turns m = .consumer ∧ (σ m).dev.oq ≠ [] := by
  obtain ⟨m, hm, -, hgood⟩ := WeaklyFair.descend (turns := turns) (σ := σ) (n := n)
    (Good := fun m => turns m = .consumer ∧ (σ m).dev.oq ≠ []) (S := State.Driven)
    (rank := fun s => s.dev.stage) (D := fun s => nextMove s.dev)
    (fun t => fair_or_not_nextMove h.fair t _) (fun m _ hs => hs.enabled)
    (fun m hm hs hgood => by
      obtain ⟨u, ws, bs, hx, he⟩ := h.run m
      have hdev : (σ (m + 1)).dev = u.dev := by rw [he]; rfl
      refine ⟨hS (m + 1) (by omega), ?_⟩
      simp only [hdev]
      rcases stepOf_stageStep hs hx (h.uncut m hm)
        (fun ht => by by_contra hq; exact hgood ⟨ht, hq⟩) (hno m hm) with hlt | ⟨heq, hmove, hturn⟩
      · exact ⟨hlt.le, fun _ => hlt, fun heq => absurd heq hlt.ne⟩
      · exact ⟨heq.le, fun ht => absurd ht hturn, fun _ => hmove⟩)
    (hS n le_rfl)
  exact ⟨m, hm, hgood⟩

/-- Then CONSUMER receives items without end. -/
theorem FairFrom.delivers (h : FairFrom turns σ n) (hS : ∀ m, n ≤ m → (σ m).Driven)
    (hno : ∀ m, n ≤ m → (σ m).dev.stage = 3 → (σ m).takesUp (turns m) = false) (j : Nat) :
    ∃ m, n ≤ m ∧ j ≤ (σ m).env.delivered.length := by
  induction j with
  | zero => exact ⟨n, le_rfl, Nat.zero_le _⟩
  | succ j ih =>
    obtain ⟨m, hm, hj⟩ := ih
    have hlater := h.later hm
    obtain ⟨k, hk, ht, hq⟩ := hlater.pops (fun l hl => hS l (hm.trans hl)) fun l hl => hno l (hm.trans hl)
    obtain ⟨u, ws, bs, hx, he⟩ := h.run k
    rw [ht] at hx
    have hpop := stepOf_pop hx hq
    have hmono := (hlater.delivered_prefix hk).length_le
    have hlen : (σ (k + 1)).env.delivered.length = u.env.delivered.length := by rw [he]; rfl
    exact ⟨k + 1, by omega, by omega⟩

/-- What is owed of the messages begun is delivered in the end: while an item of it is not, CONSUMER
receives more. -/
theorem FairFrom.delivers_through (h : FairFrom turns σ n) (hinv : (σ n).Inv) :
    ∃ m, n ≤ m ∧ (σ n).through <+: (σ m).env.delivered := by
  by_contra! hnever
  have hfront (m : Nat) (hm : n ≤ m) : front (σ m).dev ≠ [] := fun hnil => by
    have hall : (σ m).through = (σ m).env.delivered := by rw [State.through, hnil, List.append_nil]
    exact hnever m hm (hall ▸ h.through_prefix hinv hm)
  have hno (m : Nat) (hm : n ≤ m) (h3 : (σ m).dev.stage = 3) : (σ m).takesUp (turns m) = false :=
    Bool.eq_false_iff.mpr fun ht => hfront m hm (front_of_stage_three h3 (idle_of_takesUp ht))
  obtain ⟨m, hm, hlen⟩ := h.delivers
    (fun m hm => State.driven_of_front (h.run.inv hinv hm) (hfront m hm)) hno (σ n).through.length
  exact hnever m hm (List.prefix_of_prefix_length_le (h.through_prefix hinv hm)
    (List.prefix_append _ _) hlen)

/-- A record that has arrived and is the next to begin is taken up in the end: while none is taken up, what
is owed of the messages begun is delivered, and no more can be. -/
theorem FairFrom.takes_up (h : FairFrom turns σ n) (hinv : (σ n).Inv) {r : Msg} (hr : r.closed = true)
    (hpre : [r] <+: waiting (σ n).dev) : ∃ m, n ≤ m ∧ (σ m).takesUp (turns m) = true := by
  by_contra! hnever
  have hno (m : Nat) (hm : n ≤ m) : (σ m).takesUp (turns m) = false :=
    Bool.eq_false_iff.mpr (hnever m hm)
  have hkeeps (m : Nat) (hm : n ≤ m) := h.keeps_until hinv (by simpa using hr) hpre hm
    fun k hk _ => hno k hk
  obtain ⟨m, hm, hlen⟩ := h.delivers
    (fun m hm => State.driven_of_waiting (h.run.inv hinv hm) hr (hkeeps m hm).2.1)
    (fun m hm _ => hno m hm) ((σ n).through.length + 1)
  have hthrough := congrArg List.length (hkeeps m hm).1
  rw [State.through, List.length_append] at hthrough
  omega

/-- The step that takes up the next record: until then nothing of what has arrived changes, and it is the
record FBC then starts or drops. -/
theorem FairFrom.takes_up_next (h : FairFrom turns σ n) (hinv : (σ n).Inv) {r : Msg} {c : List Msg}
    (hc : ∀ x ∈ r :: c, x.closed = true) (hpre : r :: c <+: waiting (σ n).dev) :
    ∃ m, n ≤ m ∧ takenUp turns σ n m = 0 ∧ (σ m).takesUp (turns m) = true ∧
      (σ m).dev.mq.head? = some r ∧
      (σ m).enabledOp .fbc = some (if r.cnt.toNat = r.decl.toNat then .start else .drop) ∧
      c <+: waiting (σ (m + 1)).dev ∧ (σ (m + 1)).dev.conf = (σ n).dev.conf ∧
      (σ (m + 1)).through =
        (σ n).through ++ if r.good then (σ n).dev.conf.frameItems r.data else [] := by
  have hex : ∃ m, n ≤ m ∧ (σ m).takesUp (turns m) = true :=
    h.takes_up hinv (hc r (by simp)) ((List.prefix_append [r] c).trans hpre)
  obtain ⟨hm, ht⟩ := Nat.find_spec hex
  have hno (k : Nat) (hk : n ≤ k) (hlt : k < Nat.find hex) : (σ k).takesUp (turns k) = false :=
    Bool.eq_false_iff.mpr fun hk' => Nat.find_min hex hlt ⟨hk, hk'⟩
  obtain ⟨hthrough, hprefix, hconf⟩ := h.keeps_until hinv hc hpre hm hno
  obtain ⟨u, ws, bs, hx, he⟩ := h.run (Nat.find hex)
  obtain ⟨r', hhead, hw, hop, hb⟩ := stepOf_takesUp (h.run.inv hinv hm) hx ht
  rw [hw, List.cons_prefix_cons] at hprefix
  obtain ⟨rfl, hprefix⟩ := hprefix
  have hconf' : u.dev.conf = (σ (Nat.find hex)).dev.conf :=
    (congrArg Account.conf hb).trans (Account.settle_conf _ _)
  refine ⟨Nat.find hex, hm, takenUp_eq_zero hno, ht, hhead, hop, he ▸ hprefix, ?_, ?_⟩
  · rw [he]
    exact hconf'.trans (hconf (by simp))
  · rw [he, ← hthrough, ← hconf (by simp)]
    exact (congrArg Account.items hb).trans (Account.settle_items _ _)

/-- The arrived records are taken up in their order. -/
theorem FairFrom.takes_up_in_order {q : List Msg} {r : Msg} (h : FairFrom turns σ n) (hinv : (σ n).Inv)
    (hc : ∀ x ∈ q ++ [r], x.closed = true) (hpre : q ++ [r] <+: waiting (σ n).dev) :
    ∃ m, n ≤ m ∧ takenUp turns σ n m = q.length ∧ turns m = .fbc ∧ (σ m).dev.mq.head? = some r ∧
      (σ m).enabledOp .fbc = some (if r.cnt.toNat = r.decl.toNat then .start else .drop) := by
  induction q generalizing n with
  | nil =>
    obtain ⟨m, hm, hzero, ht, hhead, hop, -⟩ := h.takes_up_next hinv hc hpre
    exact ⟨m, hm, hzero, (takesUp_iff.mp ht).1, hhead, hop⟩
  | cons x q ih =>
    obtain ⟨m, hm, hzero, ht, -, -, hrest, -⟩ := h.takes_up_next hinv hc hpre
    obtain ⟨k, hk, hcount, hturn, hhead, hop⟩ := ih (h.later (Nat.le_succ_of_le hm))
      (h.run.inv hinv (Nat.le_succ_of_le hm)) (fun y hy => hc y (List.mem_cons_of_mem x hy)) hrest
    refine ⟨k, by omega, ?_, hturn, hhead, hop⟩
    rw [takenUp_add (Nat.le_succ_of_le hm) hk, takenUp_succ hm, hzero, hcount, ht, List.length_cons]
    exact Nat.add_comm 1 _

/-- What is owed of the messages begun and of the arrived ones that wait is delivered in the end. -/
theorem FairFrom.delivers_arrived {c : List Msg} (h : FairFrom turns σ n) (hinv : (σ n).Inv)
    (hc : ∀ x ∈ c, x.closed = true) (hpre : c <+: waiting (σ n).dev) :
    ∃ m, n ≤ m ∧ (σ n).through ++ goodItems (σ n).dev.conf c <+: (σ m).env.delivered := by
  induction c generalizing n with
  | nil =>
    obtain ⟨m, hm, hdel⟩ := h.delivers_through hinv
    exact ⟨m, hm, by rwa [goodItems_nil, List.append_nil]⟩
  | cons r c ih =>
    obtain ⟨m, hm, -, -, -, -, hrest, hconf, hthrough⟩ := h.takes_up_next hinv hc hpre
    obtain ⟨k, hk, hdel⟩ := ih (h.later (Nat.le_succ_of_le hm))
      (h.run.inv hinv (Nat.le_succ_of_le hm)) (fun y hy => hc y (List.mem_cons_of_mem r hy)) hrest
    refine ⟨k, by omega, ?_⟩
    rwa [goodItems_cons, hc r (by simp), Bool.true_and, ← List.append_assoc, ← hthrough, ← hconf]

end

/-! ### The records that wait -/

theorem goodItems_of_all_open (c : Conf) {q : List Msg} (hq : ∀ r ∈ q, r.closed = false) :
    goodItems c q = [] := by
  have hnil : (q.filter fun r => r.closed && r.good) = [] :=
    List.filter_eq_nil_iff.mpr fun r hr => by simp [hq r hr]
  rw [goodItems, hnil]
  rfl

/-- The arrived records stand before one that is open. -/
theorem Dev.Inv.waiting_split {p : Params} {d : Dev} (h : d.Inv p) :
    ∃ c o, waiting d = c ++ o ∧ (∀ r ∈ c, r.closed = true) ∧ (∀ r ∈ o, r.closed = false) := by
  have hsub (e : Dev) : ∀ r ∈ waiting e, r ∈ e.mq := fun r hr => by
    by_cases hp : e.fbc.phase = .idle
    · rwa [waiting_idle hp] at hr
    · rw [waiting_busy hp] at hr
      exact List.mem_of_mem_tail hr
  cases ho : openMsg d.mq with
  | none =>
    exact ⟨waiting d, [], (List.append_nil _).symm, fun r hr => h.closed_of_none_open ho r (hsub d r hr),
      by simp⟩
  | some r =>
    obtain ⟨hq, hr⟩ := openMsg_eq_some.mp ho
    refine ⟨waiting (d.setMq d.mq.dropLast), [r], ?_, fun x hx => h.one_open x (hsub _ x hx),
      by simpa using hr⟩
    rw [← waiting_setMq_append (h.ne_nil_before_open hq hr), ← hq]
    rfl

/-- The records before one that has arrived have arrived too. -/
theorem Dev.Inv.closed_before {p : Params} {d : Dev} (h : d.Inv p) {q q' : List Msg} {r : Msg}
    (hw : waiting d = q ++ r :: q') (hr : r.closed = true) : ∀ x ∈ q ++ [r], x.closed = true := by
  obtain ⟨c, o, hsplit, hc, ho⟩ := h.waiting_split
  have hpre : q ++ [r] <+: c ++ o := ⟨q', by rw [← hsplit, hw, List.append_assoc, List.singleton_append]⟩
  obtain ⟨x, hx⟩ := hpre
  rcases List.append_eq_append_iff.mp hx with ⟨y, rfl, -⟩ | ⟨y, hqr, rfl⟩
  · exact fun z hz => hc z (List.mem_append_left y hz)
  · rcases List.eq_nil_or_concat y with rfl | ⟨l, z, rfl⟩
    · rwa [hqr, List.append_nil]
    · rw [List.concat_eq_append, ← List.append_assoc] at hqr
      obtain ⟨-, hrz⟩ := List.append_inj' hqr rfl
      obtain rfl : r = z := List.singleton_inj.mp hrz
      rw [ho r (by simp)] at hr
      cases hr

/-! ### The obligation -/

/-- Settles O59: part by part, for the records that have arrived. -/
theorem fairRunsDropOrEmitEveryArrivedMessage : Obligations.FairRunsDropOrEmitEveryArrivedMessage := by
  intro turns σ n hrun hinv hfair huncut
  have h : FairFrom turns σ n := ⟨hrun, hfair, huncut⟩
  constructor
  · obtain ⟨c, o, hw, hc, ho⟩ := Dev.Inv.waiting_split hinv
    obtain ⟨m, hm, hdel⟩ := h.delivers_arrived hinv hc (hw ▸ List.prefix_append c o)
    refine ⟨m, hm, ?_⟩
    rwa [stream_eq_through, hw, goodItems_append, goodItems_of_all_open _ ho, List.append_nil]
  · intro q r q' hw hr
    exact h.takes_up_in_order hinv (Dev.Inv.closed_before hinv hw hr)
      ⟨q', by rw [hw, List.append_assoc, List.singleton_append]⟩

end Sys2Proof.Machine
end

section
/-! Runs that stay in RUN and are weakly fair to PRODUCER and the internal agents: a beat that PRODUCER
offers is accepted in the end (spec/41_ingress_ops.md R130, spec/70_reset_and_hazards.md R241, R242). -/

namespace Sys2Proof.Machine

open Sys2Proof

/-! ### What FBC, BRP and CONSUMER do to the space in MQ -/

/-- No more records and no more stored bytes. -/
def NoFuller (q q' : List Msg) : Prop := q'.length ≤ q.length ∧ usedBytes q' ≤ usedBytes q

theorem noFuller_refl (q : List Msg) : NoFuller q q := ⟨le_rfl, le_rfl⟩

theorem noFuller_tail (q : List Msg) : NoFuller q q.tail := by
  cases q with
  | nil => exact noFuller_refl []
  | cons r rest => exact ⟨Nat.le_succ _, by simp⟩

section
variable {p : Params} {i : Instr} {d e : Dev}

/-- `advance` removes the head record or none. -/
theorem advance_noFuller {ph : Phase} (he : advance ph d = .ok e) : NoFuller d.mq e.mq := by
  rcases advance_cases he with ⟨-, -, rfl⟩ | ⟨r, rest, -, -, -, -, rfl⟩ | ⟨r, rest, hq, -, -, rfl⟩
  · exact noFuller_refl d.mq
  · exact noFuller_refl d.mq
  · have htail := noFuller_tail d.mq
    rwa [hq, List.tail_cons, ← hq] at htail

theorem emit_noFuller {b : Byte} (he : emit b d = .ok e) : NoFuller d.mq e.mq := by
  rcases emit_cases he with ⟨-, ha⟩ | ⟨-, rfl⟩
  · exact advance_noFuller (d := pushByte b d) ha
  · exact noFuller_refl d.mq

theorem Dev.Inv.fbcDev_noFuller (h : d.Inv p) (hg : fbcGuard p d i = true) (he : fbcDev i d = .ok e) :
    NoFuller d.mq e.mq := by
  have hemits (hi : Emits i) : NoFuller d.mq e.mq := by
    obtain ⟨-, b, r, hlen, hused, he⟩ := h.fbcDev_emits hi hg he
    obtain ⟨hlen', hused'⟩ := emit_noFuller he
    exact ⟨hlen'.trans hlen.le, hused'.trans hused⟩
  cases i <;> simp only [fbcGuard, Bool.false_eq_true] at hg
  case drop => cases he; exact noFuller_tail d.mq
  case start =>
    obtain ⟨-, -, r, rest, hq, -⟩ := (startEnabled_iff d).mp hg
    simp only [fbcDev, hq] at he
    rw [startDev_eq, ← latched] at he
    split at he
    · cases he; exact noFuller_refl d.mq
    · exact advance_noFuller (d := latched r d) he
  case emitPre => exact hemits (.inl rfl)
  case emitSync => exact hemits (.inr (.inl rfl))
  case emitPay => exact hemits (.inr (.inr rfl))
  case drainDone => cases he; exact noFuller_refl d.mq

end

section
variable {i : Instr} {s t : State}

theorem exec_noFuller (h : s.Inv) (ho : InternalOp s i) (hx : exec i s = .next t) :
    NoFuller s.dev.mq t.dev.mq := by
  rcases ho with ho | ho | ho
  · have hg := fbcOp_eq_some_iff.mp ho
    obtain ⟨e, he, rfl⟩ := fbcDev_of_exec hg hx
    exact Dev.Inv.fbcDev_noFuller h hg he
  · rcases brpOp_cases ho with ⟨rfl, hg⟩ | ⟨rfl, hg⟩
    · obtain ⟨-, x, rest, -, -, hload⟩ := exec_load_of_enabled h hg
      rw [hload] at hx
      cases hx
      exact noFuller_refl s.dev.mq
    · obtain ⟨-, hshift⟩ := exec_shift_of_enabled h hg
      rw [hshift] at hx
      cases hx
      exact noFuller_refl s.dev.mq
  · obtain ⟨rfl, hq⟩ := consumerOp_eq_some.mp ho
    obtain ⟨x, rest, hq⟩ := List.exists_cons_of_ne_nil hq
    rw [exec_pop_of_cons hq] at hx
    cases hx
    exact noFuller_refl s.dev.mq

/-- A beat that is accepted stays acceptable while MQ gets no fuller and the record open stays. -/
theorem inReady_of_noFuller {p : Params} {d e : Dev} {k : BeatKind} (hlc : e.lc = .run)
    (ho : openMsg e.mq = openMsg d.mq) (hmq : NoFuller d.mq e.mq) (hr : inReady p d k = true) :
    inReady p e k = true := by
  have hrun := run_of_inReady hr
  obtain ⟨hlen, hused⟩ := hmq
  cases k with
  | head =>
    rw [inReady_head p hrun, Bool.or_eq_true, decide_eq_true_eq] at hr
    rw [inReady_head p hlc, ho, Bool.or_eq_true, decide_eq_true_eq]
    exact hr.imp_right hlen.trans_lt
  | data =>
    cases hopen : openMsg d.mq with
    | none => exact inReady_data_none p hlc (ho.trans hopen)
    | some r =>
      rw [inReady_data_open p hrun hopen] at hr
      rw [inReady_data_open p hlc (ho.trans hopen)]
      split at hr
      · next hlt => rw [if_pos hlt, decide_eq_true_eq]; exact hused.trans_lt (decide_eq_true_eq.mp hr)
      · next hge => rw [if_neg hge]
  | msgEnd => exact inReady_msgEnd p hlc
  | rsvd => exact inReady_rsvd p hlc

theorem exec_keeps_inReady (h : s.Inv) (ho : InternalOp s i) (hx : exec i s = .next t)
    (hlc : t.dev.lc = .run) {k : BeatKind} (hr : inReady s.env.params s.dev k = true) :
    inReady s.env.params t.dev k = true := by
  have hopen : openMsg t.dev.mq = openMsg s.dev.mq := by
    rw [← account_opened (exec_keeps_inv h hx), account_internal h ho hx, account_opened h]
  exact inReady_of_noFuller hlc hopen (exec_noFuller h ho hx) hr

end

/-! ### What a beat waits for -/

/-- A beat that is not accepted in RUN waits for a record that has arrived: MQ is full of them, or one of
them holds bytes, since the record open stores fewer than QBYTES (R5, R130). -/
theorem Dev.Inv.headClosed_of_not_ready {p : Params} {d : Dev} {k : BeatKind} (h : d.Inv p)
    (hlc : d.lc = .run) (hr : inReady p d k = false) : d.headClosed := by
  obtain ⟨hqmsgs, hqbytes, -⟩ := legalParams_iff.mp h.sizes
  cases k with
  | head =>
    rw [inReady_head p hlc, Bool.or_eq_false_iff, decide_eq_false_iff_not, Option.isSome_eq_false_iff,
      Option.isNone_iff_eq_none] at hr
    obtain ⟨ho, hfull⟩ := hr
    obtain ⟨r, rest, hq⟩ := List.exists_cons_of_length_pos (l := d.mq) (by omega)
    exact ⟨r, rest, hq, h.closed_of_none_open ho r (by simp [hq])⟩
  | data =>
    cases ho : openMsg d.mq with
    | none => rw [inReady_data_none p hlc ho] at hr; cases hr
    | some r =>
      obtain ⟨hq, hopen⟩ := openMsg_eq_some.mp ho
      have hstored := h.open_stored hq hopen
      have hdecl := r.decl.isLt
      rw [inReady_data_open p hlc ho] at hr
      split at hr
      · next hlt =>
        have hbefore : d.mq.dropLast ≠ [] := fun hnil => by
          rw [hq, hnil, List.nil_append, usedBytes_cons, usedBytes_nil, decide_eq_false_iff_not] at hr
          omega
        obtain ⟨x, rest, hx⟩ := List.exists_cons_of_ne_nil hbefore
        exact ⟨x, rest ++ [r], by rw [hq, hx]; rfl, h.one_open x (by simp [hx])⟩
      · cases hr
  | msgEnd => rw [inReady_msgEnd p hlc] at hr; cases hr
  | rsvd => rw [inReady_rsvd p hlc] at hr; cases hr

/-! ### A step in RUN in which PRODUCER sends nothing -/

section
variable {s u : State} {t : Turn}

/-- A transaction of HOST that stays in RUN writes the flags and IEN at most. -/
theorem Effect.control_in_run {i : Instr} (h : Effect i s u) {w : BitVec 37}
    (henc : encode i = some (.ctl w)) (hs : s.dev.lc = .run) (hu : u.dev.lc = .run) :
    u.dev = (s.dev.setFlags u.dev.flags).setIen u.dev.ien := by
  cases h with
  | setConf _ _ hlc | commit hlc => rw [hs] at hlc; cases hlc
  | stop | abort | srst => cases hu
  | emission hi => rcases hi with rfl | rfl | rfl | rfl <;> cases henc
  | openRecord | countByte | closeRecord | drop | drainDone | load | misaligned | shift | pop =>
    cases henc
  | same | read | map | refuse | acknowledge | setIen | discard => rfl

/-- In RUN, and with no beat accepted, a step is an internal operation or writes the flags and IEN at
most. -/
theorem stepOf_in_run (hx : stepOf t s = .next u) (hs : s.dev.lc = .run) (hu : u.dev.lc = .run)
    (hheld : t = .producer → s.enabledOp t = none) :
    u.env.beatQ = s.env.beatQ ∧ u.env.params = s.env.params ∧
      ((u.dev = (s.dev.setFlags u.dev.flags).setIen u.dev.ien ∧
          (t.internal = true → s.enabledOp t = none)) ∨
        ∃ i, InternalOp s i ∧ exec i (s.giveTurn t).takeTurn = .next u) := by
  rcases stepOf_cases hx with ⟨-, hnone, rfl⟩ | ⟨-, rfl⟩ | ⟨rfl, w, ws, -, -, hx⟩ |
    ⟨rfl, w, ws, -, -, hop, hx⟩ | ⟨i, ht, hop, hx⟩
  · exact ⟨rfl, rfl, .inl ⟨rfl, fun _ => hnone⟩⟩
  · cases hu
  · obtain ⟨hparams, -, -, -, hbeat⟩ := exec_keeps_inputs hx
    obtain ⟨-, -, henc⟩ := decodeCtl_encodesTo w
    exact ⟨hbeat, hparams, .inl ⟨(exec_effect hx).control_in_run henc hs hu, Bool.noConfusion⟩⟩
  · rw [hheld rfl] at hop; cases hop
  · obtain ⟨hparams, -, -, -, hbeat⟩ := exec_keeps_inputs hx
    refine ⟨hbeat, hparams, .inr ⟨i, ?_, hx⟩⟩
    rcases ht with rfl | rfl | rfl
    · exact .inl ((enabledOp_fbc s).symm.trans hop)
    · exact .inr (.inl ((enabledOp_brp s).symm.trans hop))
    · exact .inr (.inr ((enabledOp_consumer s).symm.trans hop))

/-- Such a step uses up work, or is not the step of the agent that moves the oldest data in flight. -/
theorem stepOf_in_run_work (h : s.Driven) (hx : stepOf t s = .next u) (hs : s.dev.lc = .run)
    (hu : u.dev.lc = .run) (hheld : t = .producer → s.enabledOp t = none) :
    u.dev.work < s.dev.work ∨
      (u.dev.work = s.dev.work ∧ nextMove u.dev = nextMove s.dev ∧ t ≠ (nextMove s.dev).1) := by
  obtain ⟨-, -, ⟨hdev, hnone⟩ | ⟨i, hop, hx⟩⟩ := stepOf_in_run hx hs hu hheld
  · refine .inr ⟨by rw [hdev]; rfl, by rw [hdev]; rfl, ?_⟩
    rintro rfl
    have henabled := h.enabled
    rw [hnone (nextMove_internal s.dev)] at henabled
    cases henabled
  · exact .inl (Nat.lt_of_succ_le (work_internal (s := (s.giveTurn t).takeTurn) h.inv hop hx).le)

theorem stepOf_in_run_inReady (h : s.Inv) (hx : stepOf t s = .next u) (hs : s.dev.lc = .run)
    (hu : u.dev.lc = .run) (hheld : t = .producer → s.enabledOp t = none) {k : BeatKind}
    (hr : inReady s.env.params s.dev k = true) : inReady u.env.params u.dev k = true := by
  obtain ⟨-, hparams, ⟨hdev, -⟩ | ⟨i, hop, hx⟩⟩ := stepOf_in_run hx hs hu hheld <;> rw [hparams]
  · rw [hdev]
    exact hr
  · exact exec_keeps_inReady (s := (s.giveTurn t).takeTurn) h hop hx hu hr

end

/-! ### Runs -/

/-- From `σ n` on the run is fair, stays in RUN, and the beat `w` at the head of PRODUCER's words is never
accepted. -/
structure NeverAccepts (turns : Nat → Turn) (σ : Nat → State) (n : Nat) (w : BitVec 18)
    (ws : List (BitVec 18)) : Prop where
  run : IsRun turns σ
  inv : (σ n).Inv
  fair : ∀ t ∈ [Turn.producer, .fbc, .brp, .consumer], WeaklyFair turns σ t
  inRun : ∀ m, n ≤ m → (σ m).dev.lc = .run
  offered : (σ n).env.beatQ = w :: ws
  never : ∀ m bs, n ≤ m → (σ m).env.beatQ = (w :: ws) ++ bs → turns m = .producer →
    (σ m).enabledOp .producer ≠ some (decodeBeat w)

section
variable {turns : Nat → Turn} {σ : Nat → State} {n m : Nat} {w : BitVec 18} {ws : List (BitVec 18)}

theorem enabledOp_producer_offered {s : State} {bs : List (BitVec 18)}
    (hq : s.env.beatQ = (w :: ws) ++ bs) : s.enabledOp .producer =
      if inReady s.env.params s.dev (beatKind w) = true then some (decodeBeat w) else none :=
  enabledOp_producer_cons hq

/-- A turn of PRODUCER with `w` at the head is a wait. -/
theorem NeverAccepts.held (h : NeverAccepts turns σ n w ws) (hm : n ≤ m) {bs : List (BitVec 18)}
    (hq : (σ m).env.beatQ = (w :: ws) ++ bs) (ht : turns m = .producer) :
    (σ m).enabledOp (turns m) = none := by
  have hnever := h.never m bs hm hq ht
  rw [ht]
  rw [enabledOp_producer_offered hq] at hnever ⊢
  split at hnever
  · exact absurd rfl hnever
  · next hr => exact if_neg hr

theorem NeverAccepts.offers (h : NeverAccepts turns σ n w ws) (hm : n ≤ m) :
    ∃ bs, (σ m).env.beatQ = (w :: ws) ++ bs := by
  induction m, hm using Nat.le_induction with
  | base => exact ⟨[], h.offered.trans (List.append_nil _).symm⟩
  | succ m hm ih =>
    obtain ⟨bs, hq⟩ := ih
    obtain ⟨u, hs, bs', hx, he⟩ := h.run m
    have hu : u.dev.lc = .run := by
      have hrun := h.inRun (m + 1) (by omega)
      rwa [he] at hrun
    obtain ⟨hbeat, -⟩ := stepOf_in_run hx (h.inRun m hm) hu (h.held hm hq)
    refine ⟨bs ++ bs', ?_⟩
    rw [he, ← List.append_assoc, ← hq, ← hbeat]
    rfl

/-- Every step of such a run is a step in RUN in which PRODUCER sends nothing. -/
theorem NeverAccepts.step (h : NeverAccepts turns σ n w ws) (hm : n ≤ m) :
    ∃ u, stepOf (turns m) (σ m) = .next u ∧ u.dev = (σ (m + 1)).dev ∧
      u.env.params = (σ (m + 1)).env.params ∧ u.dev.lc = .run ∧
      (turns m = .producer → (σ m).enabledOp (turns m) = none) := by
  obtain ⟨bs, hq⟩ := h.offers hm
  obtain ⟨u, hs, bs', hx, he⟩ := h.run m
  have hdev : u.dev = (σ (m + 1)).dev := by rw [he]; rfl
  exact ⟨u, hx, hdev, by rw [he]; rfl, hdev ▸ h.inRun (m + 1) (by omega), h.held hm hq⟩

/-- While `w` is not ready the oldest data in flight can move; work does not last, so `w` gets ready. -/
theorem NeverAccepts.gets_ready (h : NeverAccepts turns σ n w ws) :
    ∃ m, n ≤ m ∧ inReady (σ m).env.params (σ m).dev (beatKind w) = true := by
  by_contra! hnot
  have hdriven (m : Nat) (hm : n ≤ m) : (σ m).Driven :=
    ⟨h.run.inv h.inv hm, .inl (h.inRun m hm), fun _ _ =>
      Dev.Inv.headClosed_of_not_ready (h.run.inv h.inv hm) (h.inRun m hm)
        (Bool.eq_false_iff.mpr (hnot m hm))⟩
  have hfair : ∀ t ∈ [Turn.fbc, .brp, .consumer], WeaklyFair turns σ t :=
    fun t ht => h.fair t (List.mem_cons_of_mem _ ht)
  obtain ⟨-, -, -, hfalse⟩ := WeaklyFair.descend (turns := turns) (σ := σ) (n := n)
    (Good := fun _ => False) (S := State.Driven) (rank := fun s => s.dev.work)
    (D := fun s => nextMove s.dev) (fun t => fair_or_not_nextMove hfair t _) (fun m _ hs => hs.enabled)
    (fun m hm hs _ => by
      obtain ⟨u, hx, hdev, -, hu, hheld⟩ := h.step hm
      refine ⟨hdriven (m + 1) (by omega), ?_⟩
      simp only [← hdev]
      rcases stepOf_in_run_work hs hx (h.inRun m hm) hu hheld with hlt | ⟨heq, hmove, hturn⟩
      · exact ⟨hlt.le, fun _ => hlt, fun heq => absurd heq hlt.ne⟩
      · exact ⟨heq.le, fun ht => absurd ht hturn, fun _ => hmove⟩)
    (hdriven n le_rfl)
  exact hfalse

/-- Once ready, `w` stays ready. -/
theorem NeverAccepts.stays_ready (h : NeverAccepts turns σ n w ws) {k : Nat} (hk : n ≤ k)
    (hr : inReady (σ k).env.params (σ k).dev (beatKind w) = true) (hm : k ≤ m) :
    inReady (σ m).env.params (σ m).dev (beatKind w) = true := by
  induction m, hm using Nat.le_induction with
  | base => exact hr
  | succ m hm ih =>
    obtain ⟨u, hx, hdev, hparams, hu, hheld⟩ := h.step (hk.trans hm)
    rw [← hdev, ← hparams]
    exact stepOf_in_run_inReady (h.run.inv h.inv (hk.trans hm)) hx (h.inRun m (hk.trans hm)) hu hheld ih

/-- Fairness to PRODUCER leaves no such run. -/
theorem not_neverAccepts : ¬ NeverAccepts turns σ n w ws := by
  intro h
  obtain ⟨k, hk, hr⟩ := h.gets_ready
  have henabled (m : Nat) (hm : k ≤ m) : (σ m).enabledOp .producer = some (decodeBeat w) := by
    obtain ⟨bs, hq⟩ := h.offers (hk.trans hm)
    rw [enabledOp_producer_offered hq, if_pos (h.stays_ready hk hr hm)]
  obtain ⟨m, hm, ht⟩ := h.fair .producer (by decide) k _ henabled
  obtain ⟨bs, hq⟩ := h.offers (hk.trans hm)
  exact h.never m bs (hk.trans hm) hq ht (henabled m hm)

end

/-! ### The obligation -/

/-- Settles O60: a run in which the beat is never accepted is not fair. -/
theorem fairRunsAcceptEveryOfferedBeat : Obligations.FairRunsAcceptEveryOfferedBeat := by
  intro turns σ n w ws hrun hinv hfair hinRun hq
  by_contra! hnever
  exact not_neverAccepts ⟨hrun, hinv, hfair, hinRun, hq,
    fun m bs hm hbeat ht => hnever m bs hm hbeat ht⟩

end Sys2Proof.Machine
end
